-- ==== Sys2Proof/Word.lean ====
section
/-! DEFINITION. The words of the block, and the types of data the spec leaves open. -/

namespace Sys2Proof

/-- A control register, a command word or an operation word: 32 bits, bit 0 least significant (R11, R40, R90). -/
abbrev Word := BitVec 32

/-- One byte of a bus image of a word (R62). -/
abbrev Byte := BitVec 8

/-- `IN_LEN` and an element of `OLEN`: bits 30 to 0, since bit 31 reads as zero and ignores writes (R31, R40, R42). -/
abbrev Len := BitVec 31

/-- A type the spec leaves open (`Cx` of R7, `RState` of R9), with what a state that is plain data asks of the type of a
field: its elements can be compared and written out. Every type that has an element is the carrier of some `DataType`. -/
inductive DataType : Type 1 where
  /-- The unit type, the one R30 names for a stateless collaborator. -/
  | unit
  /-- Any type with an element. -/
  | of (T : Type) (eq : DecidableEq T) (shown : Repr T) (some : T)
deriving Inhabited

/-- The type itself. -/
abbrev DataType.Carrier : DataType → Type
  | .unit => Unit
  | .of T _ _ _ => T

/-- Its elements can be compared. -/
abbrev DataType.eq : (c : DataType) → DecidableEq c.Carrier
  | .unit => inferInstance
  | .of _ e _ _ => e

/-- Its elements can be written out. -/
abbrev DataType.shown : (c : DataType) → Repr c.Carrier
  | .unit => inferInstance
  | .of _ _ r _ => r

/-- It has an element. -/
abbrev DataType.inhabited : (c : DataType) → Inhabited c.Carrier
  | .unit => inferInstance
  | .of _ _ _ x => ⟨x⟩

/-- An element of an open type, read and written whole. -/
structure Element (c : DataType) [DecidableEq c.Carrier] [Repr c.Carrier] [Inhabited c.Carrier] where
  raw : c.Carrier
deriving DecidableEq, Repr, Inhabited

/-- The elements of an open type. -/
abbrev DataType.El (c : DataType) : Type := @Element c c.eq c.shown c.inhabited

/-- The element that is this value of the carrier. -/
abbrev DataType.box (c : DataType) (x : c.Carrier) : c.El := @Element.mk c c.eq c.shown c.inhabited x

/-- The value of the carrier that an element is. -/
abbrev DataType.unbox (c : DataType) (x : c.El) : c.Carrier := @Element.raw c c.eq c.shown c.inhabited x

end Sys2Proof
end

