-- ==== Sys2Proof/Config.lean ====
section
/-! DEFINITION. What an implementation fixes (the configuration, the numeric domain, the two collaborators) and the
values the spec leaves open. The constants without a body are what no proof can look into. -/

namespace Sys2Proof

/-- The two spaces of 32-bit words (R60, ids 0 and 4). -/
inductive WordSpace where
  | csr | olen
deriving DecidableEq, Repr

/-- The eight spaces of samples (R60, ids 1, 2, 3, 5, 6, 7, 8, 9); `inp` is the space `IN`. -/
inductive SampleSpace where
  | coef | hist | inp | out | win | wout | fbuf | sout
deriving DecidableEq, Repr

/-- The configuration record `CFG` (R5), its fields as naturals (R10). -/
structure Cfg where
  chanM : Nat
  partLen : Nat
  resampLen : Nat
  p : Nat
  q : Nat
  mul : Nat
  variant : Nat
  segCap : Nat
  outCap : Nat
deriving DecidableEq, Repr

/-- The numeric domain `NUM` (R7): the carrier type `Cx` of complex samples, its zero, and two operations of which
nothing is assumed but that each is a function of its two operands. -/
structure NumDomain where
  carrier : DataType
  czero : carrier.El
  cadd : carrier.El → carrier.El → carrier.El
  cmul : carrier.El → carrier.El → carrier.El

/-- The field `Cx` of `NUM` as a type: one complex sample, or one coefficient (R7), read and written whole (R62). -/
abbrev NumDomain.Cx (num : NumDomain) : Type := num.carrier.El

/-- The transform of size `M`: a function of its `M` inputs alone (R8). -/
abbrev Transform (Cx : Type) := (M : Nat) → (Fin M → Cx) → Fin M → Cx

/-- The Resampler (R9): from the configuration, its state, the `M` input vectors, the `M` output lengths and the old
output contents to its new state, new contents OF THE SAME LENGTHS (the type says so) and the integer result. -/
abbrev ResamplerFn (Cx RState : Type) :=
  (cfg : Cfg) → RState → (inputs : Fin cfg.chanM → List Cx) → (outlens : Fin cfg.chanM → Nat) →
    (olddata : (c : Fin cfg.chanM) → Fin (outlens c) → Cx) →
    RState × ((c : Fin cfg.chanM) → Fin (outlens c) → Cx) × Int

/-- The parameters of the step relation that are not state (R51), and the values the spec leaves open in the types they
bring. -/
structure Env where
  /-- `NUM` (R7). -/
  num : NumDomain
  /-- `FFT` (R8). -/
  fft : Transform num.Cx
  /-- The type `RState` of the Resampler's own state (R9, R30). -/
  rState : DataType
  /-- `RESAMPLER` (R9). -/
  resampler : ResamplerFn num.Cx rState.El
  /-- `RS0` (R9). -/
  rs0 : rState.El
  /-- The `any value` of U1 and U2: what element `idx` of a sample space holds when nothing has written it since its
  contents last became unspecified, the time counted by `epoch` (log 5). -/
  freeSample : SampleSpace → (epoch idx : Nat) → num.Cx
  /-- The same for `RS` (R50, R192, log 7). -/
  freeRState : (epoch : Nat) → rState.El
  /-- What `ACC` holds before its first use (U2, log 7). -/
  freeAcc : num.Cx

/-- The type of samples. -/
abbrev Env.Cx (E : Env) : Type := E.num.Cx

/-- The type of the Resampler's state. -/
abbrev Env.RState (E : Env) : Type := E.rState.El

/-! ### The constants of the machine: each OPEN in the spec, none with a body -/

/-- The carrier type `Cx` of `NUM`, OPEN (R7, D2; log 1). -/
opaque Config.carrier : DataType
/-- `czero` of `NUM`, OPEN (R7, D2). -/
opaque Config.czero : Config.carrier.El
/-- `cadd` of `NUM`, OPEN (R7, D2). -/
opaque Config.cadd : Config.carrier.El → Config.carrier.El → Config.carrier.El
/-- `cmul` of `NUM`, OPEN (R7, D2). -/
opaque Config.cmul : Config.carrier.El → Config.carrier.El → Config.carrier.El

/-- `NUM`, OPEN in all its fields (R7, D2). -/
abbrev Config.num : NumDomain :=
  { carrier := Config.carrier, czero := Config.czero, cadd := Config.cadd, cmul := Config.cmul }

/-- `FFT`, OPEN (R8, D14). -/
opaque Config.fft : Transform Config.num.Cx
/-- `RState`, OPEN (R9, D16; log 3). -/
opaque Config.rState : DataType
/-- `RESAMPLER`, OPEN (R9, D16). -/
opaque Config.resampler : ResamplerFn Config.num.Cx Config.rState.El
/-- `RS0`, the state CONSTRUCT gives the Resampler, OPEN (R9, D16). -/
opaque Config.rs0 : Config.rState.El
/-- The free values of the sample spaces (U1, U2, log 5). -/
opaque Config.freeSample : SampleSpace → (epoch idx : Nat) → Config.num.Cx
/-- The free values of `RS` (log 7). -/
opaque Config.freeRState : (epoch : Nat) → Config.rState.El
/-- The free value of `ACC` (log 7). -/
opaque Config.freeAcc : Config.num.Cx
/-- The free values of `OLEN`, whose bit 31 is zero all the same (R31, log 5). -/
opaque Config.freeLen : (epoch idx : Nat) → Len
/-- The free values of the length latches of the buffer named (log 8). -/
opaque Config.freeLatch : SampleSpace → (epoch idx : Nat) → Nat

/-- The environment of the machine: every parameter at its opaque constant. -/
abbrev Config.env : Env :=
  { num := Config.num, fft := Config.fft, rState := Config.rState, resampler := Config.resampler, rs0 := Config.rs0,
    freeSample := Config.freeSample, freeRState := Config.freeRState, freeAcc := Config.freeAcc }

end Sys2Proof
end

