-- ==== Sys2Proof/Syntax.lean ====
section
/-! DEFINITION. The fifteen operations of R92, four host commands and eleven micro-operations. -/

namespace Sys2Proof

/-- One constructor per row of the opcode table (R92). The only operand of any operation is the channel index of the
`PB_*` operations, an unsigned number (R93). -/
inductive Instr where
  /-- `NOP`, R190. -/
  | nop
  /-- `CONSTRUCT`, R191. -/
  | construct
  /-- `ROTATE`, R170. -/
  | rotate
  /-- `DESTROY`, R192. -/
  | destroy
  /-- `VALIDATE`, R121. -/
  | validate
  /-- `PB_RESET ch`, R131. -/
  | pbReset (ch : Nat)
  /-- `PB_DEINT ch`, R132. -/
  | pbDeint (ch : Nat)
  /-- `PB_SPLICE ch`, R133. -/
  | pbSplice (ch : Nat)
  /-- `PB_CONV ch`, R134. -/
  | pbConv (ch : Nat)
  /-- `PB_HUPD ch`, R135. -/
  | pbHupd (ch : Nat)
  /-- `SS_ILV`, R151. -/
  | ssIlv
  /-- `SS_FFT`, R152. -/
  | ssFft
  /-- `SS_DLV`, R153. -/
  | ssDlv
  /-- `RESAMP`, R176. -/
  | resamp
  /-- `RET`, R178. -/
  | ret
deriving DecidableEq, Repr

/-- The operations the host port accepts: class 0 (R95). -/
def Instr.isHostCommand : Instr → Bool
  | .nop | .construct | .rotate | .destroy => true
  | .validate | .pbReset _ | .pbDeint _ | .pbSplice _ | .pbConv _ | .pbHupd _ => false
  | .ssIlv | .ssFft | .ssDlv | .resamp | .ret => false

/-- The channel operand, where the operation has one (R93). -/
def Instr.channel? : Instr → Option Nat
  | .pbReset ch | .pbDeint ch | .pbSplice ch | .pbConv ch | .pbHupd ch => some ch
  | .nop | .construct | .rotate | .destroy | .validate => none
  | .ssIlv | .ssFft | .ssDlv | .resamp | .ret => none

end Sys2Proof
end

