-- ==== Sys2Proof/Machine/State.lean ====
section
/-! DEFINITION. Everything one instance holds (R20 to R42, R60), the host's coming accesses, the reasons a step of the
model can stop, and the state after hardware reset (R50). -/

namespace Sys2Proof.Machine

/-- `LIFE` (R21); its code is the two low bits of `STATUS`. -/
inductive Life where
  | unconfigured | idle | busy | fault
deriving DecidableEq, Repr

/-- The fatal fault codes 0 to 8 (R207); 9 to 15 are reserved and never produced. -/
inductive FatalCode where
  | none | cfg | illegal | state | reentry | chanRange | capacity | access | retRange
deriving DecidableEq, Repr

/-- Which length bound a failed validation names (R37, R201). -/
inductive Bound where
  | input | output
deriving DecidableEq, Repr

/-- One record of the diagnostic stream (R204). -/
structure DiagRecord where
  bound : Bound
  length : Nat
  divisor : Nat
deriving DecidableEq, Repr

/-- The elements of one space that something has written since its contents last became unspecified, by index, the
indices strictly rising; `epoch` counts those times and names the free values of the other elements (log 5, log 6). -/
structure Bank (α : Type) where
  epoch : Nat
  cells : List (Nat × α)
deriving DecidableEq, Repr

/-- The nine element spaces of R60 (`CSR` is the registers of `State`); two-dimensional banks are flat by R61. -/
structure Memory (Cx : Type) where
  coef : Bank Cx
  hist : Bank Cx
  inp : Bank Cx
  olen : Bank Len
  out : Bank Cx
  win : Bank Cx
  wout : Bank Cx
  fbuf : Bank Cx
  sout : Bank Cx
deriving DecidableEq, Repr

/-- The length latches of the working buffers (R24 to R27, R61): one natural per channel, `FBUF.len` at index 0. -/
structure Latches where
  win : Bank Nat
  wout : Bank Nat
  fbuf : Bank Nat
  sout : Bank Nat
deriving DecidableEq, Repr

/-- The nine configuration registers 0x08 to 0x10 (R40, R41). -/
structure CfgRegs where
  chanM : Word
  partLen : Word
  resampLen : Word
  p : Word
  q : Word
  mul : Word
  variant : Word
  segCap : Word
  outCap : Word
deriving DecidableEq, Repr

/-- One thing the host does (R215), or leaves undone for a step. -/
inductive HostEvent (Cx : Type := Config.num.Cx) where
  /-- The host does nothing this step: the sequencer has it. -/
  | quiet
  /-- The host waits for `LIFE != BUSY` (R215, R231 step 7). -/
  | await
  /-- It reads a word of `CSR` or `OLEN`. -/
  | readWord (space : WordSpace) (index : Nat)
  /-- It writes a word of `CSR` or `OLEN`; a write of register 0x12 issues a command (R40, R90). -/
  | writeWord (space : WordSpace) (index : Nat) (value : Word)
  /-- It reads one sample. -/
  | readSample (space : SampleSpace) (index : Nat)
  /-- It writes one sample. -/
  | writeSample (space : SampleSpace) (index : Nat) (value : Cx)
  /-- It applies the block's reset input (R50). -/
  | hardReset
deriving DecidableEq, Repr

/-- What a host read is answered with. -/
inductive Datum (Cx : Type) where
  | word (w : Word)
  | sample (z : Cx)
deriving DecidableEq, Repr

/-- One instance of the block (R20) with the host at its port, over the parameters `E` of the step relation (R51). Where
none are named they are the machine's own, so `State` alone is the state of the machine. -/
structure State (E : Env := Config.env) where
  /-- `LIFE` (R21). -/
  life : Life
  /-- `VOK` (R34). -/
  vok : Bool
  /-- `FAULT_CODE` (R38). -/
  faultCode : FatalCode
  /-- `FAULT_INFO` (R38). -/
  faultInfo : Word
  /-- `RETVAL`, two's complement (R36). -/
  retval : Word
  /-- `DIAG_CTL`: bit 0 `valid`, bit 1 `bound`; the other bits read as zero (R37, R40). -/
  diagCtl : BitVec 2
  /-- `DIAG_LEN` (R37). -/
  diagLen : Word
  /-- `DIAG_DIV` (R37). -/
  diagDiv : Word
  /-- `UPC` (R35). -/
  upc : Word
  /-- `SEG` (R33). -/
  seg : Word
  /-- The configuration registers (R41). -/
  regs : CfgRegs
  /-- `IN_LEN` (R28, R40). -/
  inLen : Len
  /-- `ACC` (R39). -/
  acc : E.Cx
  /-- `RS` (R30). -/
  rs : E.RState
  /-- How often `RS` has become unspecified (log 6); the model's own. -/
  rsEpoch : Nat
  /-- The element spaces (R60). -/
  mem : Memory E.Cx
  /-- The length latches (R61). -/
  lens : Latches
  /-- The diagnostic stream, oldest first (R204). -/
  diag : List DiagRecord
  /-- What the host does next, oldest first (log 9); the model's own. -/
  inbox : List (HostEvent E.Cx)
  /-- What the host's last read was answered, none where it was refused (log 11); the model's own. -/
  answer : Option (Datum E.Cx)
deriving DecidableEq, Repr

/-- Where a step of the model stops although the spec's machine cannot be there (log 15). -/
inductive Fault where
  /-- Raised by the sequencer's fetch when `UPC` is no index of the micro-program; R172 says it cannot arise. Safe. -/
  | upcOutsideMicroProgram
  /-- Raised by the sequencer's fetch when a micro-program word is `ILLEGAL`; R94 says none is. Safe. -/
  | illegalMicroWord
deriving DecidableEq, Repr

/-- What the model has no meaning for. -/
inductive Refusal where
  /-- Raised by `exec` for an instruction that has no meaning yet; no arm raises it. Safe. -/
  | notModelled (mnemonic : String)
deriving DecidableEq, Repr

/-- A bank whose contents are unspecified and have been so `epoch` times before. -/
def Bank.blank {α : Type} (epoch : Nat) : Bank α := { epoch := epoch, cells := [] }

/-- Every configuration register zero (R40, last column). -/
def CfgRegs.zero : CfgRegs :=
  { chanM := 0, partLen := 0, resampLen := 0, p := 0, q := 0, mul := 0, variant := 0, segCap := 0, outCap := 0 }

/-- Right after hardware reset (R50): `LIFE = UNCONFIGURED`, every control register zero, the contents of every space
and `RS` unspecified; the host has nothing in hand. -/
def State.resetOver (E : Env) : State E :=
  { life := .unconfigured, vok := false, faultCode := .none, faultInfo := 0, retval := 0, diagCtl := 0, diagLen := 0,
    diagDiv := 0, upc := 0, seg := 0, regs := CfgRegs.zero, inLen := 0, acc := E.freeAcc,
    rs := E.freeRState 0, rsEpoch := 0,
    mem := { coef := Bank.blank 0, hist := Bank.blank 0, inp := Bank.blank 0, olen := Bank.blank 0, out := Bank.blank 0,
             win := Bank.blank 0, wout := Bank.blank 0, fbuf := Bank.blank 0, sout := Bank.blank 0 },
    lens := { win := Bank.blank 0, wout := Bank.blank 0, fbuf := Bank.blank 0, sout := Bank.blank 0 },
    diag := [], inbox := [], answer := none }

/-- The machine right after hardware reset (R50). -/
def State.reset : State := State.resetOver Config.env

end Sys2Proof.Machine
end

