-- ==== Sys2Proof/Machine/Ops.lean ====
section
/-! DEFINITION. The named operations: elements of a bank, `MemRead` and `MemWrite` (R12), the canonical form of memory,
the recoverable failure `fail` (R203), the fatal fault `raise` (R208), and hardware reset (R50). -/

namespace Sys2Proof.Machine

variable {E : Env}

/-! ### Cells: a list of index and element, indices strictly rising -/

/-- The element listed at an index, if one is. -/
def cellGet {α : Type} : List (Nat × α) → Nat → Option α
  | [], _ => none
  | (b, v) :: rest, a => if b = a then some v else cellGet rest a

/-- List an element at an index, in place of what was listed there. -/
def cellSet {α : Type} : List (Nat × α) → Nat → α → List (Nat × α)
  | [], a, v => [(a, v)]
  | (b, w) :: rest, a, v =>
    if a < b then (a, v) :: (b, w) :: rest
    else if a = b then (a, v) :: rest
    else (b, w) :: cellSet rest a v

/-- Every index of the list lies above `lo`, where `lo` is given, and they rise strictly. -/
def cellsRiseFrom {α : Type} : Option Nat → List (Nat × α) → Bool
  | _, [] => true
  | none, (b, _) :: rest => cellsRiseFrom (some b) rest
  | some lo, (b, _) :: rest => decide (lo < b) && cellsRiseFrom (some b) rest

/-! ### Banks -/

/-- The canonical form of a bank: indices strictly rising. An unlisted element has no value of its own (its reading is
a free value, log 5), so no listed one can equal it. -/
def Bank.wf {α : Type} (b : Bank α) : Bool := cellsRiseFrom none b.cells

/-- The element at an index: what was written there, else the free value of this time (U1, log 5). -/
def Bank.read {α : Type} (free : Nat → Nat → α) (b : Bank α) (a : Nat) : α :=
  (cellGet b.cells a).getD (free b.epoch a)

/-- Replace one element. -/
def Bank.write {α : Type} (b : Bank α) (a : Nat) (v : α) : Bank α :=
  { b with cells := cellSet b.cells a v }

/-- `MemWrite(SPACE, a, n, v)` (R12): the sequence `vs` goes to the elements from `a` on. -/
def Bank.writeSeq {α : Type} : Bank α → Nat → List α → Bank α
  | b, _, [] => b
  | b, a, v :: vs => Bank.writeSeq (b.write a v) (a + 1) vs

/-- Several `MemWrite`s in order, each at its own index. -/
def Bank.writeRows {α : Type} (b : Bank α) (rows : List (Nat × List α)) : Bank α :=
  rows.foldl (fun b row => b.writeSeq row.1 row.2) b

/-- The contents become unspecified (R50): nothing is listed and the free values are new ones. -/
def Bank.forget {α : Type} (b : Bank α) : Bank α := Bank.blank (b.epoch + 1)

/-! ### Memory -/

/-- The bank of a sample space. -/
def Memory.bank {α : Type} (m : Memory α) : SampleSpace → Bank α
  | .coef => m.coef
  | .hist => m.hist
  | .inp => m.inp
  | .out => m.out
  | .win => m.win
  | .wout => m.wout
  | .fbuf => m.fbuf
  | .sout => m.sout

/-- Memory with another bank for one sample space. -/
def Memory.setBank {α : Type} (m : Memory α) (sp : SampleSpace) (b : Bank α) : Memory α :=
  match sp with
  | .coef => { m with coef := b }
  | .hist => { m with hist := b }
  | .inp => { m with inp := b }
  | .out => { m with out := b }
  | .win => { m with win := b }
  | .wout => { m with wout := b }
  | .fbuf => { m with fbuf := b }
  | .sout => { m with sout := b }

/-- The canonical form of memory: that of each of its nine banks. -/
def Memory.wf {α : Type} (m : Memory α) : Bool :=
  m.coef.wf && m.hist.wf && m.inp.wf && m.olen.wf && m.out.wf && m.win.wf && m.wout.wf && m.fbuf.wf && m.sout.wf

/-- The same of the length latches. -/
def Latches.wf (l : Latches) : Bool := l.win.wf && l.wout.wf && l.fbuf.wf && l.sout.wf

/-- The contents of every space become unspecified (R50 hardware reset, R192). -/
def Memory.forgetAll {α : Type} (m : Memory α) : Memory α :=
  { coef := m.coef.forget, hist := m.hist.forget, inp := m.inp.forget, olen := m.olen.forget, out := m.out.forget,
    win := m.win.forget, wout := m.wout.forget, fbuf := m.fbuf.forget, sout := m.sout.forget }

/-- The length latches go with the contents of their buffers (log 8). -/
def Latches.forgetAll (l : Latches) : Latches :=
  { win := l.win.forget, wout := l.wout.forget, fbuf := l.fbuf.forget, sout := l.sout.forget }

/-- Another bank for one sample space. -/
def State.setBank (s : State E) (sp : SampleSpace) (b : Bank E.Cx) : State E := { s with mem := s.mem.setBank sp b }

/-- One element of a sample space (R65). -/
def State.sample (s : State E) (sp : SampleSpace) (a : Nat) : E.Cx :=
  (s.mem.bank sp).read (E.freeSample sp) a

/-- `MemRead(SPACE, a, n)` (R12). -/
def State.samples (s : State E) (sp : SampleSpace) (a n : Nat) : List E.Cx :=
  (List.range n).map fun k => s.sample sp (a + k)

/-- `MemWrite(SPACE, a, n, v)` (R12) into a sample space. -/
def State.store (s : State E) (sp : SampleSpace) (a : Nat) (vs : List E.Cx) : State E :=
  s.setBank sp ((s.mem.bank sp).writeSeq a vs)

/-- Several of them in order. -/
def State.storeRows (s : State E) (sp : SampleSpace) (rows : List (Nat × List E.Cx)) : State E :=
  s.setBank sp ((s.mem.bank sp).writeRows rows)

/-- Other length latches. -/
def State.setLens (s : State E) (l : Latches) : State E := { s with lens := l }

/-- Another accumulator (R39). -/
def State.setAcc (s : State E) (z : E.Cx) : State E := { s with acc := z }

/-- The Resampler's new state and the return code it gave (R176). -/
def State.setResult (s : State E) (rs : E.RState) (retval : Word) : State E := { s with rs := rs, retval := retval }

/-- `OLEN[c]` (R29, R42). -/
def State.olen (s : State E) (c : Nat) : Len := s.mem.olen.read Config.freeLen c

/-! ### The micro-program counter -/

/-- `upc <- upc + 1`, implied where a rule does not write `upc` (R12, R35). -/
def State.advance (s : State E) : State E := { s with upc := s.upc + 1 }

/-! ### Failure and fault -/

/-- Entry of a recoverable failure (R203): `fail(-1, (bound, length, divisor))`, done by VALIDATE only; `retUpc` is
`5*M + 5`, the index of RET. -/
def State.failLength (s : State E) (b : Bound) (length divisor retUpc : Nat) : State E :=
  { s with
    vok := false
    diagCtl := match b with
      | .input => 1
      | .output => 3
    diagLen := BitVec.ofNat 32 length
    diagDiv := BitVec.ofNat 32 divisor
    diag := s.diag ++ [{ bound := b, length := length, divisor := divisor }]
    retval := 0xFFFFFFFF
    upc := BitVec.ofNat 32 retUpc }

/-- Entry of a fatal fault (R208): `raise <Fault>(info)`. In `LIFE = FAULT` the first fault is kept. There is no return
from it but `State.hardReset`. -/
def State.raiseFatal (s : State E) (code : FatalCode) (info : Word) : State E :=
  match s.life with
  | .fault => s
  | .unconfigured | .idle | .busy => { s with faultCode := code, faultInfo := info, life := .fault }

/-- Hardware reset (R50), the only way out of `LIFE = FAULT` (R208): every register as in `State.resetOver`, every content
unspecified anew. The host's coming accesses, the answer it holds and the stream it has been given are outside the
block and stay (log 12, log 18). -/
def State.hardReset (s : State E) : State E :=
  { State.resetOver E with
    rs := E.freeRState (s.rsEpoch + 1)
    rsEpoch := s.rsEpoch + 1
    mem := s.mem.forgetAll
    lens := s.lens.forgetAll
    diag := s.diag
    inbox := s.inbox
    answer := s.answer }

end Sys2Proof.Machine
end

