-- ==== Sys2Proof/Machine/Operands.lean ====
section
/-! DEFINITION. What the operations take as input besides their word: the configuration (R5, R41) and its
well-formedness (R6), the derived quantities M, L, N, S (R13), flat indices (R61) and the checks on them (R64, R93). -/

namespace Sys2Proof.Machine

variable {E : Env}

/-- `CFG`: the nine configuration registers as naturals (R10, R41, R191). -/
def State.cfg (s : State E) : Cfg :=
  { chanM := s.regs.chanM.toNat
    partLen := s.regs.partLen.toNat
    resampLen := s.regs.resampLen.toNat
    p := s.regs.p.toNat
    q := s.regs.q.toNat
    mul := s.regs.mul.toNat
    variant := s.regs.variant.toNat
    segCap := s.regs.segCap.toNat
    outCap := s.regs.outCap.toNat }

/-- `2^31 - 1`, the bound of condition (5) of R6. -/
abbrev lengthMax : Nat := 2147483647

/-- Condition (1) of `WF_CFG` (R6); `OUT_CAP >= 0` holds of every natural. -/
def cfgPositive (c : Cfg) : Bool :=
  decide (1 ≤ c.chanM) && decide (1 ≤ c.partLen) && decide (1 ≤ c.p) && decide (1 ≤ c.q) && decide (1 ≤ c.mul) &&
    decide (1 ≤ c.segCap)

/-- Condition (5) of `WF_CFG` (R6). -/
def cfgBounded (c : Cfg) : Bool :=
  decide (c.q * c.mul ≤ lengthMax) && decide (c.p * c.mul ≤ lengthMax) && decide (c.chanM * c.segCap ≤ lengthMax) &&
    decide (c.chanM * c.partLen ≤ lengthMax) && decide (c.partLen + c.segCap ≤ lengthMax) &&
    decide (c.outCap ≤ lengthMax)

/-- The first condition of `WF_CFG` that fails, 1 to 5, if one does (R6, R191, R209). `VARIANT = 0` is RX (R40). -/
def cfgFailing (c : Cfg) : Option Nat :=
  if cfgPositive c = false then some 1
  else if c.variant ≠ 0 then some 2
  else if c.q * c.mul % c.chanM ≠ 0 then some 3
  else if 65536 < c.chanM then some 4
  else if cfgBounded c = false then some 5
  else none

/-- `WF_CFG(CFG)` (R6). -/
def cfgWellFormed (c : Cfg) : Bool := (cfgFailing c).isNone

/-- The segment length `S` latched in `SEG` (R13, R33). -/
def State.segLen (s : State E) : Nat := s.seg.toNat

/-- The length `N` of the input vector, `csr[IN_LEN]` (R13, R28). -/
def State.inputLen (s : State E) : Nat := s.inLen.toNat

/-- `5*M + 5`, the index of RET in the micro-program (R171, R172). -/
def retIndex (m : Nat) : Nat := 5 * m + 5

/-- Flat index of `WIN[i].hd[0]`, where the spliced view `w_i` begins (R24, R61). -/
def winRow (c : Cfg) (i : Nat) : Nat := i * (c.partLen + c.segCap)

/-- Flat index of `WIN[i].seg[0]` (R61). -/
def segRow (c : Cfg) (i : Nat) : Nat := winRow c i + c.partLen

/-- Flat index of `COEF[i][0]` and of `HIST[i][0]` (R61). -/
def tapRow (c : Cfg) (i : Nat) : Nat := i * c.partLen

/-- Flat index of `WOUT[i].dat[0]` and of `SOUT[i].dat[0]` (R61). -/
def bufRow (c : Cfg) (i : Nat) : Nat := i * c.segCap

/-- Flat index of `OUT[c].dat[0]` (R61). -/
def outRow (c : Cfg) (i : Nat) : Nat := i * c.outCap

/-- The spliced view `w_i[t]` of `WIN[i]` (R24). -/
def State.spliced (s : State E) (i t : Nat) : E.Cx := s.sample .win (winRow s.cfg i + t)

/-- `WIN[i].len` (R24). -/
def State.winLen (s : State E) (i : Nat) : Nat := s.lens.win.read (Config.freeLatch .win) i

/-- `WOUT[i].len` (R25). -/
def State.woutLen (s : State E) (i : Nat) : Nat := s.lens.wout.read (Config.freeLatch .wout) i

/-- `FBUF.len` (R26). -/
def State.fbufLen (s : State E) : Nat := s.lens.fbuf.read (Config.freeLatch .fbuf) 0

/-- `SOUT[c].len` (R27). -/
def State.soutLen (s : State E) (c : Nat) : Nat := s.lens.sout.read (Config.freeLatch .sout) c

/-- The index of the input sample that position `k` of channel `i`'s segment takes (R132): `k*M + (M - 1 - i)`. -/
def deintIndex (m i k : Nat) : Nat := k * m + (m - 1 - i)

/-- How many elements a sample space has (R60). -/
def sampleSpaceSize (c : Cfg) : SampleSpace → Nat
  | .coef => c.chanM * c.partLen
  | .hist => c.chanM * c.partLen
  | .inp => c.chanM * c.segCap
  | .out => c.chanM * c.outCap
  | .win => c.chanM * (c.partLen + c.segCap)
  | .wout => c.chanM * c.segCap
  | .fbuf => c.chanM * c.segCap
  | .sout => c.chanM * c.segCap

/-- The space id of R60, the information word of `F_ACCESS` (R207). -/
def sampleSpaceId : SampleSpace → Word
  | .coef => 1
  | .hist => 2
  | .inp => 3
  | .out => 5
  | .win => 6
  | .wout => 7
  | .fbuf => 8
  | .sout => 9

/-- The same for the spaces of words. -/
def wordSpaceId : WordSpace → Word
  | .csr => 0
  | .olen => 4

/-- `F_ACCESS` on a sample space: a host access (R66) or one of the sequencer's outside its space (U6, log 14). -/
def State.raiseAccess (s : State E) (sp : SampleSpace) : State E := s.raiseFatal .access (sampleSpaceId sp)

/-- The guard every `PB_*` operation begins with (R93, R130): `F_CHAN_RANGE(i)` when `i >= M`, and then nothing else;
`done` is the state the operation leaves otherwise. -/
def withChannel (i : Nat) (s done : State E) : State E :=
  if s.cfg.chanM ≤ i then s.raiseFatal .chanRange (BitVec.ofNat 32 i) else done

/-- The guard of a micro-operation that indexes a segment of `S` elements in a row of `SEG_CAP` (R64): `S <= SEG_CAP`,
which VALIDATE has established (R123), else the sequencer's `F_ACCESS` of U6 on the space it would leave (log 14). -/
def withSegment (sp : SampleSpace) (s done : State E) : State E :=
  if s.cfg.segCap < s.segLen then s.raiseAccess sp else done

end Sys2Proof.Machine
end

