-- ==== Sys2Proof/Machine/Flags.lean ====
section
/-! DEFINITION. The one condition flag and how it is computed (R34, R121), and the control registers as the host reads
them (R40). -/

namespace Sys2Proof.Machine

variable {E : Env}

/-- The input length test of the validator: `N mod (Q * mul) = 0` (R120, R121). -/
def inputAligned (c : Cfg) (n : Nat) : Bool := n % (c.q * c.mul) == 0

/-- The output length test of the validator: `O0 mod (P * mul) = 0` (R120, R121). -/
def outputAligned (c : Cfg) (o0 : Nat) : Bool := o0 % (c.p * c.mul) == 0

/-- The boolean the length validator returns, which `VOK` latches (R34). -/
def lengthsValid (c : Cfg) (n o0 : Nat) : Bool := inputAligned c n && outputAligned c o0

/-- `STATUS[1:0]` (R21). -/
def lifeBits : Life → BitVec 2
  | .unconfigured => 0
  | .idle => 1
  | .busy => 2
  | .fault => 3

/-- `STATUS[7:4]` (R207). -/
def fatalBits : FatalCode → BitVec 4
  | .none => 0
  | .cfg => 1
  | .illegal => 2
  | .state => 3
  | .reentry => 4
  | .chanRange => 5
  | .capacity => 6
  | .access => 7
  | .retRange => 8

/-- `csr[STATUS]` (R40): LIFE in `[1:0]`, VOK in `[2]`, `[3]` zero, FAULT_CODE in `[7:4]`, the rest zero. -/
def State.statusWord (s : State E) : Word :=
  (0 : BitVec 24) ++ fatalBits s.faultCode ++ (0 : BitVec 1) ++ BitVec.ofBool s.vok ++ lifeBits s.life

/-- `csr[NAME]` by register number (R40); `CMD` and the reserved numbers 0x13 to 0xFF read as zero. -/
def State.csrRead (s : State E) (n : Nat) : Word :=
  match n with
  | 0x00 => s.statusWord
  | 0x01 => s.retval
  | 0x02 => s.diagCtl.setWidth 32
  | 0x03 => s.diagLen
  | 0x04 => s.diagDiv
  | 0x05 => s.faultInfo
  | 0x06 => s.upc
  | 0x07 => s.seg
  | 0x08 => s.regs.chanM
  | 0x09 => s.regs.partLen
  | 0x0A => s.regs.resampLen
  | 0x0B => s.regs.p
  | 0x0C => s.regs.q
  | 0x0D => s.regs.mul
  | 0x0E => s.regs.variant
  | 0x0F => s.regs.segCap
  | 0x10 => s.regs.outCap
  | 0x11 => s.inLen.setWidth 32
  | _ => 0

/-- The return code as the host reads it: `sext(csr[RETVAL])` (R36, R179). -/
def State.returnCode (s : State E) : Int := s.retval.toInt

/-- The configuration registers after a write of one, by register number (R40, R41); `none` where the number names no
configuration register. -/
def cfgRegsWrite (r : CfgRegs) (n : Nat) (v : Word) : Option CfgRegs :=
  match n with
  | 0x08 => some { r with chanM := v }
  | 0x09 => some { r with partLen := v }
  | 0x0A => some { r with resampLen := v }
  | 0x0B => some { r with p := v }
  | 0x0C => some { r with q := v }
  | 0x0D => some { r with mul := v }
  | 0x0E => some { r with variant := v }
  | 0x0F => some { r with segCap := v }
  | 0x10 => some { r with outCap := v }
  | _ => none

end Sys2Proof.Machine
end

