-- ==== Sys2Proof/Machine/Lifecycle.lean ====
section
/-! DEFINITION. The life-cycle commands NOP, CONSTRUCT and DESTROY (44_lifecycle.md, R190 to R193). -/

namespace Sys2Proof.Machine

variable {E : Env}

/-- A host command that runs in `IDLE` only (R193: ROTATE, DESTROY): elsewhere `F_STATE`, `F_REENTRY`, or ignored;
`done` is the state it leaves in `IDLE`. -/
def whenIdle (w : Word) (s done : State E) : State E :=
  match s.life with
  | .unconfigured => s.raiseFatal .state w
  | .busy => s.raiseFatal .reentry w
  | .fault => s
  | .idle => done

/-- NOP (R190). -/
def nop (s : State E) : State E :=
  match s.life with
  | .unconfigured | .idle | .fault => s
  | .busy => s.raiseFatal .reentry 0

/-- The length latches of a buffer that is made anew with `n` rows, every length zero (R191). -/
def zeroLengths (b : Bank Nat) (n : Nat) : Bank Nat := b.forget.writeSeq 0 (List.replicate n 0)

/-- What CONSTRUCT writes once the configuration is well-formed (R191, R50): zero history, zero lengths, `RS0`, zero
report and sequencer registers, `LIFE = IDLE`. `COEF` stays; the other spaces hold unspecified contents (R50, log 17). -/
def construction (s : State E) : State E :=
  { s with
    mem := { s.mem with
      hist := s.mem.hist.writeSeq 0 (List.replicate (s.cfg.chanM * s.cfg.partLen) E.num.czero)
      inp := s.mem.inp.forget
      olen := s.mem.olen.forget
      out := s.mem.out.forget
      win := s.mem.win.forget
      wout := s.mem.wout.forget
      fbuf := s.mem.fbuf.forget
      sout := s.mem.sout.forget }
    lens := { win := zeroLengths s.lens.win s.cfg.chanM, wout := zeroLengths s.lens.wout s.cfg.chanM,
              fbuf := zeroLengths s.lens.fbuf 1, sout := zeroLengths s.lens.sout s.cfg.chanM }
    rs := E.rs0
    inLen := 0
    retval := 0
    diagCtl := 0
    diagLen := 0
    diagDiv := 0
    vok := false
    seg := 0
    upc := 0
    life := .idle }

/-- CONSTRUCT (R191): in `UNCONFIGURED`, `F_CFG(n)` for the first failing condition of `WF_CFG`, else the instance. -/
def construct (s : State E) : State E :=
  match s.life with
  | .idle => s.raiseFatal .state 0x01000000
  | .busy => s.raiseFatal .reentry 0x01000000
  | .fault => s
  | .unconfigured =>
    match cfgFailing s.cfg with
    | some n => s.raiseFatal .cfg (BitVec.ofNat 32 n)
    | none => construction s

/-- What DESTROY writes (R192): `LIFE = UNCONFIGURED`, registers 0x00 to 0x07 and 0x11 zero, every content and `RS`
unspecified; the configuration registers keep their values. -/
def destruction (s : State E) : State E :=
  { s with
    life := .unconfigured
    vok := false
    faultCode := .none
    faultInfo := 0
    retval := 0
    diagCtl := 0
    diagLen := 0
    diagDiv := 0
    upc := 0
    seg := 0
    inLen := 0
    mem := s.mem.forgetAll
    lens := s.lens.forgetAll
    rs := E.freeRState (s.rsEpoch + 1)
    rsEpoch := s.rsEpoch + 1 }

/-- DESTROY (R192). -/
def destroy (s : State E) : State E := whenIdle 0x03000000 s (destruction s)

/-- The meaning of NOP (R190). -/
def execNop (s : State) : Host.Outcome State Fault Refusal := .next (nop s)

/-- The meaning of CONSTRUCT (R191). -/
def execConstruct (s : State) : Host.Outcome State Fault Refusal := .next (construct s)

/-- The meaning of DESTROY (R192). -/
def execDestroy (s : State) : Host.Outcome State Fault Refusal := .next (destroy s)

end Sys2Proof.Machine
end

