-- ==== Sys2Proof/Machine/PartitionBank.lean ====
section
/-! DEFINITION. The partition bank: PB_RESET, PB_DEINT, PB_SPLICE, PB_CONV, PB_HUPD (41_partition_bank.md, R130 to
R135), each over the parameters of the step relation. -/

namespace Sys2Proof.Machine

variable {E : Env}

/-- PB_RESET i (R131): both lengths become `S`, `w_i` and the first `S` elements of `WOUT[i]` become `czero`. -/
def pbReset (i : Nat) (s : State E) : State E :=
  withChannel i s <| withSegment .win s <|
    (((s.store .win (winRow s.cfg i) (List.replicate (s.cfg.partLen + s.segLen) E.num.czero)).store .wout
        (bufRow s.cfg i) (List.replicate s.segLen E.num.czero)).setLens
      { s.lens with win := s.lens.win.write i s.segLen, wout := s.lens.wout.write i s.segLen }).advance

/-- The segment channel `i` takes from the input vector (R132): reverse channel order, time order kept. -/
def deinterleaved (s : State E) (i : Nat) : List E.Cx :=
  (List.range s.segLen).map fun k => s.sample .inp (deintIndex s.cfg.chanM i k)

/-- PB_DEINT i (R132). -/
def pbDeint (i : Nat) (s : State E) : State E :=
  withChannel i s <| withSegment .inp s <|
    (s.store .win (segRow s.cfg i) (deinterleaved s i)).advance

/-- PB_SPLICE i (R133): the history row goes in front of the segment. -/
def pbSplice (i : Nat) (s : State E) : State E :=
  withChannel i s <|
    (s.store .win (winRow s.cfg i) (s.samples .hist (tapRow s.cfg i) s.cfg.partLen)).advance

/-- One output sample (R134, D4): `sum_{k = 0 .. L-1} h k * w (n+1+k)`, folded in ascending `k` from `czero`, the
coefficient the left operand. -/
def convSum (num : NumDomain) (h w : Nat → num.Cx) (taps n : Nat) : num.Cx :=
  (List.range taps).foldl (fun acc k => num.cadd acc (num.cmul (h k) (w (n + 1 + k)))) num.czero

/-- The output segment of channel `i` (R134). -/
def convolved (s : State E) (i : Nat) : List E.Cx :=
  (List.range s.segLen).map
    (convSum E.num (fun k => s.sample .coef (tapRow s.cfg i + k)) (s.spliced i) s.cfg.partLen)

/-- PB_CONV i (R134). `ACC` holds the last output sample's sum afterwards, and is untouched where there is none (log 13). -/
def pbConv (i : Nat) (s : State E) : State E :=
  withChannel i s <| withSegment .win s <|
    ((s.store .wout (bufRow s.cfg i) (convolved s i)).setAcc ((convolved s i).getLast?.getD s.acc)).advance

/-- PB_HUPD i (R135): the last `L` samples of the spliced buffer become the history row. -/
def pbHupd (i : Nat) (s : State E) : State E :=
  withChannel i s <| withSegment .win s <|
    (s.store .hist (tapRow s.cfg i) (s.samples .win (winRow s.cfg i + s.segLen) s.cfg.partLen)).advance

/-- The meaning of PB_RESET (R131). -/
def execPbReset (ch : Nat) (s : State) : Host.Outcome State Fault Refusal := .next (pbReset ch s)

/-- The meaning of PB_DEINT (R132). -/
def execPbDeint (ch : Nat) (s : State) : Host.Outcome State Fault Refusal := .next (pbDeint ch s)

/-- The meaning of PB_SPLICE (R133). -/
def execPbSplice (ch : Nat) (s : State) : Host.Outcome State Fault Refusal := .next (pbSplice ch s)

/-- The meaning of PB_CONV (R134). -/
def execPbConv (ch : Nat) (s : State) : Host.Outcome State Fault Refusal := .next (pbConv ch s)

/-- The meaning of PB_HUPD (R135). -/
def execPbHupd (ch : Nat) (s : State) : Host.Outcome State Fault Refusal := .next (pbHupd ch s)

end Sys2Proof.Machine
end

