-- ==== Sys2Proof/Machine/Rotate.lean ====
section
/-! DEFINITION. Orchestration: ROTATE, RESAMP, RET (43_rotate.md, R170, R176, R178). -/

namespace Sys2Proof.Machine

variable {E : Env}

/-- ROTATE as issued (R170): the micro-program starts at index 0; its entries are steps of the sequencer (log 10). -/
def rotate (s : State E) : State E := whenIdle 0x02000000 s { s with life := .busy, upc := 0 }

/-- What a call of the Resampler gives back (R176): `rows` holds the new contents of each `OUT[c]` with its flat index. -/
structure ResampleAnswer (E : Env) where
  rs : E.RState
  rows : List (Nat × List E.Cx)
  result : Int

/-- The call of the Resampler (R9, R176): the spectral vectors, the output lengths and the old output contents go in;
row `c` of the answer has length `OLEN[c]` (R9). -/
def resampleCall (s : State E) : ResampleAnswer E :=
  let r := E.resampler s.cfg s.rs (fun c => s.samples .sout (bufRow s.cfg c.val) s.segLen)
    (fun c => (s.olen c.val).toNat) (fun c k => s.sample .out (outRow s.cfg c.val + k.val))
  { rs := r.1, rows := List.ofFn fun c => (outRow s.cfg c.val, List.ofFn (r.2.1 c)), result := r.2.2 }

/-- The result fits the 32-bit two's complement register (R36, R176). -/
def fitsReturn (r : Int) : Bool := decide (-2147483648 ≤ r) && decide (r ≤ 2147483647)

/-- What RESAMP does with the answer (R176): the range test comes before any write (C12). -/
def resampleStore (s : State E) (a : ResampleAnswer E) : State E :=
  if fitsReturn a.result = false then s.raiseFatal .retRange (BitVec.ofInt 32 a.result)
  else
    ((s.storeRows .out a.rows).setResult a.rs (BitVec.ofInt 32 a.result)).advance

/-- RESAMP (R176). Every `OLEN[c]` is within `OUT_CAP` by VALIDATE (R123), else the `F_ACCESS` of U6 (log 14). -/
def resamp (s : State E) : State E :=
  withSegment .sout s <|
    if (List.range s.cfg.chanM).any fun c => decide (s.cfg.outCap < (s.olen c).toNat) then s.raiseAccess .out
    else resampleStore s (resampleCall s)

/-- RET (R178): `LIFE` returns to IDLE and nothing else changes. DESIGN CHOICE (log 28), unsafe: `WIN`, `WOUT`, `FBUF` and
`SOUT` keep what the ROTATE left in them, where U2 calls their contents between ROTATEs `any value`. -/
def ret (s : State E) : State E := { s with life := .idle }

/-- The meaning of ROTATE (R170). -/
def execRotate (s : State) : Host.Outcome State Fault Refusal := .next (rotate s)

/-- The meaning of RESAMP (R176). -/
def execResamp (s : State) : Host.Outcome State Fault Refusal := .next (resamp s)

/-- The meaning of RET (R178). -/
def execRet (s : State) : Host.Outcome State Fault Refusal := .next (ret s)

end Sys2Proof.Machine
end

