-- ==== Sys2Proof/Machine/Spectral.lean ====
section
/-! DEFINITION. The spectral stage: SS_ILV, SS_FFT, SS_DLV (42_spectral_stage.md, R150 to R153). -/

namespace Sys2Proof.Machine

variable {E : Env}

/-- The flat sequence SS_ILV writes (R151): group `k` holds sample `k` of every channel, channels in natural order. -/
def interleaved (s : State E) : List E.Cx :=
  (List.range s.segLen).flatMap fun k => (List.range s.cfg.chanM).map fun c => s.sample .wout (bufRow s.cfg c + k)

/-- SS_ILV (R151). -/
def ssIlv (s : State E) : State E :=
  withSegment .wout s <|
    ((s.store .fbuf 0 (interleaved s)).setLens
      { s.lens with fbuf := s.lens.fbuf.write 0 (s.cfg.chanM * s.segLen) }).advance

/-- One call of the transform, in place on group `k` of `FBUF` (R152). -/
def transformGroup (m : Nat) (f : Bank E.Cx) (k : Nat) : Bank E.Cx :=
  f.writeSeq (k * m) (List.ofFn (E.fft m fun c => f.read (E.freeSample .fbuf) (k * m + c.val)))

/-- `FBUF` after the transform of its groups in ascending order (R152). -/
def transformed (s : State E) : Bank E.Cx :=
  (List.range s.segLen).foldl (transformGroup s.cfg.chanM) s.mem.fbuf

/-- SS_FFT (R152). -/
def ssFft (s : State E) : State E :=
  withSegment .fbuf s <| (s.setBank .fbuf (transformed s)).advance

/-- What SS_DLV gives channel `c` (R153): offset `c` of every group, forward channel order. -/
def deliveredRow (s : State E) (c : Nat) : List E.Cx :=
  (List.range s.segLen).map fun k => s.sample .fbuf (k * s.cfg.chanM + c)

/-- SS_DLV (R153). -/
def ssDlv (s : State E) : State E :=
  withSegment .fbuf s <|
    ((s.storeRows .sout ((List.range s.cfg.chanM).map fun c => (bufRow s.cfg c, deliveredRow s c))).setLens
      { s.lens with sout := s.lens.sout.writeSeq 0 (List.replicate s.cfg.chanM s.segLen) }).advance

/-- The meaning of SS_ILV (R151). -/
def execSsIlv (s : State) : Host.Outcome State Fault Refusal := .next (ssIlv s)

/-- The meaning of SS_FFT (R152). -/
def execSsFft (s : State) : Host.Outcome State Fault Refusal := .next (ssFft s)

/-- The meaning of SS_DLV (R153). -/
def execSsDlv (s : State) : Host.Outcome State Fault Refusal := .next (ssDlv s)

end Sys2Proof.Machine
end

