-- ==== Sys2Proof/Machine/Validator.lean ====
section
/-! DEFINITION. The length validator VALIDATE (40_validator.md, R120 to R123). -/

namespace Sys2Proof.Machine

variable {E : Env}

/-- The first output length, lowest channel first, that exceeds `OUT_CAP` (R122, R209). -/
def firstOverlong (s : State E) : Option Len :=
  ((List.range s.cfg.chanM).map s.olen).find? fun l => decide (s.cfg.outCap < l.toNat)

/-- VALIDATE (R121, R122): input length test, output length test, capacity of the input, capacity of the outputs, in
that order (R209); only where all four pass is the segment length latched. -/
def validate (s : State E) : State E :=
  if inputAligned s.cfg s.inputLen = false then
    s.failLength .input s.inputLen (s.cfg.q * s.cfg.mul) (retIndex s.cfg.chanM)
  else if outputAligned s.cfg (s.olen 0).toNat = false then
    s.failLength .output (s.olen 0).toNat (s.cfg.p * s.cfg.mul) (retIndex s.cfg.chanM)
  else if s.cfg.chanM * s.cfg.segCap < s.inputLen then s.raiseFatal .capacity (BitVec.ofNat 32 s.inputLen)
  else
    match firstOverlong s with
    | some l => s.raiseFatal .capacity (l.setWidth 32)
    | none => { s with vok := true, diagCtl := 0, seg := BitVec.ofNat 32 (s.inputLen / s.cfg.chanM) }.advance

/-- The meaning of VALIDATE (R121). -/
def execValidate (s : State) : Host.Outcome State Fault Refusal := .next (validate s)

end Sys2Proof.Machine
end

