-- ==== Sys2Proof/Machine/Dispatch.lean ====
section
/-! DEFINITION. One arm per operation of R92. -/

namespace Sys2Proof.Machine

def exec (i : Instr) (s : State) : Host.Outcome State Fault Refusal :=
  match i with
  | .nop => Sys2Proof.Machine.execNop s
  | .construct => Sys2Proof.Machine.execConstruct s
  | .rotate => Sys2Proof.Machine.execRotate s
  | .destroy => Sys2Proof.Machine.execDestroy s
  | .validate => Sys2Proof.Machine.execValidate s
  | .pbReset ch => Sys2Proof.Machine.execPbReset ch s
  | .pbDeint ch => Sys2Proof.Machine.execPbDeint ch s
  | .pbSplice ch => Sys2Proof.Machine.execPbSplice ch s
  | .pbConv ch => Sys2Proof.Machine.execPbConv ch s
  | .pbHupd ch => Sys2Proof.Machine.execPbHupd ch s
  | .ssIlv => Sys2Proof.Machine.execSsIlv s
  | .ssFft => Sys2Proof.Machine.execSsFft s
  | .ssDlv => Sys2Proof.Machine.execSsDlv s
  | .resamp => Sys2Proof.Machine.execResamp s
  | .ret => Sys2Proof.Machine.execRet s

end Sys2Proof.Machine
end

