-- ==== Sys2Proof/WellFormed.lean ====
section
/-! DEFINITION. When a term of `Instr` is an operation a word can spell: its channel fits the field `w[15:0]` (R91, R93). -/

namespace Sys2Proof

/-- The channel operand lies in `0 .. 65535` (R93); an operation without one is always well-formed. -/
def Instr.wellFormed (i : Instr) : Bool :=
  match i.channel? with
  | some ch => decide (ch < 65536)
  | none => true

end Sys2Proof
end

