-- ==== Sys2Proof/Decode.lean ====
section
/-! DEFINITION. The operation word: its fields (R91), the decoder, total on all 2^32 words (R90, R94), the encoder, and
the table of R92 as it is printed. -/

namespace Sys2Proof

/-- `opc = w[31:24] = cls ++ fn` (R91). -/
def opcodeField (w : Word) : BitVec 8 := w.extractLsb' 24 8

/-- `rsv = w[23:16]`, which must be zero (R91). -/
def reservedField (w : Word) : BitVec 8 := w.extractLsb' 16 8

/-- `ch = w[15:0]`, the channel operand (R91, R93). -/
def channelField (w : Word) : BitVec 16 := w.extractLsb' 0 16

/-- Why a word is `ILLEGAL`: the three cases of R94. -/
inductive IllegalWhy where
  /-- Its opcode is not one of the fifteen. -/
  | unlistedOpcode
  /-- Its `rsv` field is not zero. -/
  | reservedNotZero
  /-- Its class is not 2 and its `ch` field is not zero. -/
  | channelNotZero
deriving DecidableEq, Repr

/-- What a word decodes to: one of the fifteen operations, or `ILLEGAL` (R90, R94). -/
inductive Decoded where
  | op (i : Instr)
  | illegal (why : IllegalWhy)
deriving DecidableEq, Repr

/-- The operation of an opcode (R92), given the channel its word carries. -/
def operationOf (opc ch : Nat) : Option Instr :=
  match opc with
  | 0x00 => some .nop
  | 0x01 => some .construct
  | 0x02 => some .rotate
  | 0x03 => some .destroy
  | 0x10 => some .validate
  | 0x20 => some (.pbReset ch)
  | 0x21 => some (.pbDeint ch)
  | 0x22 => some (.pbSplice ch)
  | 0x23 => some (.pbConv ch)
  | 0x24 => some (.pbHupd ch)
  | 0x30 => some .ssIlv
  | 0x31 => some .ssFft
  | 0x32 => some .ssDlv
  | 0x40 => some .resamp
  | 0x41 => some .ret
  | _ => none

/-- The decoder (R90, R94): every word is one of the fifteen operations or `ILLEGAL`. -/
def decode (w : Word) : Decoded :=
  match operationOf (opcodeField w).toNat (channelField w).toNat with
  | none => .illegal .unlistedOpcode
  | some i =>
    if reservedField w ≠ 0 then .illegal .reservedNotZero
    else if i.channel? = none ∧ channelField w ≠ 0 then .illegal .channelNotZero
    else .op i

/-- The opcode of an operation (R92). -/
def opcodeOf : Instr → BitVec 8
  | .nop => 0x00
  | .construct => 0x01
  | .rotate => 0x02
  | .destroy => 0x03
  | .validate => 0x10
  | .pbReset _ => 0x20
  | .pbDeint _ => 0x21
  | .pbSplice _ => 0x22
  | .pbConv _ => 0x23
  | .pbHupd _ => 0x24
  | .ssIlv => 0x30
  | .ssFft => 0x31
  | .ssDlv => 0x32
  | .resamp => 0x40
  | .ret => 0x41

/-- The word that spells an operation: format `W` (R91), `rsv` zero, `ch` zero where the operation has no channel. -/
def encode (i : Instr) : Word :=
  opcodeOf i ++ (0 : BitVec 8) ++ BitVec.ofNat 16 (i.channel?.getD 0)

/-- The mnemonic of an operation (R92). -/
def mnemonicOf : Instr → String
  | .nop => "NOP"
  | .construct => "CONSTRUCT"
  | .rotate => "ROTATE"
  | .destroy => "DESTROY"
  | .validate => "VALIDATE"
  | .pbReset _ => "PB_RESET"
  | .pbDeint _ => "PB_DEINT"
  | .pbSplice _ => "PB_SPLICE"
  | .pbConv _ => "PB_CONV"
  | .pbHupd _ => "PB_HUPD"
  | .ssIlv => "SS_ILV"
  | .ssFft => "SS_FFT"
  | .ssDlv => "SS_DLV"
  | .resamp => "RESAMP"
  | .ret => "RET"

/-- An operation as a line of the notation of R97: its mnemonic, then one space and the channel in decimal. -/
def lineOf (i : Instr) : String :=
  match i.channel? with
  | some ch => mnemonicOf i ++ " " ++ toString ch
  | none => mnemonicOf i

/-- One row of the table of R92: `want` is its column `match`, and `op` gives the operation of a word of the row. -/
structure OpRow where
  want : Word
  mask : Word
  op : Nat → Instr

/-- The table of R92 as printed. -/
def opTable : List OpRow :=
  [ ⟨0x00000000, 0xFFFFFFFF, fun _ => .nop⟩,
    ⟨0x01000000, 0xFFFFFFFF, fun _ => .construct⟩,
    ⟨0x02000000, 0xFFFFFFFF, fun _ => .rotate⟩,
    ⟨0x03000000, 0xFFFFFFFF, fun _ => .destroy⟩,
    ⟨0x10000000, 0xFFFFFFFF, fun _ => .validate⟩,
    ⟨0x20000000, 0xFFFF0000, fun ch => .pbReset ch⟩,
    ⟨0x21000000, 0xFFFF0000, fun ch => .pbDeint ch⟩,
    ⟨0x22000000, 0xFFFF0000, fun ch => .pbSplice ch⟩,
    ⟨0x23000000, 0xFFFF0000, fun ch => .pbConv ch⟩,
    ⟨0x24000000, 0xFFFF0000, fun ch => .pbHupd ch⟩,
    ⟨0x30000000, 0xFFFFFFFF, fun _ => .ssIlv⟩,
    ⟨0x31000000, 0xFFFFFFFF, fun _ => .ssFft⟩,
    ⟨0x32000000, 0xFFFFFFFF, fun _ => .ssDlv⟩,
    ⟨0x40000000, 0xFFFFFFFF, fun _ => .resamp⟩,
    ⟨0x41000000, 0xFFFFFFFF, fun _ => .ret⟩ ]

/-- A word a host bus carries as four bytes: the lowest address holds bits 7 to 0 (R62). -/
def wordOfBytes (b0 b1 b2 b3 : Byte) : Word := b3 ++ b2 ++ b1 ++ b0

/-- Decoding from a bus image: the first four bytes are one word and the rest is handed back; fewer are no word. -/
def decodeBytes : List Byte → Option (Decoded × List Byte)
  | b0 :: b1 :: b2 :: b3 :: rest => some (decode (wordOfBytes b0 b1 b2 b3), rest)
  | _ => none

/-- The instruction the decoder reads from a row of the table: `nbits` bits `w`, every higher bit of the word zero. -/
def decodeTableWord (nbits w : Nat) : Option Instr :=
  match decode (BitVec.ofNat 32 (w % 2 ^ nbits)) with
  | .op i => some i
  | .illegal _ => none

end Sys2Proof
end

