-- ==== Sys2Proof/Machine/HostPort.lean ====
section
/-! DEFINITION. The host's accesses and their rights by life-cycle state (R40, R66, R209, R215). -/

namespace Sys2Proof.Machine

variable {E : Env}

/-- What a host access or the sequencer has the step do: run an instruction from a state, be done with a state, or stop. -/
inductive Fetch (E : Env := Config.env) where
  | run (i : Instr) (s : State E)
  | done (s : State E)
  | stop (f : Fault)
deriving DecidableEq, Repr

/-- How many elements of a sample space the host may address (R60). Before CONSTRUCT the spec fixes no M and L; `COEF`
then ends where no well-formed configuration has an element (R6 condition 5, R60, log 16). -/
def hostSpaceSize (s : State E) (sp : SampleSpace) : Nat :=
  match sp, s.life with
  | .coef, .unconfigured => lengthMax
  | _, _ => sampleSpaceSize s.cfg sp

/-- The host may read a sample space (R66). -/
def mayReadSample : Life → SampleSpace → Bool
  | .unconfigured, .coef => true
  | .idle, .coef | .idle, .hist | .idle, .inp | .idle, .out => true
  | _, _ => false

/-- The host may write a sample space (R66). -/
def mayWriteSample : Life → SampleSpace → Bool
  | .unconfigured, .coef => true
  | .idle, .inp | .idle, .out => true
  | _, _ => false

/-- An access refused (R66, R207): `F_ACCESS` with the space id; a read gets no answer. -/
def refuseWord (s : State E) (sp : WordSpace) : State E := s.raiseFatal .access (wordSpaceId sp)

/-- A host read of a sample (R65, R66). -/
def hostReadSample (s : State E) (sp : SampleSpace) (a : Nat) : State E :=
  if mayReadSample s.life sp = true ∧ a < hostSpaceSize s sp then { s with answer := some (.sample (s.sample sp a)) }
  else { s.raiseAccess sp with answer := none }

/-- A host write of a sample (R65, R66). -/
def hostWriteSample (s : State E) (sp : SampleSpace) (a : Nat) (z : E.Cx) : State E :=
  if mayWriteSample s.life sp = true ∧ a < hostSpaceSize s sp then s.store sp a [z] else s.raiseAccess sp

/-- A host read of a word: any register of `CSR` in any state (R40, R66), an element of `OLEN` in IDLE. -/
def hostReadWord (s : State E) (sp : WordSpace) (a : Nat) : State E :=
  match sp with
  | .csr =>
    if a < 256 then { s with answer := some (.word (s.csrRead a)) } else { refuseWord s .csr with answer := none }
  | .olen =>
    if s.life = .idle ∧ a < s.cfg.chanM then { s with answer := some (.word ((s.olen a).setWidth 32)) }
    else { refuseWord s .olen with answer := none }

/-- A host write of a register other than `CMD` (R40, R66): the configuration registers in UNCONFIGURED, `IN_LEN` in
IDLE, no other; in FAULT every write is ignored, since the first fault is kept. -/
def hostWriteCsr (s : State E) (n : Nat) (v : Word) : State E :=
  match s.life with
  | .unconfigured =>
    match cfgRegsWrite s.regs n v with
    | some r => { s with regs := r }
    | none => refuseWord s .csr
  | .idle => if n = 0x11 then { s with inLen := v.setWidth 31 } else refuseWord s .csr
  | .busy => refuseWord s .csr
  | .fault => s

/-- A host write of an element of `OLEN` (R42, R66): bit 31 is ignored. -/
def hostWriteOlen (s : State E) (c : Nat) (v : Word) : State E :=
  if s.life = .idle ∧ c < s.cfg.chanM then
    { s with mem := { s.mem with olen := s.mem.olen.write c (v.setWidth 31) } }
  else refuseWord s .olen

/-- A word the host port refuses, illegal or of class 1 to 4 (R94, R95), by the order of R209. -/
def refuseCommand (s : State E) (w : Word) : State E :=
  match s.life with
  | .fault => s
  | .busy => s.raiseFatal .reentry w
  | .unconfigured | .idle => s.raiseFatal .illegal w

/-- A write of `csr[CMD]` issues a command (R90, R95, R209): a legal word of class 0 runs, and its own rule says what it
does in each life-cycle state (R193), BUSY and FAULT included. -/
def issueCommand (s : State E) (w : Word) : Fetch E :=
  match decode w with
  | .op i => if i.isHostCommand then .run i s else .done (refuseCommand s w)
  | .illegal _ => .done (refuseCommand s w)

/-- A host write of a word. -/
def hostWriteWord (s : State E) (sp : WordSpace) (a : Nat) (v : Word) : Fetch E :=
  match sp with
  | .csr => if a = 0x12 then issueCommand s v else .done (hostWriteCsr s a v)
  | .olen => .done (hostWriteOlen s a v)

/-! ### The directives of host programs (R97) -/

/-- `CSRW name, value`, the register by its number. -/
def csrw {Cx : Type} (n : Nat) (v : Word) : HostEvent Cx := .writeWord .csr n v

/-- `COEFW i, k, value`. -/
def coefw {Cx : Type} (c : Cfg) (i k : Nat) (z : Cx) : HostEvent Cx := .writeSample .coef (tapRow c i + k) z

/-- `INW q, value`. -/
def inw {Cx : Type} (q : Nat) (z : Cx) : HostEvent Cx := .writeSample .inp q z

/-- `OLENW c, value`. -/
def olenw {Cx : Type} (c : Nat) (v : Word) : HostEvent Cx := .writeWord .olen c v

/-- An operation in a host program: its word is written to `csr[CMD]` (R90, R97). -/
def command {Cx : Type} (i : Instr) : HostEvent Cx := csrw 0x12 (encode i)

end Sys2Proof.Machine
end

