-- ==== Sys2Proof/Machine/Sequencer.lean ====
section
/-! DEFINITION. The micro-program (R171), the sequencer's fetch (R35, R170, R172), and which agent a step belongs to. -/

namespace Sys2Proof.Machine

variable {E : Env}

/-- `UPROG(M, u)` (R171): the operation word at index `u`, for `0 <= u <= 5*M + 5`. -/
def uprog (m u : Nat) : Option Word :=
  if u = 0 then some 0x10000000
  else if u ≤ 5 * m then some (BitVec.ofNat 32 (0x20000000 + (u - 1) % 5 * 0x01000000 + (u - 1) / 5))
  else if u = 5 * m + 1 then some 0x30000000
  else if u = 5 * m + 2 then some 0x31000000
  else if u = 5 * m + 3 then some 0x32000000
  else if u = 5 * m + 4 then some 0x40000000
  else if u = 5 * m + 5 then some 0x41000000
  else none

/-- The sequencer's turn (R35, R170): in BUSY the micro-operation at `UPC`, decoded by the same decoder (R90); in every
other state it does nothing (R208, R219). -/
def sequencerTurn (s : State E) : Fetch E :=
  match s.life with
  | .busy =>
    match uprog s.cfg.chanM s.upc.toNat with
    | none => .stop .upcOutsideMicroProgram
    | some w =>
      match decode w with
      | .op i => .run i s
      | .illegal _ => .stop .illegalMicroWord
  | .unconfigured | .idle | .fault => .done s

/-- What the next step does (log 9, log 10): the host's next access if it has one, else the sequencer's turn. A host
that waits lets the sequencer run while `LIFE = BUSY` and is done waiting when it is not (R231 step 7). -/
def fetch (s : State E) : Fetch E :=
  match s.inbox with
  | [] => sequencerTurn s
  | .quiet :: rest => sequencerTurn { s with inbox := rest }
  | .await :: rest => if s.life = .busy then sequencerTurn s else .done { s with inbox := rest }
  | .readWord sp a :: rest => .done (hostReadWord { s with inbox := rest } sp a)
  | .writeWord sp a v :: rest => hostWriteWord { s with inbox := rest } sp a v
  | .readSample sp a :: rest => .done (hostReadSample { s with inbox := rest } sp a)
  | .writeSample sp a z :: rest => .done (hostWriteSample { s with inbox := rest } sp a z)
  | .hardReset :: rest => .done { s with inbox := rest }.hardReset

/-- The index of the micro-program at which an operation stands, for `M` channels (R171). -/
def indexOf (m : Nat) : Instr → Nat
  | .nop | .construct | .rotate | .destroy | .validate => 0
  | .pbReset i => 1 + 5 * i
  | .pbDeint i => 1 + 5 * i + 1
  | .pbSplice i => 1 + 5 * i + 2
  | .pbConv i => 1 + 5 * i + 3
  | .pbHupd i => 1 + 5 * i + 4
  | .ssIlv => 5 * m + 1
  | .ssFft => 5 * m + 2
  | .ssDlv => 5 * m + 3
  | .resamp => 5 * m + 4
  | .ret => 5 * m + 5

/-- `CHANM` as an operation needs it to stand in the micro-program: kept where `M` is legal and has that channel. -/
def channelsFor (m : Word) (i : Instr) : Word :=
  if i.channel?.getD 0 < m.toNat ∧ m.toNat ≤ 65536 then m else BitVec.ofNat 32 (i.channel?.getD 0 + 1)

/-- A state whose very next step runs the word (log 19): a host command, and any word the decoder rejects, is the
host's next write of `csr[CMD]`; a micro-operation is the entry of the running micro-program that `UPC` names. -/
def placeWord (s : State E) (w : Word) : State E :=
  let command : State E := { s with inbox := .writeWord .csr 0x12 w :: s.inbox }
  match decode w with
  | .illegal _ => command
  | .op i =>
    if i.isHostCommand then command
    else
      let m := channelsFor s.regs.chanM i
      { s with life := .busy, regs := { s.regs with chanM := m }, upc := BitVec.ofNat 32 (indexOf m.toNat i),
               inbox := .quiet :: s.inbox }

end Sys2Proof.Machine
end

