-- ==== Sys2Proof/Machine/Step.lean ====
section
/-! DEFINITION. One step: what `fetch` says, an instruction by `exec`. -/

namespace Sys2Proof.Machine

/-- One step of the block with its host (R68, R170). -/
def step (s : State) : Host.Outcome State Fault Refusal :=
  match fetch s with
  | .run i t => exec i t
  | .done t => .next t
  | .stop f => .fault f

/-- `s` with an instruction, given as the table numbers its bits, placed where the next step takes its own. -/
def State.withFetchWord (s : State) (nbits w : Nat) : State := placeWord s (BitVec.ofNat 32 (w % 2 ^ nbits))

end Sys2Proof.Machine
end

