-- ==== Sys2Proof/Machine/Numeric.lean ====
section
/-! DEFINITION. The instantiations the spec names of its open parameters: `NUM_EXACT`, `NUM_F32` (R7) and `FFT_REF` (R8).
The machine itself uses none of them: its `NUM` and `FFT` are the opaque constants of Config. -/

namespace Sys2Proof.Machine

/-! ### NUM_EXACT: Gaussian rationals -/

/-- A Gaussian rational `re + im*j`. -/
structure Gauss where
  re : Rat
  im : Rat
deriving DecidableEq, Repr, Inhabited

/-- `NUM_EXACT` (R7): exact addition and multiplication. -/
abbrev numExact : NumDomain :=
  { carrier := .of Gauss inferInstance inferInstance default
    czero := ⟨{ re := 0, im := 0 }⟩
    cadd := fun x y => ⟨{ re := x.raw.re + y.raw.re, im := x.raw.im + y.raw.im }⟩
    cmul := fun x y =>
      ⟨{ re := x.raw.re * y.raw.re - x.raw.im * y.raw.im, im := x.raw.re * y.raw.im + x.raw.im * y.raw.re }⟩ }

/-- The sample `a + bj` of `NUM_EXACT`. -/
def gauss (a b : Rat) : numExact.Cx := ⟨{ re := a, im := b }⟩

/-! ### NUM_F32: pairs of IEEE 754 binary32 values (G1) -/

/-- A binary32 value: its sign and, where finite, its magnitude in units of `2^-149`. -/
inductive F32Value where
  | nan
  | infinite (neg : Bool)
  | finite (neg : Bool) (units : Nat)
deriving DecidableEq, Repr

/-- The value of a binary32 pattern. -/
def f32Unpack (b : BitVec 32) : F32Value :=
  let expField := (b.extractLsb' 23 8).toNat
  let frac := (b.extractLsb' 0 23).toNat
  if expField = 255 then if frac = 0 then .infinite b.msb else .nan
  else if expField = 0 then .finite b.msb frac
  else .finite b.msb ((2 ^ 23 + frac) * 2 ^ (expField - 1))

/-- The sign bit in place. -/
def f32Sign (neg : Bool) : Nat := if neg then 2 ^ 31 else 0

/-- The pattern of a magnitude in units of `2^-149` that has at most 24 significant bits; infinity beyond the range. -/
def f32Pack (neg : Bool) (units : Nat) : BitVec 32 :=
  if units < 2 ^ 23 then BitVec.ofNat 32 (f32Sign neg + units)
  else
    let e := Nat.log2 units - 23
    if 254 < e + 1 then BitVec.ofNat 32 (f32Sign neg + 255 * 2 ^ 23)
    else BitVec.ofNat 32 (f32Sign neg + (e + 1) * 2 ^ 23 + (units / 2 ^ e - 2 ^ 23))

/-- Round `mag * 2^-(149 + extra)` to nearest, ties to even. -/
def f32Round (neg : Bool) (mag extra : Nat) : BitVec 32 :=
  let cut := max (Nat.log2 mag + 1 - 24) extra
  let kept := mag / 2 ^ cut
  let twiceLost := 2 * (mag % 2 ^ cut)
  let up := decide (2 ^ cut < twiceLost) || (twiceLost == 2 ^ cut && kept % 2 == 1)
  f32Pack neg ((if up then kept + 1 else kept) * 2 ^ (cut - extra))

/-- The NaN every invalid operation gives. PRESUMED (log 22), safe: no rule depends on `NUM_F32`. -/
def f32Nan : BitVec 32 := 0x7FC00000

/-- An infinity. -/
def f32Infinity (neg : Bool) : BitVec 32 := BitVec.ofNat 32 (f32Sign neg + 255 * 2 ^ 23)

/-- binary32 addition, round to nearest even. -/
def f32Add (x y : BitVec 32) : BitVec 32 :=
  match f32Unpack x, f32Unpack y with
  | .nan, _ | _, .nan => f32Nan
  | .infinite s, .infinite t => if s = t then f32Infinity s else f32Nan
  | .infinite s, .finite _ _ => f32Infinity s
  | .finite _ _, .infinite t => f32Infinity t
  | .finite s m, .finite t n =>
    if s = t then f32Round s (m + n) 0
    else if n = m then f32Round false 0 0
    else if n < m then f32Round s (m - n) 0
    else f32Round t (n - m) 0

/-- binary32 multiplication, round to nearest even. -/
def f32Mul (x y : BitVec 32) : BitVec 32 :=
  match f32Unpack x, f32Unpack y with
  | .nan, _ | _, .nan => f32Nan
  | .infinite s, .infinite t => f32Infinity (s != t)
  | .infinite s, .finite t n => if n = 0 then f32Nan else f32Infinity (s != t)
  | .finite s m, .infinite t => if m = 0 then f32Nan else f32Infinity (s != t)
  | .finite s m, .finite t n => f32Round (s != t) (m * n) 149

/-- binary32 subtraction: addition of the value with its sign turned. -/
def f32Sub (x y : BitVec 32) : BitVec 32 := f32Add x (y ^^^ 0x80000000)

/-- A pair of binary32 patterns. -/
structure F32Pair where
  re : BitVec 32
  im : BitVec 32
deriving DecidableEq, Repr, Inhabited

/-- `NUM_F32` (R7): `cmul((a,b),(c,d)) = (a*c - b*d, a*d + b*c)`, each operation rounded. PRESUMED (log 22), safe: both
zeros of `czero` are `+0`, whose sign R7 and G1 do not state (U8 leaves signed zero to `NUM`). -/
abbrev numF32 : NumDomain :=
  { carrier := .of F32Pair inferInstance inferInstance default
    czero := ⟨{ re := 0x00000000, im := 0x00000000 }⟩
    cadd := fun x y => ⟨{ re := f32Add x.raw.re y.raw.re, im := f32Add x.raw.im y.raw.im }⟩
    cmul := fun x y =>
      let (a, b, c, d) := (x.raw.re, x.raw.im, y.raw.re, y.raw.im)
      ⟨{ re := f32Sub (f32Mul a c) (f32Mul b d), im := f32Add (f32Mul a d) (f32Mul b c) }⟩ }

/-- The sample of `NUM_F32` whose components have the patterns given. -/
def f32Pair (re im : BitVec 32) : numF32.Cx := ⟨{ re := re, im := im }⟩

/-- The bytes of a 32-bit pattern, bits 7 to 0 first. -/
def bytesOfWord (w : BitVec 32) : List Byte :=
  [w.extractLsb' 0 8, w.extractLsb' 8 8, w.extractLsb' 16 8, w.extractLsb' 24 8]

/-- The byte image of a `NUM_F32` sample: real part first, then imaginary part, each little-endian (R62). -/
def f32Bytes (z : numF32.Cx) : List Byte := bytesOfWord z.raw.re ++ bytesOfWord z.raw.im

/-! ### FFT_REF: the unnormalised forward transform (G2) -/

/-- `FFT_REF(x)[b] = sum_{c = 0 .. M-1} x[c] * w^(b*c)`, `c` ascending, where `root M j` is `w^j` for
`w = exp(-2*pi*i/M)` (R8). -/
def fftRef (num : NumDomain) (root : Nat → Nat → num.Cx) : Transform num.Cx := fun M x b =>
  (List.finRange M).foldl (fun acc c => num.cadd acc (num.cmul (x c) (root M (b.val * c.val % M)))) num.czero

/-- `w^j` in `NUM_EXACT` for the sizes 1, 2 and 4, whose roots are Gaussian rationals; other sizes have none here
(log 21). -/
def exactRoot (M j : Nat) : numExact.Cx :=
  match M, j with
  | 2, 1 => gauss (-1) 0
  | 4, 1 => gauss 0 (-1)
  | 4, 2 => gauss (-1) 0
  | 4, 3 => gauss 0 1
  | _, _ => gauss 1 0

end Sys2Proof.Machine
end

