-- ==== Sys2Proof/Safety.lean ====
section
/-! DEFINITION. What claims about the machine are stated in: the invariant of a sound state, runs of operations, the
overlap-save filter on lists, ROTATE as one function (R174), and what the host can see (R52). -/

namespace Sys2Proof.Machine

variable {E : Env}

/-- An index inside the `n` elements from `base` on. -/
abbrev inRow (base n a : Nat) : Prop := base ≤ a ∧ a < base + n

/-- What VALIDATE guarantees to the operations after it (R123). -/
structure Validated (s : State E) : Prop where
  vok : s.vok = true
  noReport : s.diagCtl = 0
  segFits : s.segLen ≤ s.cfg.segCap
  inputLen : s.inputLen = s.cfg.chanM * s.segLen
  inputAligned : inputAligned s.cfg s.inputLen = true
  outputAligned : outputAligned s.cfg (s.olen 0).toNat = true
  outputsFit : ∀ c < s.cfg.chanM, (s.olen c).toNat ≤ s.cfg.outCap

/-- The bounds on the length latches (R31). -/
structure LatchesBounded (s : State E) : Prop where
  win : ∀ i < s.cfg.chanM, s.winLen i ≤ s.cfg.segCap
  wout : ∀ i < s.cfg.chanM, s.woutLen i ≤ s.cfg.segCap
  sout : ∀ i < s.cfg.chanM, s.soutLen i ≤ s.cfg.segCap
  fbuf : s.fbufLen ≤ s.cfg.chanM * s.cfg.segCap

/-- The invariant of the machine. -/
structure Sound (s : State E) : Prop where
  /-- Memory keeps its canonical form. -/
  memory : s.mem.wf = true
  /-- So do the length latches. -/
  latches : s.lens.wf = true
  /-- While an instance exists its configuration is well-formed (R6, R191). -/
  configured : s.life = .idle ∨ s.life = .busy → cfgWellFormed s.cfg = true
  /-- A fault is recorded exactly in `LIFE = FAULT`, and its information word is zero elsewhere (R38). -/
  faultRecorded : s.faultCode ≠ .none ↔ s.life = .fault
  faultInfoZero : s.life ≠ .fault → s.faultInfo = 0
  /-- In a ROTATE `UPC` is an index of the micro-program (R35). -/
  upcInRange : s.life = .busy → s.upc.toNat ≤ retIndex s.cfg.chanM
  /-- Between VALIDATE and RET of a ROTATE the validator has passed (R123, R172). -/
  validated : s.life = .busy → 1 ≤ s.upc.toNat → s.upc.toNat < retIndex s.cfg.chanM → Validated s
  /-- While an instance exists its latches are within the capacities (R31). -/
  bounded : s.life = .idle ∨ s.life = .busy → LatchesBounded s
  /-- A valid report stands only beside the validator's `-1` (R37). -/
  reported : s.life ≠ .fault → s.diagCtl.getLsbD 0 = true → s.vok = false ∧ s.retval = 0xFFFFFFFF

/-- Condition `n` of `WF_CFG`, 1 to 5 (R6). -/
def wfCondition (c : Cfg) : Nat → Prop
  | 1 => 1 ≤ c.chanM ∧ 1 ≤ c.partLen ∧ 1 ≤ c.p ∧ 1 ≤ c.q ∧ 1 ≤ c.mul ∧ 1 ≤ c.segCap
  | 2 => c.variant = 0
  | 3 => c.chanM ∣ c.q * c.mul
  | 4 => c.chanM ≤ 65536
  | 5 => c.q * c.mul ≤ 2 ^ 31 - 1 ∧ c.p * c.mul ≤ 2 ^ 31 - 1 ∧ c.chanM * c.segCap ≤ 2 ^ 31 - 1 ∧
      c.chanM * c.partLen ≤ 2 ^ 31 - 1 ∧ c.partLen + c.segCap ≤ 2 ^ 31 - 1 ∧ c.outCap ≤ 2 ^ 31 - 1
  | _ => True

/-- The state `raise` leaves outside `LIFE = FAULT` (R208): the fault recorded and nothing else written. -/
def State.faulted (s : State E) (code : FatalCode) (info : Word) : State E :=
  { s with faultCode := code, faultInfo := info, life := .fault }

/-- Operations in order, each from the state the one before it left; the first stop ends them. -/
def execAll : List Instr → State → Host.Outcome State Fault Refusal
  | [], s => .next s
  | i :: is, s =>
    match exec i s with
    | .next t => execAll is t
    | .fault f => .fault f
    | .refused r => .refused r

/-- So many steps in order; the first stop ends them. -/
def runSteps : Nat → State → Host.Outcome State Fault Refusal
  | 0, s => .next s
  | n + 1, s =>
    match step s with
    | .next t => runSteps n t
    | .fault f => .fault f
    | .refused r => .refused r

/-- `CHANNEL i` (R98). -/
def channelOps (i : Nat) : List Instr := [.pbReset i, .pbDeint i, .pbSplice i, .pbConv i, .pbHupd i]

/-- The five operations of the partition bank, each as a function of its channel (R130). -/
def bankOps : List (Nat → Instr) := [.pbReset, .pbDeint, .pbSplice, .pbConv, .pbHupd]

/-- `PBANK` (R98). -/
def pbankOps (m : Nat) : List Instr := (List.range m).flatMap channelOps

/-- `SPECTRAL` (R98). -/
def spectralOps : List Instr := [.ssIlv, .ssFft, .ssDlv]

/-- The overlap-save filter of one channel on lists (R134, R135): the output segment, and the new history. -/
def overlapSave (num : NumDomain) (coef : Nat → num.Cx) (taps : Nat) (hist seg : List num.Cx) :
    List num.Cx × List num.Cx :=
  let w := hist ++ seg
  ((List.range seg.length).map (convSum num coef (fun t => w.getD t num.czero) taps), w.drop seg.length)

/-- The segment channel `i` takes from `n` groups of the input vector (R174). -/
def segmentOf (s : State E) (n i : Nat) : List E.Cx :=
  (List.range n).map fun k => s.sample .inp (deintIndex s.cfg.chanM i k)

/-- Channel `i`'s filter applied to its history and a segment of `n` samples (R174). -/
def channelFilter (s : State E) (n i : Nat) : List E.Cx × List E.Cx :=
  overlapSave E.num (fun k => s.sample .coef (tapRow s.cfg i + k)) s.cfg.partLen
    (s.samples .hist (tapRow s.cfg i) s.cfg.partLen) (segmentOf s n i)

/-- The spectral vector `z_b` (R174). -/
def spectralRow (s : State E) (n : Nat) (b : Fin s.cfg.chanM) : List E.Cx :=
  (List.range n).map fun k => E.fft s.cfg.chanM (fun i => (channelFilter s n i.val).1.getD k E.num.czero) b

/-- A validated ROTATE with segments of `n` samples as one function (R174). -/
def rotateValidated (s : State E) (n : Nat) : State E :=
  let r := E.resampler s.cfg s.rs (spectralRow s n) (fun j => (s.olen j.val).toNat)
    (fun j k => s.sample .out (outRow s.cfg j.val + k.val))
  let t := { s with vok := true, diagCtl := 0, seg := BitVec.ofNat 32 n }.storeRows .hist
    ((List.range s.cfg.chanM).map fun i => (tapRow s.cfg i, (channelFilter s n i).2))
  if fitsReturn r.2.2 = false then
    { t with upc := BitVec.ofNat 32 (5 * s.cfg.chanM + 4) }.raiseFatal .retRange (BitVec.ofInt 32 r.2.2)
  else
    { (t.storeRows .out (List.ofFn fun j => (outRow s.cfg j.val, List.ofFn (r.2.1 j)))).setResult r.1
        (BitVec.ofInt 32 r.2.2) with upc := BitVec.ofNat 32 (retIndex s.cfg.chanM) }

/-- ROTATE as one function (R174), of a state in `IDLE`. -/
def rotateOnce (s : State E) : State E :=
  if s.inputLen % (s.cfg.q * s.cfg.mul) ≠ 0 then
    s.failLength .input s.inputLen (s.cfg.q * s.cfg.mul) (retIndex s.cfg.chanM)
  else if (s.olen 0).toNat % (s.cfg.p * s.cfg.mul) ≠ 0 then
    s.failLength .output (s.olen 0).toNat (s.cfg.p * s.cfg.mul) (retIndex s.cfg.chanM)
  else if s.cfg.chanM * s.cfg.segCap < s.inputLen then
    { s with upc := 0 }.raiseFatal .capacity (BitVec.ofNat 32 s.inputLen)
  else
    match firstOverlong s with
    | some l => { s with upc := 0 }.raiseFatal .capacity (l.setWidth 32)
    | none => rotateValidated s (s.inputLen / s.cfg.chanM)

/-- Two states the host cannot tell apart between commands (R52): everything but the working buffers, their lengths and
`ACC`. -/
structure SameToHost (s t : State E) : Prop where
  life : s.life = t.life
  registers : ∀ n, s.csrRead n = t.csrRead n
  rs : s.rs = t.rs
  diag : s.diag = t.diag
  coef : ∀ a, s.sample .coef a = t.sample .coef a
  hist : ∀ a, s.sample .hist a = t.sample .hist a
  inp : ∀ a, s.sample .inp a = t.sample .inp a
  out : ∀ a, s.sample .out a = t.sample .out a
  olen : ∀ c, s.olen c = t.olen c
  inbox : s.inbox = t.inbox
  answer : s.answer = t.answer

end Sys2Proof.Machine
end

