-- ==== Sys2Proof/Certificates/Slice0/Obligations.lean ====
section
/-! DEFINITION. The statements about the machine. Where one says `t = { s with … }`, every field not named there is
unchanged: that is the frame. -/

open Sys2Proof Sys2Proof.Machine

/-! ### Encoding (30_encoding.md) -/

/-- Every well-formed operation is read back from the word that spells it (R90 to R93). -/
def Obligations.DecodeOfEncode : Prop :=
  ∀ i : Instr, i.wellFormed = true → decode (encode i) = .op i

/-- Every legal word is the one spelling of its operation, and its channel fits the field (R90, R91, R93). -/
def Obligations.EncodeOfDecode : Prop :=
  ∀ (w : Word) (i : Instr), decode w = .op i → encode i = w ∧ i.wellFormed = true

/-- A word spells an operation exactly when `w & mask = match` for its row of R92, the channel being `w[15:0]`. -/
def Obligations.DecoderFollowsOpcodeTable : Prop :=
  ∀ (w : Word) (i : Instr),
    decode w = .op i ↔ ∃ row ∈ opTable, w &&& row.mask = row.want ∧ i = row.op (w.extractLsb' 0 16).toNat

/-- The three cases in which a word is `ILLEGAL` (first sentence of R94), and no other. -/
def Obligations.IllegalWordsAreExactlyThese : Prop :=
  ∀ w : Word,
    (∃ why, decode w = .illegal why) ↔
      ((w.extractLsb' 24 8).toNat ∉
          [0x00, 0x01, 0x02, 0x03, 0x10, 0x20, 0x21, 0x22, 0x23, 0x24, 0x30, 0x31, 0x32, 0x40, 0x41] ∨
        w.extractLsb' 16 8 ≠ 0 ∨ (w.extractLsb' 28 4 ≠ 2 ∧ w.extractLsb' 0 16 ≠ 0))

/-- Words of the table T10 and what they decode to. -/
def Obligations.SpecWordsDecode : Prop :=
  decode 0x00000000 = .op .nop ∧ decode 0x02000000 = .op .rotate ∧ decode 0x10000000 = .op .validate ∧
    decode 0x2000FFFF = .op (.pbReset 65535) ∧ decode 0x23000002 = .op (.pbConv 2) ∧
    decode 0x32000000 = .op .ssDlv ∧ decode 0x41000000 = .op .ret ∧
    decode 0x25000000 = .illegal .unlistedOpcode ∧ decode 0x23010002 = .illegal .reservedNotZero ∧
    decode 0x02000001 = .illegal .channelNotZero

/-! ### The micro-program and the step -/

/-- The entries of `UPROG(M, u)` (R171), and none beyond index `5*M + 5`. -/
def Obligations.MicroProgramEntries : Prop :=
  ∀ m : Nat, m ≤ 65536 →
    uprog m 0 = some 0x10000000 ∧
    (∀ i < m,
      uprog m (1 + 5 * i + 0) = some (0x20000000 + BitVec.ofNat 32 i) ∧
      uprog m (1 + 5 * i + 1) = some (0x21000000 + BitVec.ofNat 32 i) ∧
      uprog m (1 + 5 * i + 2) = some (0x22000000 + BitVec.ofNat 32 i) ∧
      uprog m (1 + 5 * i + 3) = some (0x23000000 + BitVec.ofNat 32 i) ∧
      uprog m (1 + 5 * i + 4) = some (0x24000000 + BitVec.ofNat 32 i)) ∧
    uprog m (5 * m + 1) = some 0x30000000 ∧ uprog m (5 * m + 2) = some 0x31000000 ∧
    uprog m (5 * m + 3) = some 0x32000000 ∧ uprog m (5 * m + 4) = some 0x40000000 ∧
    uprog m (5 * m + 5) = some 0x41000000 ∧ ∀ u, 5 * m + 5 < u → uprog m u = none

/-- Decoded, the micro-program reads `VALIDATE; PBANK; SPECTRAL; RESAMP; RET` (R98): no entry is `ILLEGAL` (R94), none a
host command, and no channel operand is `M` or more. -/
def Obligations.MicroProgramReads : Prop :=
  ∀ m : Nat, m ≤ 65536 →
    (List.range (5 * m + 6)).map (fun u => (uprog m u).map decode) =
      ([Instr.validate] ++ pbankOps m ++ spectralOps ++ [Instr.resamp, Instr.ret]).map fun i => some (Decoded.op i)

/-- A step of the sequencer is `exec` of the operation the micro-program holds at `UPC` (R35, R170), whether the host has
nothing in hand or is quiet. -/
def Obligations.StepRunsMicroOperation : Prop :=
  ∀ (s : State) (w : Word) (i : Instr), s.life = .busy → uprog s.cfg.chanM s.upc.toNat = some w → decode w = .op i →
    (s.inbox = [] → step s = exec i s) ∧
    (∀ rest, s.inbox = .quiet :: rest → step s = exec i { s with inbox := rest }) ∧
    (∀ rest, s.inbox = .await :: rest → step s = exec i s)

/-- A step in which the host writes a class 0 word to `csr[CMD]` is `exec` of that command (R90, R95). -/
def Obligations.StepRunsHostCommand : Prop :=
  ∀ (s : State) (w : Word) (i : Instr) (rest : List HostEvent),
    s.inbox = .writeWord .csr 0x12 w :: rest → decode w = .op i → i.isHostCommand = true →
      step s = exec i { s with inbox := rest }

/-- Outside BUSY, with no access from the host, the block does nothing (R208, R219): a step with nothing in hand changes
nothing, and one in which the host is quiet, or is done waiting, takes that event off the model's own list (log 9). -/
def Obligations.StepWithoutWorkChangesNothing : Prop :=
  ∀ s : State, s.life ≠ .busy →
    (s.inbox = [] → step s = .next s) ∧
    (∀ rest, s.inbox = .quiet :: rest ∨ s.inbox = .await :: rest → step s = .next { s with inbox := rest })

/-! ### Reset, faults, registers -/

/-- After hardware reset `LIFE = UNCONFIGURED` and every control register reads as zero (R40, R50). -/
def Obligations.ResetRegistersAreZero : Prop :=
  State.reset.life = .unconfigured ∧ ∀ n, State.reset.csrRead n = 0

/-- The reset input, in any state, FAULT included, leaves no instance, zero registers and unspecified contents (R50,
R208): every element reads as a free value of the new time, the model's form of `unspecified` (log 5), and so do the
length latches, the model's choice (log 8). -/
def Obligations.HardwareResetStep : Prop :=
  ∀ (s : State) (rest : List HostEvent), s.inbox = .hardReset :: rest →
    ∃ t, step s = .next t ∧ t.life = .unconfigured ∧ (∀ n, t.csrRead n = 0) ∧
      (∀ sp a, t.sample sp a = Config.freeSample sp ((s.mem.bank sp).epoch + 1) a) ∧
      (∀ c, t.olen c = Config.freeLen (s.mem.olen.epoch + 1) c) ∧
      (∀ i, t.winLen i = Config.freeLatch .win (s.lens.win.epoch + 1) i ∧
        t.woutLen i = Config.freeLatch .wout (s.lens.wout.epoch + 1) i ∧
        t.soutLen i = Config.freeLatch .sout (s.lens.sout.epoch + 1) i) ∧
      t.fbufLen = Config.freeLatch .fbuf (s.lens.fbuf.epoch + 1) 0 ∧
      t.rs = Config.freeRState (s.rsEpoch + 1) ∧ t.diag = s.diag ∧ t.inbox = rest

/-- In `LIFE = FAULT` nothing but the reset input changes anything of the block (R38, R208). -/
def Obligations.FaultIsSticky : Prop :=
  ∀ (s : State) (e : HostEvent) (rest : List HostEvent), s.life = .fault → s.inbox = e :: rest → e ≠ .hardReset →
    ∃ t, step s = .next t ∧ t = { s with inbox := rest, answer := t.answer }

/-- The fields of `csr[STATUS]` (R40, R21, R34, R207). -/
def Obligations.StatusWordFields : Prop :=
  ∀ s : State,
    (s.csrRead 0).extractLsb' 0 2 =
      (match s.life with | .unconfigured => 0 | .idle => 1 | .busy => 2 | .fault => 3) ∧
    (s.csrRead 0).getLsbD 2 = s.vok ∧ (s.csrRead 0).getLsbD 3 = false ∧
    (s.csrRead 0).extractLsb' 4 4 =
      (match s.faultCode with
        | .none => 0 | .cfg => 1 | .illegal => 2 | .state => 3 | .reentry => 4 | .chanRange => 5 | .capacity => 6
        | .access => 7 | .retRange => 8) ∧
    (s.csrRead 0).extractLsb' 8 24 = 0

/-! ### Life-cycle commands (44_lifecycle.md) -/

/-- What a write of any word to `csr[CMD]` does in each life-cycle state, fatal entries and `runs` entries (R193); the
host port accepts class 0 only (R95). -/
def Obligations.CommandByLifeCycleState : Prop :=
  ∀ (s : State) (w : Word) (rest : List HostEvent), s.inbox = .writeWord .csr 0x12 w :: rest →
    let q := { s with inbox := rest }
    (s.life = .fault → step s = .next q) ∧
    (s.life = .busy → step s = .next (q.faulted .reentry w)) ∧
    (s.life = .unconfigured ∨ s.life = .idle →
      (w.extractLsb' 28 4 ≠ 0 ∨ (∃ why, decode w = .illegal why) → step s = .next (q.faulted .illegal w)) ∧
      (w = 0x00000000 → step s = .next q)) ∧
    (s.life = .unconfigured →
      (w = 0x01000000 → step s = exec .construct q) ∧
      (w = 0x02000000 ∨ w = 0x03000000 → step s = .next (q.faulted .state w))) ∧
    (s.life = .idle →
      (w = 0x01000000 → step s = .next (q.faulted .state w)) ∧
      (w = 0x02000000 → step s = exec .rotate q) ∧
      (w = 0x03000000 → step s = exec .destroy q))

/-- NOP does nothing in UNCONFIGURED, IDLE and FAULT and takes `F_REENTRY(0)` in BUSY (R190). -/
def Obligations.NopFollowsItsRule : Prop :=
  ∀ s : State,
    (s.life = .unconfigured ∨ s.life = .idle ∨ s.life = .fault → exec .nop s = .next s) ∧
    (s.life = .busy → exec .nop s = .next (s.faulted .reentry 0))

/-- `WF_CFG` is the conjunction of its five conditions, and the number CONSTRUCT reports is that of the first failing
one (R6, R191, R209). -/
def Obligations.WellFormedConfigurations : Prop :=
  ∀ c : Cfg,
    (cfgWellFormed c = true ↔ ∀ n, 1 ≤ n → n ≤ 5 → wfCondition c n) ∧
    (∀ n, cfgFailing c = some n ↔ 1 ≤ n ∧ n ≤ 5 ∧ ¬ wfCondition c n ∧ ∀ k, 1 ≤ k → k < n → wfCondition c k)

/-- CONSTRUCT with a well-formed configuration creates the instance: zero history, zero lengths, `RS0`, the registers of
the table of R50, `COEF` as the host left it; the other contents unspecified anew (R50, R191; log 17). -/
def Obligations.ConstructCreatesInstance : Prop :=
  ∀ s : State, s.life = .unconfigured → cfgWellFormed s.cfg = true →
    ∃ t, exec .construct s = .next t ∧
      (∀ i j, i < s.cfg.chanM → j < s.cfg.partLen → t.sample .hist (tapRow s.cfg i + j) = Config.num.czero) ∧
      (∀ a, s.cfg.chanM * s.cfg.partLen ≤ a → t.sample .hist a = s.sample .hist a) ∧
      (∀ i < s.cfg.chanM, t.winLen i = 0 ∧ t.woutLen i = 0 ∧ t.soutLen i = 0) ∧ t.fbufLen = 0 ∧
      (∀ sp, sp ≠ .coef → sp ≠ .hist → ∀ a, t.sample sp a = Config.freeSample sp ((s.mem.bank sp).epoch + 1) a) ∧
      (∀ c, t.olen c = Config.freeLen (s.mem.olen.epoch + 1) c) ∧
      t.mem.coef = s.mem.coef ∧
      t = { s with mem := t.mem, lens := t.lens, rs := Config.rs0, inLen := 0, retval := 0, diagCtl := 0, diagLen := 0,
                   diagDiv := 0, vok := false, seg := 0, upc := 0, life := .idle }

/-- Where CONSTRUCT creates nothing: `F_CFG` with the first failing condition, `F_STATE`, `F_REENTRY`, or ignored, and
nothing else is written (R191). -/
def Obligations.ConstructRefusals : Prop :=
  ∀ s : State,
    (∀ n, s.life = .unconfigured → cfgFailing s.cfg = some n →
      exec .construct s = .next (s.faulted .cfg (BitVec.ofNat 32 n))) ∧
    (s.life = .idle → exec .construct s = .next (s.faulted .state 0x01000000)) ∧
    (s.life = .busy → exec .construct s = .next (s.faulted .reentry 0x01000000)) ∧
    (s.life = .fault → exec .construct s = .next s)

/-- DESTROY (R192): from IDLE to UNCONFIGURED, registers 0x00 to 0x07 and 0x11 zero, configuration registers kept, every
content and `RS` unspecified (free values of the new time, logs 5 to 7); the length latches go with their buffers and are
free values too, the model's choice (log 8); the fatal entries of the other states. -/
def Obligations.DestroyFollowsItsRule : Prop :=
  ∀ s : State,
    (s.life = .idle → ∃ t, exec .destroy s = .next t ∧
      (∀ n, n ≤ 0x07 ∨ n = 0x11 → t.csrRead n = 0) ∧
      (∀ n, 0x08 ≤ n → n ≤ 0x10 → t.csrRead n = s.csrRead n) ∧
      (∀ sp a, t.sample sp a = Config.freeSample sp ((s.mem.bank sp).epoch + 1) a) ∧
      (∀ c, t.olen c = Config.freeLen (s.mem.olen.epoch + 1) c) ∧
      (∀ i, t.winLen i = Config.freeLatch .win (s.lens.win.epoch + 1) i ∧
        t.woutLen i = Config.freeLatch .wout (s.lens.wout.epoch + 1) i ∧
        t.soutLen i = Config.freeLatch .sout (s.lens.sout.epoch + 1) i) ∧
      t.fbufLen = Config.freeLatch .fbuf (s.lens.fbuf.epoch + 1) 0 ∧
      t = { s with life := .unconfigured, vok := false, faultCode := .none, faultInfo := 0, retval := 0, diagCtl := 0,
                   diagLen := 0, diagDiv := 0, upc := 0, seg := 0, inLen := 0, mem := t.mem, lens := t.lens,
                   rs := Config.freeRState (s.rsEpoch + 1), rsEpoch := s.rsEpoch + 1 }) ∧
    (s.life = .unconfigured → exec .destroy s = .next (s.faulted .state 0x03000000)) ∧
    (s.life = .busy → exec .destroy s = .next (s.faulted .reentry 0x03000000)) ∧
    (s.life = .fault → exec .destroy s = .next s)

/-! ### VALIDATE (40_validator.md) -/

/-- When both lengths are aligned and every vector fits, VALIDATE passes: exactly `VOK`, `DIAG_CTL`, `SEG`, `UPC` are
written (R121). -/
def Obligations.ValidatePasses : Prop :=
  ∀ s : State,
    s.inLen.toNat % (s.cfg.q * s.cfg.mul) = 0 → (s.olen 0).toNat % (s.cfg.p * s.cfg.mul) = 0 →
    s.inLen.toNat ≤ s.cfg.chanM * s.cfg.segCap → (∀ c < s.cfg.chanM, (s.olen c).toNat ≤ s.cfg.outCap) →
      exec .validate s = .next { s with
        vok := true, diagCtl := 0, seg := BitVec.ofNat 32 (s.inLen.toNat / s.cfg.chanM), upc := s.upc + 1 }

/-- A misaligned length fails: the input bound is tested first, the report and the stream get its record, `RETVAL` is
`-1`, control goes to RET, and nothing else is written (R201, R203). -/
def Obligations.ValidateFailsOnMisalignedLength : Prop :=
  ∀ s : State,
    (s.inLen.toNat % (s.cfg.q * s.cfg.mul) ≠ 0 →
      exec .validate s = .next { s with
        vok := false, diagCtl := 0b01, diagLen := s.inLen.setWidth 32,
        diagDiv := BitVec.ofNat 32 (s.cfg.q * s.cfg.mul),
        diag := s.diag ++ [⟨.input, s.inLen.toNat, s.cfg.q * s.cfg.mul⟩],
        retval := 0xFFFFFFFF, upc := BitVec.ofNat 32 (5 * s.cfg.chanM + 5) }) ∧
    (s.inLen.toNat % (s.cfg.q * s.cfg.mul) = 0 → (s.olen 0).toNat % (s.cfg.p * s.cfg.mul) ≠ 0 →
      exec .validate s = .next { s with
        vok := false, diagCtl := 0b11, diagLen := (s.olen 0).setWidth 32,
        diagDiv := BitVec.ofNat 32 (s.cfg.p * s.cfg.mul),
        diag := s.diag ++ [⟨.output, (s.olen 0).toNat, s.cfg.p * s.cfg.mul⟩],
        retval := 0xFFFFFFFF, upc := BitVec.ofNat 32 (5 * s.cfg.chanM + 5) })

/-- The capacity check, only after both length tests have passed: the input first, then the lowest channel whose output
is too long; nothing but the fault is written (R122). -/
def Obligations.ValidateCapacityFault : Prop :=
  ∀ s : State, s.life ≠ .fault →
    s.inLen.toNat % (s.cfg.q * s.cfg.mul) = 0 → (s.olen 0).toNat % (s.cfg.p * s.cfg.mul) = 0 →
    (s.cfg.chanM * s.cfg.segCap < s.inLen.toNat →
      exec .validate s = .next (s.faulted .capacity (s.inLen.setWidth 32))) ∧
    (∀ c < s.cfg.chanM, s.inLen.toNat ≤ s.cfg.chanM * s.cfg.segCap → s.cfg.outCap < (s.olen c).toNat →
      (∀ d < c, (s.olen d).toNat ≤ s.cfg.outCap) →
      exec .validate s = .next (s.faulted .capacity ((s.olen c).setWidth 32)))

/-- What VALIDATE guarantees to the operations after it when it has not failed and raised no fault (R123). -/
def Obligations.ValidateGuarantees : Prop :=
  ∀ s t : State, cfgWellFormed s.cfg = true → s.life = .busy → exec .validate s = .next t → t.life = .busy →
    t.vok = true → Validated t

/-! ### The partition bank (41_partition_bank.md) -/

/-- PB_RESET i (R131): both lengths `S`, `w_i` and the first `S` elements of `WOUT[i]` become `czero`; with `i >= M`,
`F_CHAN_RANGE(i)` and nothing else. -/
def Obligations.PbResetClearsChannel : Prop :=
  ∀ (i : Nat) (s : State),
    (i < s.cfg.chanM → s.segLen ≤ s.cfg.segCap →
      ∃ t, exec (.pbReset i) s = .next t ∧
        (∀ k < s.cfg.partLen + s.segLen, t.spliced i k = Config.num.czero) ∧
        (∀ k < s.segLen, t.sample .wout (bufRow s.cfg i + k) = Config.num.czero) ∧
        t.winLen i = s.segLen ∧ t.woutLen i = s.segLen ∧
        (∀ a, ¬ inRow (winRow s.cfg i) (s.cfg.partLen + s.segLen) a → t.sample .win a = s.sample .win a) ∧
        (∀ a, ¬ inRow (bufRow s.cfg i) s.segLen a → t.sample .wout a = s.sample .wout a) ∧
        (∀ j, j ≠ i → t.winLen j = s.winLen j ∧ t.woutLen j = s.woutLen j) ∧
        t.mem = { s.mem with win := t.mem.win, wout := t.mem.wout } ∧
        t.lens = { s.lens with win := t.lens.win, wout := t.lens.wout } ∧
        t = { s with mem := t.mem, lens := t.lens, upc := s.upc + 1 }) ∧
    (s.cfg.chanM ≤ i → s.life ≠ .fault →
      exec (.pbReset i) s = .next (s.faulted .chanRange (BitVec.ofNat 32 i)))

/-- PB_DEINT i (R132): position `k` of the segment takes the input sample `k*M + (M - 1 - i)`; with `i >= M`,
`F_CHAN_RANGE(i)` and nothing else. -/
def Obligations.PbDeintTakesReverseOrder : Prop :=
  ∀ (i : Nat) (s : State),
    (i < s.cfg.chanM → s.segLen ≤ s.cfg.segCap →
      ∃ t, exec (.pbDeint i) s = .next t ∧
        (∀ k < s.segLen,
          t.sample .win (segRow s.cfg i + k) = s.sample .inp (k * s.cfg.chanM + (s.cfg.chanM - 1 - i))) ∧
        (∀ a, ¬ inRow (segRow s.cfg i) s.segLen a → t.sample .win a = s.sample .win a) ∧
        t.mem = { s.mem with win := t.mem.win } ∧ t = { s with mem := t.mem, upc := s.upc + 1 }) ∧
    (s.cfg.chanM ≤ i → s.life ≠ .fault →
      exec (.pbDeint i) s = .next (s.faulted .chanRange (BitVec.ofNat 32 i)))

/-- PB_SPLICE i (R133): the history row stands in front of the segment, whatever the segment length; with `i >= M`,
`F_CHAN_RANGE(i)` and nothing else. -/
def Obligations.PbSplicePrependsHistory : Prop :=
  ∀ (i : Nat) (s : State),
    (i < s.cfg.chanM →
      ∃ t, exec (.pbSplice i) s = .next t ∧
        (∀ j < s.cfg.partLen, t.spliced i j = s.sample .hist (tapRow s.cfg i + j)) ∧
        (∀ a, ¬ inRow (winRow s.cfg i) s.cfg.partLen a → t.sample .win a = s.sample .win a) ∧
        t.mem = { s.mem with win := t.mem.win } ∧ t = { s with mem := t.mem, upc := s.upc + 1 }) ∧
    (s.cfg.chanM ≤ i → s.life ≠ .fault →
      exec (.pbSplice i) s = .next (s.faulted .chanRange (BitVec.ofNat 32 i)))

/-- PB_CONV i (R134): output `n` is the sum over ascending `k` from `czero` of `COEF[i][k] * w_i[n+1+k]`; with `i >= M`,
`F_CHAN_RANGE(i)` and nothing else. -/
def Obligations.PbConvCorrelates : Prop :=
  ∀ (i : Nat) (s : State),
    (i < s.cfg.chanM → s.segLen ≤ s.cfg.segCap →
      ∃ t, exec (.pbConv i) s = .next t ∧
        (∀ n < s.segLen, t.sample .wout (bufRow s.cfg i + n) =
          (List.range s.cfg.partLen).foldl
            (fun acc k =>
              Config.num.cadd acc (Config.num.cmul (s.sample .coef (tapRow s.cfg i + k)) (s.spliced i (n + 1 + k))))
            Config.num.czero) ∧
        (∀ a, ¬ inRow (bufRow s.cfg i) s.segLen a → t.sample .wout a = s.sample .wout a) ∧
        t.mem = { s.mem with wout := t.mem.wout } ∧ t = { s with mem := t.mem, acc := t.acc, upc := s.upc + 1 }) ∧
    (s.cfg.chanM ≤ i → s.life ≠ .fault →
      exec (.pbConv i) s = .next (s.faulted .chanRange (BitVec.ofNat 32 i)))

/-- `ACC` after PB_CONV: the last output sample's sum, untouched where there is no output sample (R39 and R134 as the
model reads them, log 13). -/
def Obligations.PbConvLeavesLastSum : Prop :=
  ∀ (i : Nat) (s t : State), i < s.cfg.chanM → s.segLen ≤ s.cfg.segCap → exec (.pbConv i) s = .next t →
    (s.segLen = 0 → t.acc = s.acc) ∧
    (0 < s.segLen → t.acc = t.sample .wout (bufRow s.cfg i + (s.segLen - 1)))

/-- PB_HUPD i (R135): the history row becomes the last `L` samples of the spliced buffer; with `i >= M`,
`F_CHAN_RANGE(i)` and nothing else. -/
def Obligations.PbHupdKeepsTail : Prop :=
  ∀ (i : Nat) (s : State),
    (i < s.cfg.chanM → s.segLen ≤ s.cfg.segCap →
      ∃ t, exec (.pbHupd i) s = .next t ∧
        (∀ j < s.cfg.partLen, t.sample .hist (tapRow s.cfg i + j) = s.spliced i (s.segLen + j)) ∧
        (∀ a, ¬ inRow (tapRow s.cfg i) s.cfg.partLen a → t.sample .hist a = s.sample .hist a) ∧
        t.mem = { s.mem with hist := t.mem.hist } ∧ t = { s with mem := t.mem, upc := s.upc + 1 }) ∧
    (s.cfg.chanM ≤ i → s.life ≠ .fault →
      exec (.pbHupd i) s = .next (s.faulted .chanRange (BitVec.ofNat 32 i)))

/-- `CHANNEL i` (R98) computes the overlap-save filter of the channel: its output segment from its history and its share
of the input, and the new history; no other row of `WOUT` or `HIST`, no input and no coefficient changes, and outside the
working buffers and their lengths nothing does but `HIST[i]`, `ACC` and `UPC` (R130 to R135; `ACC` by log 13). -/
def Obligations.ChannelIsOverlapSave : Prop :=
  ∀ (i : Nat) (s : State), i < s.cfg.chanM → s.segLen ≤ s.cfg.segCap →
    ∃ t, execAll (channelOps i) s = .next t ∧
      t.samples .wout (bufRow s.cfg i) s.segLen = (channelFilter s s.segLen i).1 ∧
      t.samples .hist (tapRow s.cfg i) s.cfg.partLen = (channelFilter s s.segLen i).2 ∧
      (∀ a, ¬ inRow (bufRow s.cfg i) s.segLen a → t.sample .wout a = s.sample .wout a) ∧
      (∀ a, ¬ inRow (tapRow s.cfg i) s.cfg.partLen a → t.sample .hist a = s.sample .hist a) ∧
      t.mem = { s.mem with win := t.mem.win, wout := t.mem.wout, hist := t.mem.hist } ∧
      t = { s with mem := t.mem, lens := t.lens, acc := t.acc, upc := s.upc + 5 }

/-- Chunk transparency (R137): filtering `A` and then `B` with the history carried over is filtering `A ‖ B`, output and
final history, in every numeric domain and for segments of any length. -/
def Obligations.OverlapSaveContinuity : Prop :=
  ∀ (num : NumDomain) (coef : Nat → num.Cx) (taps : Nat) (hist A B : List num.Cx), hist.length = taps →
    let first := overlapSave num coef taps hist A
    let second := overlapSave num coef taps first.2 B
    first.2.length = taps ∧ overlapSave num coef taps hist (A ++ B) = (first.1 ++ second.1, second.2)

/-- A law of the list filter `overlapSave`, the one R136 rests on: folded over any segments from a silent history, the
history it hands on is the last `L` samples of silence followed by all the segments. It does not speak of the machine's
`HIST`; `ChannelIsOverlapSave` and `RotateIsOneFunction` say that `HIST` is updated by this filter. -/
def Obligations.HistoryIsStreamTail : Prop :=
  ∀ (num : NumDomain) (coef : Nat → num.Cx) (taps : Nat) (segments : List (List num.Cx)),
    segments.foldl (fun hist seg => (overlapSave num coef taps hist seg).2) (List.replicate taps num.czero) =
      (List.replicate taps num.czero ++ segments.flatten).drop segments.flatten.length

/-- Silence in, silence out (R139): where products with `czero` and sums of `czero` are `czero`, as in `NUM_EXACT`, a
silent history and a silent segment give a silent output and a silent history. -/
def Obligations.SilenceInSilenceOut : Prop :=
  ∀ (num : NumDomain) (coef : Nat → num.Cx) (taps n : Nat), (∀ k, num.cmul (coef k) num.czero = num.czero) →
    num.cadd num.czero num.czero = num.czero →
      overlapSave num coef taps (List.replicate taps num.czero) (List.replicate n num.czero) =
        (List.replicate n num.czero, List.replicate taps num.czero)

/-- Independence of channels (R138): operations of the partition bank on different channels give the same contents and
lengths in either order (`ACC`, which no rule reads, is that of the later one). -/
def Obligations.BankChannelsCommute : Prop :=
  ∀ op ∈ bankOps, ∀ op' ∈ bankOps, ∀ (i j : Nat) (s : State), i ≠ j → i < s.cfg.chanM → j < s.cfg.chanM →
    s.segLen ≤ s.cfg.segCap →
      ∃ t u, execAll [op i, op' j] s = .next t ∧ execAll [op' j, op i] s = .next u ∧
        (∀ sp a, t.sample sp a = u.sample sp a) ∧ (∀ c, t.olen c = u.olen c) ∧
        (∀ c, t.winLen c = u.winLen c ∧ t.woutLen c = u.woutLen c ∧ t.soutLen c = u.soutLen c) ∧
        t.fbufLen = u.fbufLen ∧ t = { u with mem := t.mem, lens := t.lens, acc := t.acc }

/-- The impulse scenario (R140) under `NUM_EXACT`: from silent history, a segment that is silent but for `a` at `n0`
gives the stored row backwards, scaled by `a`, from `n0` on, and silence elsewhere. -/
def Obligations.ImpulseReproducesCoefficients : Prop :=
  ∀ (coef : Nat → numExact.Cx) (a : numExact.Cx) (taps n n0 : Nat), n0 < n →
    let out := (overlapSave numExact coef taps (List.replicate taps numExact.czero)
      ((List.replicate n numExact.czero).set n0 a)).1
    (∀ d < taps, n0 + d < n → out[n0 + d]? = some (numExact.cmul (coef (taps - 1 - d)) a)) ∧
      ∀ m < n, m < n0 ∨ n0 + taps ≤ m → out[m]? = some numExact.czero

/-! ### The spectral stage (42_spectral_stage.md) -/

/-- SS_ILV (R151): `FBUF.dat[k*M + c]` takes `WOUT[c].dat[k]`, and `FBUF.len` becomes `M * S`. -/
def Obligations.SsIlvInterleaves : Prop :=
  ∀ s : State, s.segLen ≤ s.cfg.segCap →
    ∃ t, exec .ssIlv s = .next t ∧
      (∀ k c, k < s.segLen → c < s.cfg.chanM →
        t.sample .fbuf (k * s.cfg.chanM + c) = s.sample .wout (bufRow s.cfg c + k)) ∧
      t.fbufLen = s.cfg.chanM * s.segLen ∧
      (∀ a, s.cfg.chanM * s.segLen ≤ a → t.sample .fbuf a = s.sample .fbuf a) ∧
      t.mem = { s.mem with fbuf := t.mem.fbuf } ∧ t.lens = { s.lens with fbuf := t.lens.fbuf } ∧
      t = { s with mem := t.mem, lens := t.lens, upc := s.upc + 1 }

/-- SS_FFT (R152): every group of `M` elements is replaced by its transform. -/
def Obligations.SsFftTransformsGroups : Prop :=
  ∀ s : State, s.segLen ≤ s.cfg.segCap →
    ∃ t, exec .ssFft s = .next t ∧
      (∀ (k : Nat) (b : Fin s.cfg.chanM), k < s.segLen →
        t.sample .fbuf (k * s.cfg.chanM + b.val) =
          Config.fft s.cfg.chanM (fun c => s.sample .fbuf (k * s.cfg.chanM + c.val)) b) ∧
      (∀ a, s.cfg.chanM * s.segLen ≤ a → t.sample .fbuf a = s.sample .fbuf a) ∧
      t.mem = { s.mem with fbuf := t.mem.fbuf } ∧ t = { s with mem := t.mem, upc := s.upc + 1 }

/-- SS_DLV (R153): `SOUT[c].dat[k]` takes `FBUF.dat[k*M + c]`, and every `SOUT[c].len` becomes `S`. -/
def Obligations.SsDlvDeinterleaves : Prop :=
  ∀ s : State, s.segLen ≤ s.cfg.segCap →
    ∃ t, exec .ssDlv s = .next t ∧
      (∀ k c, k < s.segLen → c < s.cfg.chanM →
        t.sample .sout (bufRow s.cfg c + k) = s.sample .fbuf (k * s.cfg.chanM + c)) ∧
      (∀ c < s.cfg.chanM, t.soutLen c = s.segLen) ∧ (∀ c, s.cfg.chanM ≤ c → t.soutLen c = s.soutLen c) ∧
      (∀ a, (∀ c < s.cfg.chanM, ¬ inRow (bufRow s.cfg c) s.segLen a) → t.sample .sout a = s.sample .sout a) ∧
      t.mem = { s.mem with sout := t.mem.sout } ∧ t.lens = { s.lens with sout := t.lens.sout } ∧
      t = { s with mem := t.mem, lens := t.lens, upc := s.upc + 1 }

/-- The stage as one function (R154): sample `k` of output channel `b` is bin `b` of the transform of the `k`-th
partition outputs of all branches; the lengths of `WIN` and `WOUT` stay. -/
def Obligations.SpectralStageIsOneTransform : Prop :=
  ∀ s : State, s.segLen ≤ s.cfg.segCap →
    ∃ t, execAll spectralOps s = .next t ∧
      (∀ (k : Nat) (b : Fin s.cfg.chanM), k < s.segLen →
        t.sample .sout (bufRow s.cfg b.val + k) =
          Config.fft s.cfg.chanM (fun c => s.sample .wout (bufRow s.cfg c.val + k)) b) ∧
      t.mem = { s.mem with fbuf := t.mem.fbuf, sout := t.mem.sout } ∧
      t.lens = { s.lens with fbuf := t.lens.fbuf, sout := t.lens.sout } ∧
      t = { s with mem := t.mem, lens := t.lens, upc := s.upc + 3 }

/-! ### Orchestration (43_rotate.md) -/

/-- ROTATE in IDLE starts the micro-program at index 0; elsewhere `F_STATE`, `F_REENTRY`, or ignored (R170). -/
def Obligations.RotateStartsMicroProgram : Prop :=
  ∀ s : State,
    (s.life = .idle → exec .rotate s = .next { s with life := .busy, upc := 0 }) ∧
    (s.life = .unconfigured → exec .rotate s = .next (s.faulted .state 0x02000000)) ∧
    (s.life = .busy → exec .rotate s = .next (s.faulted .reentry 0x02000000)) ∧
    (s.life = .fault → exec .rotate s = .next s)

/-- RESAMP (R176): the Resampler is called with the spectral vectors, the output lengths and the old outputs; a result
that fits 32 bits, negative ones included, is stored with the collaborator's state and outputs, any other takes
`F_RETRANGE` before any write. -/
def Obligations.ResampFollowsItsRule : Prop :=
  ∀ s : State, s.life ≠ .fault → s.segLen ≤ s.cfg.segCap → (∀ c < s.cfg.chanM, (s.olen c).toNat ≤ s.cfg.outCap) →
    let r := Config.resampler s.cfg s.rs (fun c => s.samples .sout (bufRow s.cfg c.val) s.segLen)
      (fun c => (s.olen c.val).toNat) (fun c k => s.sample .out (outRow s.cfg c.val + k.val))
    ∃ t, exec .resamp s = .next t ∧
      if -2 ^ 31 ≤ r.2.2 ∧ r.2.2 ≤ 2 ^ 31 - 1 then
        (∀ (c : Fin s.cfg.chanM) (k : Fin (s.olen c.val).toNat),
          t.sample .out (outRow s.cfg c.val + k.val) = r.2.1 c k) ∧
        (∀ a, (∀ c < s.cfg.chanM, ¬ inRow (outRow s.cfg c) (s.olen c).toNat a) → t.sample .out a = s.sample .out a) ∧
        t.returnCode = r.2.2 ∧ t.mem = { s.mem with out := t.mem.out } ∧
        t = { s with mem := t.mem, rs := r.1, retval := t.retval, upc := s.upc + 1 }
      else t = s.faulted .retRange (BitVec.ofInt 32 r.2.2)

/-- RET returns `LIFE` to IDLE and writes nothing else (R178). -/
def Obligations.RetReturnsToIdle : Prop :=
  ∀ s : State, exec .ret s = .next { s with life := .idle }

/-- A ROTATE whose input or output length is misaligned changes nothing but the report registers, the stream, `VOK`,
`RETVAL` and `UPC` (R205): the whole run, command, VALIDATE and RET. -/
def Obligations.FailedRotateMutatesNothing : Prop :=
  ∀ s : State, s.life = .idle → s.cfg.chanM ≤ 65536 → s.inbox = [.writeWord .csr 0x12 0x02000000] →
    (s.inLen.toNat % (s.cfg.q * s.cfg.mul) ≠ 0 ∨ (s.olen 0).toNat % (s.cfg.p * s.cfg.mul) ≠ 0) →
    ∃ t, runSteps 3 s = .next t ∧ t.returnCode = -1 ∧ t.diagCtl.getLsbD 0 = true ∧
      t = { s with vok := false, diagCtl := t.diagCtl, diagLen := t.diagLen, diagDiv := t.diagDiv, diag := t.diag,
                   retval := 0xFFFFFFFF, upc := BitVec.ofNat 32 (5 * s.cfg.chanM + 5), inbox := [] }

/-- An admitted ROTATE terminates (R170, R250): with the host quiet, `LIFE` leaves BUSY within `5*M + 6` steps. -/
def Obligations.RotateTerminates : Prop :=
  ∀ s : State, Sound s → s.life = .busy → s.inbox = [] →
    ∃ k t, k ≤ 5 * s.cfg.chanM + 6 ∧ runSteps k s = .next t ∧ (t.life = .idle ∨ t.life = .fault)

/-- ROTATE as one function (R174): from a sound IDLE state, the command and the micro-operations it starts end where the
function of R174 ends, in everything the host can see (R52). -/
def Obligations.RotateIsOneFunction : Prop :=
  ∀ s : State, Sound s → s.life = .idle → s.inbox = [] →
    ∃ t, runSteps (5 * s.cfg.chanM + 7)
        { s with inbox := [.writeWord .csr 0x12 0x02000000] } = .next t ∧
      SameToHost t (rotateOnce s)

/-! ### The host port (20_memory.md, 10_state.md) -/

/-- A host read of a register is answered in every life-cycle state and changes nothing of the block; `CMD` and the
reserved numbers read as zero (R40, R66). A number of 256 or more is outside the space: `F_ACCESS(0)`, or nothing in
FAULT (R60, R64, R208; log 25). Where the answer is held, and that a refused read leaves none, is the model's choice
(log 11). -/
def Obligations.HostReadsRegisters : Prop :=
  ∀ (s : State) (n : Nat) (rest : List HostEvent), s.inbox = .readWord .csr n :: rest →
    let q := { s with inbox := rest }
    (n < 256 → step s = .next { q with answer := some (.word (s.csrRead n)) } ∧ (0x12 ≤ n → s.csrRead n = 0)) ∧
    (256 ≤ n → s.life ≠ .fault → step s = .next { q.faulted .access 0 with answer := none }) ∧
    (256 ≤ n → s.life = .fault → step s = .next { q with answer := none })

/-- The register map of R40 (the fields of `STATUS`, number 0, are in `StatusWordFields`; the zero readings from 0x12 on
in `HostReadsRegisters`), and `CFG` as the nine configuration registers spell it (R41). -/
def Obligations.RegisterMap : Prop :=
  ∀ s : State,
    s.csrRead 0x01 = s.retval ∧ s.csrRead 0x02 = (0 : BitVec 30) ++ s.diagCtl ∧ s.csrRead 0x03 = s.diagLen ∧
    s.csrRead 0x04 = s.diagDiv ∧ s.csrRead 0x05 = s.faultInfo ∧ s.csrRead 0x06 = s.upc ∧ s.csrRead 0x07 = s.seg ∧
    s.csrRead 0x08 = s.regs.chanM ∧ s.csrRead 0x09 = s.regs.partLen ∧ s.csrRead 0x0A = s.regs.resampLen ∧
    s.csrRead 0x0B = s.regs.p ∧ s.csrRead 0x0C = s.regs.q ∧ s.csrRead 0x0D = s.regs.mul ∧
    s.csrRead 0x0E = s.regs.variant ∧ s.csrRead 0x0F = s.regs.segCap ∧ s.csrRead 0x10 = s.regs.outCap ∧
    s.csrRead 0x11 = (0 : BitVec 1) ++ s.inLen ∧
    s.cfg = { chanM := (s.csrRead 0x08).toNat, partLen := (s.csrRead 0x09).toNat, resampLen := (s.csrRead 0x0A).toNat,
              p := (s.csrRead 0x0B).toNat, q := (s.csrRead 0x0C).toNat, mul := (s.csrRead 0x0D).toNat,
              variant := (s.csrRead 0x0E).toNat, segCap := (s.csrRead 0x0F).toNat, outCap := (s.csrRead 0x10).toNat }

/-- A host write of a register other than `CMD` (R40, R66): the nine configuration registers in UNCONFIGURED, `IN_LEN`
without its bit 31 in IDLE, ignored in FAULT, and `F_ACCESS(0)` everywhere else. -/
def Obligations.HostWritesRegisters : Prop :=
  ∀ (s : State) (n : Nat) (v : Word) (rest : List HostEvent), s.inbox = .writeWord .csr n v :: rest → n ≠ 0x12 →
    let q := { s with inbox := rest }
    (s.life = .fault → step s = .next q) ∧
    (s.life = .unconfigured → 0x08 ≤ n → n ≤ 0x10 →
      ∃ t, step s = .next t ∧ t.csrRead n = v ∧ (∀ k, k ≠ n → t.csrRead k = s.csrRead k) ∧ t = { q with regs := t.regs }) ∧
    (s.life = .idle → n = 0x11 →
      ∃ t, step s = .next t ∧ t.csrRead n = v &&& 0x7FFFFFFF ∧ t = { q with inLen := v.setWidth 31 }) ∧
    (s.life ≠ .fault → ¬ (s.life = .unconfigured ∧ 0x08 ≤ n ∧ n ≤ 0x10) → ¬ (s.life = .idle ∧ n = 0x11) →
      step s = .next (q.faulted .access 0))

/-- A host access to a sample space (R66): the reads and writes of the table are done inside the space, everything else
takes `F_ACCESS` with the space id, and in FAULT changes nothing of the block. The model's choices: `COEF` before
CONSTRUCT ends at `2^31 - 1` (log 16), and a refused read, in FAULT too, leaves no answer (log 11). -/
def Obligations.HostAccessesSampleSpaces : Prop :=
  ∀ (s : State) (sp : SampleSpace) (a : Nat) (z : Config.num.Cx) (rest : List HostEvent),
    let q := { s with inbox := rest }
    let inside := a < (if s.life = .unconfigured then 2 ^ 31 - 1 else sampleSpaceSize s.cfg sp)
    let readable := (s.life = .unconfigured ∧ sp = .coef) ∨
      (s.life = .idle ∧ (sp = .coef ∨ sp = .hist ∨ sp = .inp ∨ sp = .out))
    let writable := (s.life = .unconfigured ∧ sp = .coef) ∨ (s.life = .idle ∧ (sp = .inp ∨ sp = .out))
    let id : Word := match sp with
      | .coef => 1 | .hist => 2 | .inp => 3 | .out => 5 | .win => 6 | .wout => 7 | .fbuf => 8 | .sout => 9
    (s.inbox = .readSample sp a :: rest →
      (readable ∧ inside → step s = .next { q with answer := some (.sample (s.sample sp a)) }) ∧
      (¬ (readable ∧ inside) → s.life ≠ .fault → step s = .next { q.faulted .access id with answer := none }) ∧
      (s.life = .fault → step s = .next { q with answer := none })) ∧
    (s.inbox = .writeSample sp a z :: rest →
      (writable ∧ inside → ∃ t, step s = .next t ∧ (∀ b, t.sample sp b = if b = a then z else s.sample sp b) ∧
        (∀ sq, sq ≠ sp → t.mem.bank sq = s.mem.bank sq) ∧ t.mem.olen = s.mem.olen ∧ t = { q with mem := t.mem }) ∧
      (¬ (writable ∧ inside) → s.life ≠ .fault → step s = .next (q.faulted .access id)) ∧
      (s.life = .fault → step s = .next q))

/-- A host access to `OLEN` (R42, R66): read and written in IDLE below `M`, bit 31 zero and ignored; `F_ACCESS(4)`
elsewhere outside FAULT, where a refused read leaves no answer, the model's choice (log 11). -/
def Obligations.HostAccessesOutputLengths : Prop :=
  ∀ (s : State) (c : Nat) (v : Word) (rest : List HostEvent),
    let q := { s with inbox := rest }
    (s.inbox = .readWord .olen c :: rest →
      (s.life = .idle → c < s.cfg.chanM →
        step s = .next { q with answer := some (.word ((s.olen c).setWidth 32)) }) ∧
      (s.life ≠ .fault → ¬ (s.life = .idle ∧ c < s.cfg.chanM) →
        step s = .next { q.faulted .access 4 with answer := none })) ∧
    (s.inbox = .writeWord .olen c v :: rest →
      (s.life = .idle → c < s.cfg.chanM → ∃ t, step s = .next t ∧
        (∀ d, t.olen d = if d = c then v.setWidth 31 else s.olen d) ∧
        t.mem = { s.mem with olen := t.mem.olen } ∧ t = { q with mem := t.mem }) ∧
      (s.life ≠ .fault → ¬ (s.life = .idle ∧ c < s.cfg.chanM) → step s = .next (q.faulted .access 4)))

/-! ### Invariants and rules of the whole machine -/

/-- The state after reset is sound. -/
def Obligations.ResetIsSound : Prop := Sound State.reset

/-- Every step from a sound state that gives a next state gives a sound one: canonical memory, a well-formed
configuration (R41), `UPC` inside the micro-program (R35), R123 between VALIDATE and RET, the bounds of R31, the fault
registers of R38 and the report of R37. -/
def Obligations.StepKeepsSound : Prop :=
  ∀ s t : State, Sound s → step s = .next t → Sound t

/-- From a sound state a step always gives a next state: the model's own stops are out of reach (R94, R172). -/
def Obligations.SoundStateNeverStops : Prop :=
  ∀ s : State, Sound s → ∃ t, step s = .next t

/-- In a ROTATE the sequencer never leaves a space or names a channel that is not there (R64, R207): from a sound state its
step takes neither `F_CHAN_RANGE` nor `F_ACCESS`. -/
def Obligations.SequencerStaysInsideItsSpaces : Prop :=
  ∀ s t : State, Sound s → s.life = .busy → s.inbox = [] → step s = .next t →
    t.faultCode ≠ .chanRange ∧ t.faultCode ≠ .access

/-- Every step keeps the canonical form of memory and of the length latches, from any state. The form is the model's own
representation of the spaces of R60 (lists of written elements, indices strictly rising; log 20): no rule of the spec
speaks of it. -/
def Obligations.StepKeepsCanonicalForm : Prop :=
  ∀ s t : State, s.mem.wf = true → s.lens.wf = true → step s = .next t → t.mem.wf = true ∧ t.lens.wf = true

/-- The configuration and the coefficients are fixed for the lifetime of the instance (R22, R41, R71): from a state that
is not UNCONFIGURED, a step that does not lead to UNCONFIGURED changes neither. -/
def Obligations.ConfigurationAndCoefficientsFixed : Prop :=
  ∀ s t : State, s.life ≠ .unconfigured → step s = .next t → t.life ≠ .unconfigured →
    t.regs = s.regs ∧ t.mem.coef = s.mem.coef

/-- Who writes what (R60, last column; R22, R23, R25 to R29, R42): besides CONSTRUCT and DESTROY no operation touches `IN`
or `OLEN`; none but DESTROY touches `COEF`; besides these two, `HIST` changes only in PB_HUPD, `OUT` only in RESAMP, `WIN`
only in PB_RESET, PB_DEINT and PB_SPLICE, `WOUT` only in PB_RESET and PB_CONV, `FBUF` only in SS_ILV and SS_FFT, `SOUT`
only in SS_DLV, and the length latches only in the operation whose rule writes them (R131, R151, R153); and no operation
writes a configuration register. (What CONSTRUCT and DESTROY do to the contents: logs 5, 8 and 17.) -/
def Obligations.WritersOfTheSpaces : Prop :=
  ∀ (i : Instr) (s t : State), exec i s = .next t →
    t.regs = s.regs ∧
    (i ≠ .destroy → t.mem.coef = s.mem.coef) ∧
    (i ≠ .construct → i ≠ .destroy →
      t.mem.inp = s.mem.inp ∧ t.mem.olen = s.mem.olen ∧ t.inLen = s.inLen ∧
      ((∀ c, i ≠ .pbHupd c) → t.mem.hist = s.mem.hist) ∧ (i ≠ .resamp → t.mem.out = s.mem.out ∧ t.rs = s.rs) ∧
      ((∀ c, i ≠ .pbReset c ∧ i ≠ .pbDeint c ∧ i ≠ .pbSplice c) → t.mem.win = s.mem.win) ∧
      ((∀ c, i ≠ .pbReset c ∧ i ≠ .pbConv c) → t.mem.wout = s.mem.wout) ∧
      (i ≠ .ssIlv → i ≠ .ssFft → t.mem.fbuf = s.mem.fbuf) ∧ (i ≠ .ssDlv → t.mem.sout = s.mem.sout) ∧
      ((∀ c, i ≠ .pbReset c) → t.lens.win = s.lens.win ∧ t.lens.wout = s.lens.wout) ∧
      (i ≠ .ssIlv → t.lens.fbuf = s.lens.fbuf) ∧ (i ≠ .ssDlv → t.lens.sout = s.lens.sout))
end

