-- ==== Sys2Proof/Laws/Decode.lean ====
section
/-! SUPPORT. The fields of a word and of an encoded operation. -/

namespace Sys2Proof

theorem opcodeField_append (a b : BitVec 8) (c : BitVec 16) : opcodeField (a ++ b ++ c) = a := by
  apply BitVec.eq_of_getLsbD_eq
  intro j hj
  simp only [opcodeField, BitVec.getLsbD_extractLsb', BitVec.getLsbD_append, hj, decide_true, Bool.true_and]
  rw [if_neg (by omega), if_neg (by omega)]
  congr 1
  omega

theorem reservedField_append (a b : BitVec 8) (c : BitVec 16) : reservedField (a ++ b ++ c) = b := by
  apply BitVec.eq_of_getLsbD_eq
  intro j hj
  simp only [reservedField, BitVec.getLsbD_extractLsb', BitVec.getLsbD_append, hj, decide_true, Bool.true_and]
  rw [if_neg (by omega), if_pos (by omega)]
  congr 1
  omega

theorem channelField_append (a b : BitVec 8) (c : BitVec 16) : channelField (a ++ b ++ c) = c := by
  apply BitVec.eq_of_getLsbD_eq
  intro j hj
  simp only [channelField, BitVec.getLsbD_extractLsb', BitVec.getLsbD_append, hj, decide_true, Bool.true_and]
  rw [if_pos (by omega)]
  congr 1
  omega

/-- A word is its three fields side by side (R91). -/
theorem fields_append (w : Word) : opcodeField w ++ reservedField w ++ channelField w = w := by
  apply BitVec.eq_of_getLsbD_eq
  intro j hj
  simp only [opcodeField, reservedField, channelField, BitVec.getLsbD_append, BitVec.getLsbD_extractLsb']
  split_ifs with h1 h2
  · simp [h1]
  · rw [decide_eq_true h2, Bool.true_and]
    congr 1
    omega
  · rw [decide_eq_true (by omega), Bool.true_and]
    congr 1
    omega

@[simp] theorem opcodeField_encode (i : Instr) : opcodeField (encode i) = opcodeOf i := opcodeField_append _ _ _

@[simp] theorem reservedField_encode (i : Instr) : reservedField (encode i) = 0 := reservedField_append _ _ _

@[simp] theorem channelField_encode (i : Instr) : channelField (encode i) = BitVec.ofNat 16 (i.channel?.getD 0) :=
  channelField_append _ _ _

end Sys2Proof
end

