-- ==== Sys2Proof/Laws/Memory.lean ====
section
/-! SUPPORT. Cells, banks and memory: what a read gives after a write, and that every operation keeps the canonical form. -/

namespace Sys2Proof.Machine

variable {α : Type}

/-! ### Cells -/

theorem cellGet_cellSet (m : List (Nat × α)) (a b : Nat) (v : α) :
    cellGet (cellSet m a v) b = if b = a then some v else cellGet m b := by
  induction m with
  | nil => simp [cellSet, cellGet, eq_comm]
  | cons hd rest ih =>
    obtain ⟨k, w⟩ := hd
    unfold cellSet
    by_cases h1 : a < k
    · rw [if_pos h1]
      simp only [cellGet, eq_comm]
    · rw [if_neg h1]
      by_cases h2 : a = k
      · subst h2
        by_cases hb : b = a
        · simp [cellGet, hb]
        · simp [cellGet, hb, Ne.symm hb]
      · rw [if_neg h2]
        by_cases hb : b = a
        · subst hb
          simp [cellGet, ih, Ne.symm h2]
        · simp [cellGet, ih, hb]

theorem cellsRiseFrom_cellSet (m : List (Nat × α)) (lo : Option Nat) (a : Nat) (v : α)
    (hlo : ∀ l, lo = some l → l < a) (h : cellsRiseFrom lo m = true) : cellsRiseFrom lo (cellSet m a v) = true := by
  induction m generalizing lo with
  | nil => cases lo with
    | none => simp [cellSet, cellsRiseFrom]
    | some l => simpa [cellSet, cellsRiseFrom] using hlo l rfl
  | cons hd rest ih =>
    obtain ⟨k, w⟩ := hd
    have hrest : cellsRiseFrom (some k) rest = true := by cases lo <;> simp_all [cellsRiseFrom]
    unfold cellSet
    split_ifs with h1 h2
    · cases lo with
      | none => simpa [cellsRiseFrom, h1] using hrest
      | some l => simpa [cellsRiseFrom, h1, hlo l rfl] using hrest
    · subst h2
      cases lo <;> simp_all [cellsRiseFrom]
    · have hk : k < a := by omega
      have := ih (some k) (by intro l hl; cases hl; exact hk) hrest
      cases lo <;> simp_all [cellsRiseFrom]

/-! ### Banks -/

@[simp] theorem Bank.blank_epoch (e : Nat) : (Bank.blank e : Bank α).epoch = e := rfl
@[simp] theorem Bank.write_epoch (b : Bank α) (a : Nat) (v : α) : (b.write a v).epoch = b.epoch := rfl
@[simp] theorem Bank.forget_epoch (b : Bank α) : b.forget.epoch = b.epoch + 1 := rfl
@[simp] theorem Bank.forget_cells (b : Bank α) : b.forget.cells = [] := rfl

@[simp] theorem Bank.writeSeq_epoch (vs : List α) (b : Bank α) (a : Nat) : (b.writeSeq a vs).epoch = b.epoch := by
  induction vs generalizing b a with
  | nil => rfl
  | cons v vs ih => simp [Bank.writeSeq, ih]

/-- A read after a write of one element. -/
theorem Bank.read_write (free : Nat → Nat → α) (b : Bank α) (a j : Nat) (v : α) :
    (b.write a v).read free j = if j = a then v else b.read free j := by
  simp only [Bank.read, Bank.write, cellGet_cellSet]
  split_ifs <;> rfl

/-- A read after a `MemWrite`: inside the range what was written there, elsewhere as before. -/
theorem Bank.read_writeSeq (free : Nat → Nat → α) (vs : List α) (b : Bank α) (a j : Nat) :
    (b.writeSeq a vs).read free j = if a ≤ j then (vs[j - a]?).getD (b.read free j) else b.read free j := by
  induction vs generalizing b a with
  | nil => simp [Bank.writeSeq]
  | cons v vs ih =>
    rw [Bank.writeSeq, ih, Bank.read_write]
    rcases Nat.lt_trichotomy j a with h | h | h
    · rw [if_neg (by omega), if_neg (by omega), if_neg (by omega)]
    · subst h
      rw [if_neg (by omega), if_pos rfl, if_pos le_rfl]
      simp
    · rw [if_pos (by omega), if_neg (by omega), if_pos (by omega)]
      obtain ⟨d, rfl⟩ : ∃ d, j = a + 1 + d := ⟨j - (a + 1), by omega⟩
      have h1 : a + 1 + d - (a + 1) = d := by omega
      have h2 : a + 1 + d - a = d + 1 := by omega
      rw [h1, h2, List.getElem?_cons_succ]

theorem Bank.read_writeSeq_inside (free : Nat → Nat → α) (vs : List α) (b : Bank α) (a k : Nat) (h : k < vs.length) :
    (b.writeSeq a vs).read free (a + k) = vs[k] := by
  simp [Bank.read_writeSeq, h]

theorem Bank.read_writeSeq_outside (free : Nat → Nat → α) (vs : List α) (b : Bank α) (a j : Nat)
    (h : j < a ∨ a + vs.length ≤ j) : (b.writeSeq a vs).read free j = b.read free j := by
  rw [Bank.read_writeSeq]
  split_ifs with h1
  · rw [List.getElem?_eq_none (by omega), Option.getD_none]
  · rfl

/-- Contents that have become unspecified read as the free values of the new time. -/
@[simp] theorem Bank.read_forget (free : Nat → Nat → α) (b : Bank α) (j : Nat) :
    b.forget.read free j = free (b.epoch + 1) j := rfl

@[simp] theorem Bank.read_blank (free : Nat → Nat → α) (e j : Nat) : (Bank.blank e).read free j = free e j := rfl

@[simp] theorem Bank.blank_wf (e : Nat) : (Bank.blank e : Bank α).wf = true := rfl
@[simp] theorem Bank.forget_wf (b : Bank α) : b.forget.wf = true := rfl

theorem Bank.write_wf (b : Bank α) (a : Nat) (v : α) (h : b.wf = true) : (b.write a v).wf = true :=
  cellsRiseFrom_cellSet b.cells none a v (by simp) h

theorem Bank.writeSeq_wf (vs : List α) (b : Bank α) (a : Nat) (h : b.wf = true) : (b.writeSeq a vs).wf = true := by
  induction vs generalizing b a with
  | nil => exact h
  | cons v vs ih => exact ih _ _ (b.write_wf a v h)

theorem Bank.writeRows_wf (rows : List (Nat × List α)) (b : Bank α) (h : b.wf = true) : (b.writeRows rows).wf = true := by
  unfold Bank.writeRows
  induction rows generalizing b with
  | nil => exact h
  | cons row rows ih => exact ih _ (Bank.writeSeq_wf row.2 b row.1 h)

theorem Bank.read_writeRows_outside (free : Nat → Nat → α) (rows : List (Nat × List α)) (b : Bank α) (j : Nat)
    (h : ∀ row ∈ rows, j < row.1 ∨ row.1 + row.2.length ≤ j) : (b.writeRows rows).read free j = b.read free j := by
  unfold Bank.writeRows
  induction rows generalizing b with
  | nil => rfl
  | cons row rows ih =>
    rw [List.foldl_cons, ih _ fun r hr => h r (List.mem_cons_of_mem _ hr),
      Bank.read_writeSeq_outside _ _ _ _ _ (h row List.mem_cons_self)]

/-- A read after `n` rows written in order at a pitch no row is longer than: in row `c` what its row holds there. -/
theorem Bank.read_writeRows_pitch (free : Nat → Nat → α) (row : Nat → List α) (pitch n : Nat) (b : Bank α) (c k : Nat)
    (hlen : ∀ i < n, (row i).length ≤ pitch) (hc : c < n) (hk : k < (row c).length) :
    (b.writeRows ((List.range n).map fun i => (i * pitch, row i))).read free (c * pitch + k) = (row c)[k] := by
  induction n with
  | zero => omega
  | succ n ih =>
    have hstep : b.writeRows ((List.range (n + 1)).map fun i => (i * pitch, row i)) =
        (b.writeRows ((List.range n).map fun i => (i * pitch, row i))).writeSeq (n * pitch) (row n) := by
      simp [Bank.writeRows, List.range_succ, List.foldl_append]
    rw [hstep]
    rcases Nat.lt_or_ge c n with hcn | hcn
    · rw [Bank.read_writeSeq_outside]
      · exact ih (fun i hi => hlen i (by omega)) hcn
      · left
        have h1 := hlen c (by omega)
        have h2 : (c + 1) * pitch ≤ n * pitch := Nat.mul_le_mul_right _ hcn
        have h3 : (c + 1) * pitch = c * pitch + pitch := Nat.succ_mul c pitch
        omega
    · obtain rfl : c = n := by omega
      exact Bank.read_writeSeq_inside free (row c) _ (c * pitch) k hk

/-! ### Memory -/

variable {α : Type}

theorem Memory.setBank_wf (m : Memory α) (sp : SampleSpace) (b : Bank α) (hm : m.wf = true) (hb : b.wf = true) :
    (m.setBank sp b).wf = true := by
  cases sp <;> simp_all [Memory.wf, Memory.setBank]

theorem Memory.bank_wf (m : Memory α) (sp : SampleSpace) (hm : m.wf = true) : (m.bank sp).wf = true := by
  cases sp <;> simp_all [Memory.wf, Memory.bank]

@[simp] theorem Memory.forgetAll_wf (m : Memory α) : m.forgetAll.wf = true := rfl
@[simp] theorem Latches.forgetAll_wf (l : Latches) : l.forgetAll.wf = true := rfl

theorem Memory.reset_wf : State.reset.mem.wf = true := rfl
theorem Latches.reset_wf : State.reset.lens.wf = true := rfl

@[simp] theorem Memory.setBank_bank_same (m : Memory α) (sp : SampleSpace) (b : Bank α) : (m.setBank sp b).bank sp = b := by
  cases sp <;> rfl

theorem Memory.setBank_bank_other (m : Memory α) (sp sq : SampleSpace) (b : Bank α) (h : sq ≠ sp) :
    (m.setBank sp b).bank sq = m.bank sq := by
  cases sp <;> cases sq <;> first | rfl | exact absurd rfl h

@[simp] theorem Memory.setBank_olen (m : Memory α) (sp : SampleSpace) (b : Bank α) : (m.setBank sp b).olen = m.olen := by
  cases sp <;> rfl

end Sys2Proof.Machine
end

