-- ==== Sys2Proof/Laws/State.lean ====
section
/-! SUPPORT. One lemma per field per named update of State, and what the derived readings give after each. -/

namespace Sys2Proof.Machine

variable {E : Env}

/-! ### `advance` -/

@[simp] theorem State.advance_life (s : State E) : (s.advance).life = s.life := rfl
@[simp] theorem State.advance_vok (s : State E) : (s.advance).vok = s.vok := rfl
@[simp] theorem State.advance_faultCode (s : State E) : (s.advance).faultCode = s.faultCode := rfl
@[simp] theorem State.advance_faultInfo (s : State E) : (s.advance).faultInfo = s.faultInfo := rfl
@[simp] theorem State.advance_retval (s : State E) : (s.advance).retval = s.retval := rfl
@[simp] theorem State.advance_diagCtl (s : State E) : (s.advance).diagCtl = s.diagCtl := rfl
@[simp] theorem State.advance_diagLen (s : State E) : (s.advance).diagLen = s.diagLen := rfl
@[simp] theorem State.advance_diagDiv (s : State E) : (s.advance).diagDiv = s.diagDiv := rfl
@[simp] theorem State.advance_seg (s : State E) : (s.advance).seg = s.seg := rfl
@[simp] theorem State.advance_regs (s : State E) : (s.advance).regs = s.regs := rfl
@[simp] theorem State.advance_inLen (s : State E) : (s.advance).inLen = s.inLen := rfl
@[simp] theorem State.advance_acc (s : State E) : (s.advance).acc = s.acc := rfl
@[simp] theorem State.advance_rs (s : State E) : (s.advance).rs = s.rs := rfl
@[simp] theorem State.advance_rsEpoch (s : State E) : (s.advance).rsEpoch = s.rsEpoch := rfl
@[simp] theorem State.advance_mem (s : State E) : (s.advance).mem = s.mem := rfl
@[simp] theorem State.advance_lens (s : State E) : (s.advance).lens = s.lens := rfl
@[simp] theorem State.advance_diag (s : State E) : (s.advance).diag = s.diag := rfl
@[simp] theorem State.advance_inbox (s : State E) : (s.advance).inbox = s.inbox := rfl
@[simp] theorem State.advance_answer (s : State E) : (s.advance).answer = s.answer := rfl
@[simp] theorem State.advance_upc (s : State E) : s.advance.upc = s.upc + 1 := rfl

/-! ### `store`, `storeRows`, `setBank` -/

@[simp] theorem State.store_life (s : State E) (sp : SampleSpace) (a : Nat) (vs : List E.Cx) : (s.store sp a vs).life = s.life := rfl
@[simp] theorem State.store_vok (s : State E) (sp : SampleSpace) (a : Nat) (vs : List E.Cx) : (s.store sp a vs).vok = s.vok := rfl
@[simp] theorem State.store_faultCode (s : State E) (sp : SampleSpace) (a : Nat) (vs : List E.Cx) : (s.store sp a vs).faultCode = s.faultCode := rfl
@[simp] theorem State.store_faultInfo (s : State E) (sp : SampleSpace) (a : Nat) (vs : List E.Cx) : (s.store sp a vs).faultInfo = s.faultInfo := rfl
@[simp] theorem State.store_retval (s : State E) (sp : SampleSpace) (a : Nat) (vs : List E.Cx) : (s.store sp a vs).retval = s.retval := rfl
@[simp] theorem State.store_diagCtl (s : State E) (sp : SampleSpace) (a : Nat) (vs : List E.Cx) : (s.store sp a vs).diagCtl = s.diagCtl := rfl
@[simp] theorem State.store_diagLen (s : State E) (sp : SampleSpace) (a : Nat) (vs : List E.Cx) : (s.store sp a vs).diagLen = s.diagLen := rfl
@[simp] theorem State.store_diagDiv (s : State E) (sp : SampleSpace) (a : Nat) (vs : List E.Cx) : (s.store sp a vs).diagDiv = s.diagDiv := rfl
@[simp] theorem State.store_upc (s : State E) (sp : SampleSpace) (a : Nat) (vs : List E.Cx) : (s.store sp a vs).upc = s.upc := rfl
@[simp] theorem State.store_seg (s : State E) (sp : SampleSpace) (a : Nat) (vs : List E.Cx) : (s.store sp a vs).seg = s.seg := rfl
@[simp] theorem State.store_regs (s : State E) (sp : SampleSpace) (a : Nat) (vs : List E.Cx) : (s.store sp a vs).regs = s.regs := rfl
@[simp] theorem State.store_inLen (s : State E) (sp : SampleSpace) (a : Nat) (vs : List E.Cx) : (s.store sp a vs).inLen = s.inLen := rfl
@[simp] theorem State.store_acc (s : State E) (sp : SampleSpace) (a : Nat) (vs : List E.Cx) : (s.store sp a vs).acc = s.acc := rfl
@[simp] theorem State.store_rs (s : State E) (sp : SampleSpace) (a : Nat) (vs : List E.Cx) : (s.store sp a vs).rs = s.rs := rfl
@[simp] theorem State.store_rsEpoch (s : State E) (sp : SampleSpace) (a : Nat) (vs : List E.Cx) : (s.store sp a vs).rsEpoch = s.rsEpoch := rfl
@[simp] theorem State.store_lens (s : State E) (sp : SampleSpace) (a : Nat) (vs : List E.Cx) : (s.store sp a vs).lens = s.lens := rfl
@[simp] theorem State.store_diag (s : State E) (sp : SampleSpace) (a : Nat) (vs : List E.Cx) : (s.store sp a vs).diag = s.diag := rfl
@[simp] theorem State.store_inbox (s : State E) (sp : SampleSpace) (a : Nat) (vs : List E.Cx) : (s.store sp a vs).inbox = s.inbox := rfl
@[simp] theorem State.store_answer (s : State E) (sp : SampleSpace) (a : Nat) (vs : List E.Cx) : (s.store sp a vs).answer = s.answer := rfl
@[simp] theorem State.store_mem (s : State E) (sp : SampleSpace) (a : Nat) (vs : List E.Cx) :
    (s.store sp a vs).mem = s.mem.setBank sp ((s.mem.bank sp).writeSeq a vs) := rfl
@[simp] theorem State.storeRows_life (s : State E) (sp : SampleSpace) (rows : List (Nat × List E.Cx)) : (s.storeRows sp rows).life = s.life := rfl
@[simp] theorem State.storeRows_vok (s : State E) (sp : SampleSpace) (rows : List (Nat × List E.Cx)) : (s.storeRows sp rows).vok = s.vok := rfl
@[simp] theorem State.storeRows_faultCode (s : State E) (sp : SampleSpace) (rows : List (Nat × List E.Cx)) : (s.storeRows sp rows).faultCode = s.faultCode := rfl
@[simp] theorem State.storeRows_faultInfo (s : State E) (sp : SampleSpace) (rows : List (Nat × List E.Cx)) : (s.storeRows sp rows).faultInfo = s.faultInfo := rfl
@[simp] theorem State.storeRows_retval (s : State E) (sp : SampleSpace) (rows : List (Nat × List E.Cx)) : (s.storeRows sp rows).retval = s.retval := rfl
@[simp] theorem State.storeRows_diagCtl (s : State E) (sp : SampleSpace) (rows : List (Nat × List E.Cx)) : (s.storeRows sp rows).diagCtl = s.diagCtl := rfl
@[simp] theorem State.storeRows_diagLen (s : State E) (sp : SampleSpace) (rows : List (Nat × List E.Cx)) : (s.storeRows sp rows).diagLen = s.diagLen := rfl
@[simp] theorem State.storeRows_diagDiv (s : State E) (sp : SampleSpace) (rows : List (Nat × List E.Cx)) : (s.storeRows sp rows).diagDiv = s.diagDiv := rfl
@[simp] theorem State.storeRows_upc (s : State E) (sp : SampleSpace) (rows : List (Nat × List E.Cx)) : (s.storeRows sp rows).upc = s.upc := rfl
@[simp] theorem State.storeRows_seg (s : State E) (sp : SampleSpace) (rows : List (Nat × List E.Cx)) : (s.storeRows sp rows).seg = s.seg := rfl
@[simp] theorem State.storeRows_regs (s : State E) (sp : SampleSpace) (rows : List (Nat × List E.Cx)) : (s.storeRows sp rows).regs = s.regs := rfl
@[simp] theorem State.storeRows_inLen (s : State E) (sp : SampleSpace) (rows : List (Nat × List E.Cx)) : (s.storeRows sp rows).inLen = s.inLen := rfl
@[simp] theorem State.storeRows_acc (s : State E) (sp : SampleSpace) (rows : List (Nat × List E.Cx)) : (s.storeRows sp rows).acc = s.acc := rfl
@[simp] theorem State.storeRows_rs (s : State E) (sp : SampleSpace) (rows : List (Nat × List E.Cx)) : (s.storeRows sp rows).rs = s.rs := rfl
@[simp] theorem State.storeRows_rsEpoch (s : State E) (sp : SampleSpace) (rows : List (Nat × List E.Cx)) : (s.storeRows sp rows).rsEpoch = s.rsEpoch := rfl
@[simp] theorem State.storeRows_lens (s : State E) (sp : SampleSpace) (rows : List (Nat × List E.Cx)) : (s.storeRows sp rows).lens = s.lens := rfl
@[simp] theorem State.storeRows_diag (s : State E) (sp : SampleSpace) (rows : List (Nat × List E.Cx)) : (s.storeRows sp rows).diag = s.diag := rfl
@[simp] theorem State.storeRows_inbox (s : State E) (sp : SampleSpace) (rows : List (Nat × List E.Cx)) : (s.storeRows sp rows).inbox = s.inbox := rfl
@[simp] theorem State.storeRows_answer (s : State E) (sp : SampleSpace) (rows : List (Nat × List E.Cx)) : (s.storeRows sp rows).answer = s.answer := rfl
@[simp] theorem State.storeRows_mem (s : State E) (sp : SampleSpace) (rows : List (Nat × List E.Cx)) :
    (s.storeRows sp rows).mem = s.mem.setBank sp ((s.mem.bank sp).writeRows rows) := rfl
@[simp] theorem State.setBank_life (s : State E) (sp : SampleSpace) (b : Bank E.Cx) : (s.setBank sp b).life = s.life := rfl
@[simp] theorem State.setBank_vok (s : State E) (sp : SampleSpace) (b : Bank E.Cx) : (s.setBank sp b).vok = s.vok := rfl
@[simp] theorem State.setBank_faultCode (s : State E) (sp : SampleSpace) (b : Bank E.Cx) : (s.setBank sp b).faultCode = s.faultCode := rfl
@[simp] theorem State.setBank_faultInfo (s : State E) (sp : SampleSpace) (b : Bank E.Cx) : (s.setBank sp b).faultInfo = s.faultInfo := rfl
@[simp] theorem State.setBank_retval (s : State E) (sp : SampleSpace) (b : Bank E.Cx) : (s.setBank sp b).retval = s.retval := rfl
@[simp] theorem State.setBank_diagCtl (s : State E) (sp : SampleSpace) (b : Bank E.Cx) : (s.setBank sp b).diagCtl = s.diagCtl := rfl
@[simp] theorem State.setBank_diagLen (s : State E) (sp : SampleSpace) (b : Bank E.Cx) : (s.setBank sp b).diagLen = s.diagLen := rfl
@[simp] theorem State.setBank_diagDiv (s : State E) (sp : SampleSpace) (b : Bank E.Cx) : (s.setBank sp b).diagDiv = s.diagDiv := rfl
@[simp] theorem State.setBank_upc (s : State E) (sp : SampleSpace) (b : Bank E.Cx) : (s.setBank sp b).upc = s.upc := rfl
@[simp] theorem State.setBank_seg (s : State E) (sp : SampleSpace) (b : Bank E.Cx) : (s.setBank sp b).seg = s.seg := rfl
@[simp] theorem State.setBank_regs (s : State E) (sp : SampleSpace) (b : Bank E.Cx) : (s.setBank sp b).regs = s.regs := rfl
@[simp] theorem State.setBank_inLen (s : State E) (sp : SampleSpace) (b : Bank E.Cx) : (s.setBank sp b).inLen = s.inLen := rfl
@[simp] theorem State.setBank_acc (s : State E) (sp : SampleSpace) (b : Bank E.Cx) : (s.setBank sp b).acc = s.acc := rfl
@[simp] theorem State.setBank_rs (s : State E) (sp : SampleSpace) (b : Bank E.Cx) : (s.setBank sp b).rs = s.rs := rfl
@[simp] theorem State.setBank_rsEpoch (s : State E) (sp : SampleSpace) (b : Bank E.Cx) : (s.setBank sp b).rsEpoch = s.rsEpoch := rfl
@[simp] theorem State.setBank_lens (s : State E) (sp : SampleSpace) (b : Bank E.Cx) : (s.setBank sp b).lens = s.lens := rfl
@[simp] theorem State.setBank_diag (s : State E) (sp : SampleSpace) (b : Bank E.Cx) : (s.setBank sp b).diag = s.diag := rfl
@[simp] theorem State.setBank_inbox (s : State E) (sp : SampleSpace) (b : Bank E.Cx) : (s.setBank sp b).inbox = s.inbox := rfl
@[simp] theorem State.setBank_answer (s : State E) (sp : SampleSpace) (b : Bank E.Cx) : (s.setBank sp b).answer = s.answer := rfl
@[simp] theorem State.setBank_mem (s : State E) (sp : SampleSpace) (b : Bank E.Cx) :
    (s.setBank sp b).mem = s.mem.setBank sp b := rfl

/-! ### `setLens`, `setAcc`, `setResult` -/

@[simp] theorem State.setLens_life (s : State E) (l : Latches) : (s.setLens l).life = s.life := rfl
@[simp] theorem State.setLens_vok (s : State E) (l : Latches) : (s.setLens l).vok = s.vok := rfl
@[simp] theorem State.setLens_faultCode (s : State E) (l : Latches) : (s.setLens l).faultCode = s.faultCode := rfl
@[simp] theorem State.setLens_faultInfo (s : State E) (l : Latches) : (s.setLens l).faultInfo = s.faultInfo := rfl
@[simp] theorem State.setLens_retval (s : State E) (l : Latches) : (s.setLens l).retval = s.retval := rfl
@[simp] theorem State.setLens_diagCtl (s : State E) (l : Latches) : (s.setLens l).diagCtl = s.diagCtl := rfl
@[simp] theorem State.setLens_diagLen (s : State E) (l : Latches) : (s.setLens l).diagLen = s.diagLen := rfl
@[simp] theorem State.setLens_diagDiv (s : State E) (l : Latches) : (s.setLens l).diagDiv = s.diagDiv := rfl
@[simp] theorem State.setLens_upc (s : State E) (l : Latches) : (s.setLens l).upc = s.upc := rfl
@[simp] theorem State.setLens_seg (s : State E) (l : Latches) : (s.setLens l).seg = s.seg := rfl
@[simp] theorem State.setLens_regs (s : State E) (l : Latches) : (s.setLens l).regs = s.regs := rfl
@[simp] theorem State.setLens_inLen (s : State E) (l : Latches) : (s.setLens l).inLen = s.inLen := rfl
@[simp] theorem State.setLens_acc (s : State E) (l : Latches) : (s.setLens l).acc = s.acc := rfl
@[simp] theorem State.setLens_rs (s : State E) (l : Latches) : (s.setLens l).rs = s.rs := rfl
@[simp] theorem State.setLens_rsEpoch (s : State E) (l : Latches) : (s.setLens l).rsEpoch = s.rsEpoch := rfl
@[simp] theorem State.setLens_mem (s : State E) (l : Latches) : (s.setLens l).mem = s.mem := rfl
@[simp] theorem State.setLens_diag (s : State E) (l : Latches) : (s.setLens l).diag = s.diag := rfl
@[simp] theorem State.setLens_inbox (s : State E) (l : Latches) : (s.setLens l).inbox = s.inbox := rfl
@[simp] theorem State.setLens_answer (s : State E) (l : Latches) : (s.setLens l).answer = s.answer := rfl
@[simp] theorem State.setLens_lens (s : State E) (l : Latches) : (s.setLens l).lens = l := rfl
@[simp] theorem State.setAcc_life (s : State E) (z : E.Cx) : (s.setAcc z).life = s.life := rfl
@[simp] theorem State.setAcc_vok (s : State E) (z : E.Cx) : (s.setAcc z).vok = s.vok := rfl
@[simp] theorem State.setAcc_faultCode (s : State E) (z : E.Cx) : (s.setAcc z).faultCode = s.faultCode := rfl
@[simp] theorem State.setAcc_faultInfo (s : State E) (z : E.Cx) : (s.setAcc z).faultInfo = s.faultInfo := rfl
@[simp] theorem State.setAcc_retval (s : State E) (z : E.Cx) : (s.setAcc z).retval = s.retval := rfl
@[simp] theorem State.setAcc_diagCtl (s : State E) (z : E.Cx) : (s.setAcc z).diagCtl = s.diagCtl := rfl
@[simp] theorem State.setAcc_diagLen (s : State E) (z : E.Cx) : (s.setAcc z).diagLen = s.diagLen := rfl
@[simp] theorem State.setAcc_diagDiv (s : State E) (z : E.Cx) : (s.setAcc z).diagDiv = s.diagDiv := rfl
@[simp] theorem State.setAcc_upc (s : State E) (z : E.Cx) : (s.setAcc z).upc = s.upc := rfl
@[simp] theorem State.setAcc_seg (s : State E) (z : E.Cx) : (s.setAcc z).seg = s.seg := rfl
@[simp] theorem State.setAcc_regs (s : State E) (z : E.Cx) : (s.setAcc z).regs = s.regs := rfl
@[simp] theorem State.setAcc_inLen (s : State E) (z : E.Cx) : (s.setAcc z).inLen = s.inLen := rfl
@[simp] theorem State.setAcc_rs (s : State E) (z : E.Cx) : (s.setAcc z).rs = s.rs := rfl
@[simp] theorem State.setAcc_rsEpoch (s : State E) (z : E.Cx) : (s.setAcc z).rsEpoch = s.rsEpoch := rfl
@[simp] theorem State.setAcc_mem (s : State E) (z : E.Cx) : (s.setAcc z).mem = s.mem := rfl
@[simp] theorem State.setAcc_lens (s : State E) (z : E.Cx) : (s.setAcc z).lens = s.lens := rfl
@[simp] theorem State.setAcc_diag (s : State E) (z : E.Cx) : (s.setAcc z).diag = s.diag := rfl
@[simp] theorem State.setAcc_inbox (s : State E) (z : E.Cx) : (s.setAcc z).inbox = s.inbox := rfl
@[simp] theorem State.setAcc_answer (s : State E) (z : E.Cx) : (s.setAcc z).answer = s.answer := rfl
@[simp] theorem State.setAcc_acc (s : State E) (z : E.Cx) : (s.setAcc z).acc = z := rfl
@[simp] theorem State.setResult_life (s : State E) (r : E.RState) (w : Word) : (s.setResult r w).life = s.life := rfl
@[simp] theorem State.setResult_vok (s : State E) (r : E.RState) (w : Word) : (s.setResult r w).vok = s.vok := rfl
@[simp] theorem State.setResult_faultCode (s : State E) (r : E.RState) (w : Word) : (s.setResult r w).faultCode = s.faultCode := rfl
@[simp] theorem State.setResult_faultInfo (s : State E) (r : E.RState) (w : Word) : (s.setResult r w).faultInfo = s.faultInfo := rfl
@[simp] theorem State.setResult_diagCtl (s : State E) (r : E.RState) (w : Word) : (s.setResult r w).diagCtl = s.diagCtl := rfl
@[simp] theorem State.setResult_diagLen (s : State E) (r : E.RState) (w : Word) : (s.setResult r w).diagLen = s.diagLen := rfl
@[simp] theorem State.setResult_diagDiv (s : State E) (r : E.RState) (w : Word) : (s.setResult r w).diagDiv = s.diagDiv := rfl
@[simp] theorem State.setResult_upc (s : State E) (r : E.RState) (w : Word) : (s.setResult r w).upc = s.upc := rfl
@[simp] theorem State.setResult_seg (s : State E) (r : E.RState) (w : Word) : (s.setResult r w).seg = s.seg := rfl
@[simp] theorem State.setResult_regs (s : State E) (r : E.RState) (w : Word) : (s.setResult r w).regs = s.regs := rfl
@[simp] theorem State.setResult_inLen (s : State E) (r : E.RState) (w : Word) : (s.setResult r w).inLen = s.inLen := rfl
@[simp] theorem State.setResult_acc (s : State E) (r : E.RState) (w : Word) : (s.setResult r w).acc = s.acc := rfl
@[simp] theorem State.setResult_rsEpoch (s : State E) (r : E.RState) (w : Word) : (s.setResult r w).rsEpoch = s.rsEpoch := rfl
@[simp] theorem State.setResult_mem (s : State E) (r : E.RState) (w : Word) : (s.setResult r w).mem = s.mem := rfl
@[simp] theorem State.setResult_lens (s : State E) (r : E.RState) (w : Word) : (s.setResult r w).lens = s.lens := rfl
@[simp] theorem State.setResult_diag (s : State E) (r : E.RState) (w : Word) : (s.setResult r w).diag = s.diag := rfl
@[simp] theorem State.setResult_inbox (s : State E) (r : E.RState) (w : Word) : (s.setResult r w).inbox = s.inbox := rfl
@[simp] theorem State.setResult_answer (s : State E) (r : E.RState) (w : Word) : (s.setResult r w).answer = s.answer := rfl
@[simp] theorem State.setResult_rs (s : State E) (r : E.RState) (w : Word) : (s.setResult r w).rs = r := rfl
@[simp] theorem State.setResult_retval (s : State E) (r : E.RState) (w : Word) : (s.setResult r w).retval = w := rfl

/-! ### `failLength` -/

@[simp] theorem State.failLength_life (s : State E) (b : Bound) (n d u : Nat) : (s.failLength b n d u).life = s.life := rfl
@[simp] theorem State.failLength_faultCode (s : State E) (b : Bound) (n d u : Nat) : (s.failLength b n d u).faultCode = s.faultCode := rfl
@[simp] theorem State.failLength_faultInfo (s : State E) (b : Bound) (n d u : Nat) : (s.failLength b n d u).faultInfo = s.faultInfo := rfl
@[simp] theorem State.failLength_seg (s : State E) (b : Bound) (n d u : Nat) : (s.failLength b n d u).seg = s.seg := rfl
@[simp] theorem State.failLength_regs (s : State E) (b : Bound) (n d u : Nat) : (s.failLength b n d u).regs = s.regs := rfl
@[simp] theorem State.failLength_inLen (s : State E) (b : Bound) (n d u : Nat) : (s.failLength b n d u).inLen = s.inLen := rfl
@[simp] theorem State.failLength_acc (s : State E) (b : Bound) (n d u : Nat) : (s.failLength b n d u).acc = s.acc := rfl
@[simp] theorem State.failLength_rs (s : State E) (b : Bound) (n d u : Nat) : (s.failLength b n d u).rs = s.rs := rfl
@[simp] theorem State.failLength_rsEpoch (s : State E) (b : Bound) (n d u : Nat) : (s.failLength b n d u).rsEpoch = s.rsEpoch := rfl
@[simp] theorem State.failLength_mem (s : State E) (b : Bound) (n d u : Nat) : (s.failLength b n d u).mem = s.mem := rfl
@[simp] theorem State.failLength_lens (s : State E) (b : Bound) (n d u : Nat) : (s.failLength b n d u).lens = s.lens := rfl
@[simp] theorem State.failLength_inbox (s : State E) (b : Bound) (n d u : Nat) : (s.failLength b n d u).inbox = s.inbox := rfl
@[simp] theorem State.failLength_answer (s : State E) (b : Bound) (n d u : Nat) : (s.failLength b n d u).answer = s.answer := rfl
@[simp] theorem State.failLength_vok (s : State E) (b : Bound) (n d u : Nat) : (s.failLength b n d u).vok = false := rfl
@[simp] theorem State.failLength_diagLen (s : State E) (b : Bound) (n d u : Nat) : (s.failLength b n d u).diagLen = BitVec.ofNat 32 n := rfl
@[simp] theorem State.failLength_diagDiv (s : State E) (b : Bound) (n d u : Nat) : (s.failLength b n d u).diagDiv = BitVec.ofNat 32 d := rfl
@[simp] theorem State.failLength_retval (s : State E) (b : Bound) (n d u : Nat) : (s.failLength b n d u).retval = 0xFFFFFFFF := rfl
@[simp] theorem State.failLength_upc (s : State E) (b : Bound) (n d u : Nat) : (s.failLength b n d u).upc = BitVec.ofNat 32 u := rfl
@[simp] theorem State.failLength_diag (s : State E) (b : Bound) (n d u : Nat) :
    (s.failLength b n d u).diag = s.diag ++ [{ bound := b, length := n, divisor := d }] := rfl
@[simp] theorem State.failLength_diagCtl_input (s : State E) (n d u : Nat) : (s.failLength .input n d u).diagCtl = 1 := rfl
@[simp] theorem State.failLength_diagCtl_output (s : State E) (n d u : Nat) : (s.failLength .output n d u).diagCtl = 3 := rfl

/-! ### `raiseFatal` -/

/-- The fault entry outside `LIFE = FAULT` (R208): three fields, no other. -/
theorem State.raiseFatal_eq (s : State E) (c : FatalCode) (w : Word) (h : s.life ≠ .fault) :
    s.raiseFatal c w = { s with faultCode := c, faultInfo := w, life := .fault } := by
  unfold State.raiseFatal
  cases hl : s.life <;> simp_all

/-- In `LIFE = FAULT` the first fault is kept (R38, R208). -/
theorem State.raiseFatal_fault (s : State E) (c : FatalCode) (w : Word) (h : s.life = .fault) : s.raiseFatal c w = s := by
  simp [State.raiseFatal, h]

@[simp] theorem State.raiseFatal_life (s : State E) (c : FatalCode) (w : Word) : (s.raiseFatal c w).life = .fault := by
  unfold State.raiseFatal
  cases h : s.life <;> simp [h]

@[simp] theorem State.raiseFatal_vok (s : State E) (c : FatalCode) (w : Word) : (s.raiseFatal c w).vok = s.vok := by
  unfold State.raiseFatal; cases s.life <;> rfl
@[simp] theorem State.raiseFatal_retval (s : State E) (c : FatalCode) (w : Word) : (s.raiseFatal c w).retval = s.retval := by
  unfold State.raiseFatal; cases s.life <;> rfl
@[simp] theorem State.raiseFatal_diagCtl (s : State E) (c : FatalCode) (w : Word) : (s.raiseFatal c w).diagCtl = s.diagCtl := by
  unfold State.raiseFatal; cases s.life <;> rfl
@[simp] theorem State.raiseFatal_diagLen (s : State E) (c : FatalCode) (w : Word) : (s.raiseFatal c w).diagLen = s.diagLen := by
  unfold State.raiseFatal; cases s.life <;> rfl
@[simp] theorem State.raiseFatal_diagDiv (s : State E) (c : FatalCode) (w : Word) : (s.raiseFatal c w).diagDiv = s.diagDiv := by
  unfold State.raiseFatal; cases s.life <;> rfl
@[simp] theorem State.raiseFatal_upc (s : State E) (c : FatalCode) (w : Word) : (s.raiseFatal c w).upc = s.upc := by
  unfold State.raiseFatal; cases s.life <;> rfl
@[simp] theorem State.raiseFatal_seg (s : State E) (c : FatalCode) (w : Word) : (s.raiseFatal c w).seg = s.seg := by
  unfold State.raiseFatal; cases s.life <;> rfl
@[simp] theorem State.raiseFatal_regs (s : State E) (c : FatalCode) (w : Word) : (s.raiseFatal c w).regs = s.regs := by
  unfold State.raiseFatal; cases s.life <;> rfl
@[simp] theorem State.raiseFatal_inLen (s : State E) (c : FatalCode) (w : Word) : (s.raiseFatal c w).inLen = s.inLen := by
  unfold State.raiseFatal; cases s.life <;> rfl
@[simp] theorem State.raiseFatal_acc (s : State E) (c : FatalCode) (w : Word) : (s.raiseFatal c w).acc = s.acc := by
  unfold State.raiseFatal; cases s.life <;> rfl
@[simp] theorem State.raiseFatal_rs (s : State E) (c : FatalCode) (w : Word) : (s.raiseFatal c w).rs = s.rs := by
  unfold State.raiseFatal; cases s.life <;> rfl
@[simp] theorem State.raiseFatal_rsEpoch (s : State E) (c : FatalCode) (w : Word) : (s.raiseFatal c w).rsEpoch = s.rsEpoch := by
  unfold State.raiseFatal; cases s.life <;> rfl
@[simp] theorem State.raiseFatal_mem (s : State E) (c : FatalCode) (w : Word) : (s.raiseFatal c w).mem = s.mem := by
  unfold State.raiseFatal; cases s.life <;> rfl
@[simp] theorem State.raiseFatal_lens (s : State E) (c : FatalCode) (w : Word) : (s.raiseFatal c w).lens = s.lens := by
  unfold State.raiseFatal; cases s.life <;> rfl
@[simp] theorem State.raiseFatal_diag (s : State E) (c : FatalCode) (w : Word) : (s.raiseFatal c w).diag = s.diag := by
  unfold State.raiseFatal; cases s.life <;> rfl
@[simp] theorem State.raiseFatal_inbox (s : State E) (c : FatalCode) (w : Word) : (s.raiseFatal c w).inbox = s.inbox := by
  unfold State.raiseFatal; cases s.life <;> rfl
@[simp] theorem State.raiseFatal_answer (s : State E) (c : FatalCode) (w : Word) : (s.raiseFatal c w).answer = s.answer := by
  unfold State.raiseFatal; cases s.life <;> rfl

/-! ### `resetOver` -/

@[simp] theorem State.reset_eq : State.reset = State.resetOver Config.env := rfl
@[simp] theorem State.resetOver_life : (State.resetOver E).life = .unconfigured := rfl
@[simp] theorem State.resetOver_vok : (State.resetOver E).vok = false := rfl
@[simp] theorem State.resetOver_faultCode : (State.resetOver E).faultCode = .none := rfl
@[simp] theorem State.resetOver_faultInfo : (State.resetOver E).faultInfo = 0 := rfl
@[simp] theorem State.resetOver_retval : (State.resetOver E).retval = 0 := rfl
@[simp] theorem State.resetOver_diagCtl : (State.resetOver E).diagCtl = 0 := rfl
@[simp] theorem State.resetOver_diagLen : (State.resetOver E).diagLen = 0 := rfl
@[simp] theorem State.resetOver_diagDiv : (State.resetOver E).diagDiv = 0 := rfl
@[simp] theorem State.resetOver_upc : (State.resetOver E).upc = 0 := rfl
@[simp] theorem State.resetOver_seg : (State.resetOver E).seg = 0 := rfl
@[simp] theorem State.resetOver_regs : (State.resetOver E).regs = CfgRegs.zero := rfl
@[simp] theorem State.resetOver_inLen : (State.resetOver E).inLen = 0 := rfl
@[simp] theorem State.resetOver_acc : (State.resetOver E).acc = E.freeAcc := rfl
@[simp] theorem State.resetOver_rs : (State.resetOver E).rs = E.freeRState 0 := rfl
@[simp] theorem State.resetOver_rsEpoch : (State.resetOver E).rsEpoch = 0 := rfl
@[simp] theorem State.resetOver_diag : (State.resetOver E).diag = [] := rfl
@[simp] theorem State.resetOver_inbox : (State.resetOver E).inbox = [] := rfl
@[simp] theorem State.resetOver_answer : (State.resetOver E).answer = none := rfl

/-! ### `hardReset` -/

@[simp] theorem State.hardReset_mem (s : State E) : s.hardReset.mem = s.mem.forgetAll := rfl
@[simp] theorem State.hardReset_lens (s : State E) : s.hardReset.lens = s.lens.forgetAll := rfl
@[simp] theorem State.hardReset_diag (s : State E) : s.hardReset.diag = s.diag := rfl
@[simp] theorem State.hardReset_inbox (s : State E) : s.hardReset.inbox = s.inbox := rfl
@[simp] theorem State.hardReset_answer (s : State E) : s.hardReset.answer = s.answer := rfl
@[simp] theorem State.hardReset_rs (s : State E) : s.hardReset.rs = E.freeRState (s.rsEpoch + 1) := rfl
@[simp] theorem State.hardReset_rsEpoch (s : State E) : s.hardReset.rsEpoch = s.rsEpoch + 1 := rfl
@[simp] theorem State.hardReset_life (s : State E) : s.hardReset.life = (State.resetOver E).life := rfl
@[simp] theorem State.hardReset_vok (s : State E) : s.hardReset.vok = (State.resetOver E).vok := rfl
@[simp] theorem State.hardReset_faultCode (s : State E) : s.hardReset.faultCode = (State.resetOver E).faultCode := rfl
@[simp] theorem State.hardReset_faultInfo (s : State E) : s.hardReset.faultInfo = (State.resetOver E).faultInfo := rfl
@[simp] theorem State.hardReset_retval (s : State E) : s.hardReset.retval = (State.resetOver E).retval := rfl
@[simp] theorem State.hardReset_diagCtl (s : State E) : s.hardReset.diagCtl = (State.resetOver E).diagCtl := rfl
@[simp] theorem State.hardReset_diagLen (s : State E) : s.hardReset.diagLen = (State.resetOver E).diagLen := rfl
@[simp] theorem State.hardReset_diagDiv (s : State E) : s.hardReset.diagDiv = (State.resetOver E).diagDiv := rfl
@[simp] theorem State.hardReset_upc (s : State E) : s.hardReset.upc = (State.resetOver E).upc := rfl
@[simp] theorem State.hardReset_seg (s : State E) : s.hardReset.seg = (State.resetOver E).seg := rfl
@[simp] theorem State.hardReset_regs (s : State E) : s.hardReset.regs = (State.resetOver E).regs := rfl
@[simp] theorem State.hardReset_inLen (s : State E) : s.hardReset.inLen = (State.resetOver E).inLen := rfl
@[simp] theorem State.hardReset_acc (s : State E) : s.hardReset.acc = (State.resetOver E).acc := rfl

/-! ### Readings -/

@[simp] theorem State.advance_cfg (s : State E) : s.advance.cfg = s.cfg := rfl
@[simp] theorem State.advance_segLen (s : State E) : s.advance.segLen = s.segLen := rfl
@[simp] theorem State.advance_sample (s : State E) (sp : SampleSpace) (a : Nat) : s.advance.sample sp a = s.sample sp a := rfl
@[simp] theorem State.advance_olen (s : State E) (c : Nat) : s.advance.olen c = s.olen c := rfl
@[simp] theorem State.setBank_cfg (s : State E) (sp : SampleSpace) (b : Bank E.Cx) : (s.setBank sp b).cfg = s.cfg := rfl
@[simp] theorem State.setLens_cfg (s : State E) (l : Latches) : (s.setLens l).cfg = s.cfg := rfl
@[simp] theorem State.setLens_sample (s : State E) (l : Latches) (sp : SampleSpace) (a : Nat) :
    (s.setLens l).sample sp a = s.sample sp a := rfl
@[simp] theorem State.setLens_olen (s : State E) (l : Latches) (c : Nat) : (s.setLens l).olen c = s.olen c := rfl
@[simp] theorem State.setAcc_cfg (s : State E) (z : E.Cx) : (s.setAcc z).cfg = s.cfg := rfl
@[simp] theorem State.setAcc_sample (s : State E) (z : E.Cx) (sp : SampleSpace) (a : Nat) :
    (s.setAcc z).sample sp a = s.sample sp a := rfl
@[simp] theorem State.setAcc_olen (s : State E) (z : E.Cx) (c : Nat) : (s.setAcc z).olen c = s.olen c := rfl
@[simp] theorem State.setResult_cfg (s : State E) (r : E.RState) (w : Word) : (s.setResult r w).cfg = s.cfg := rfl
@[simp] theorem State.setResult_sample (s : State E) (r : E.RState) (w : Word) (sp : SampleSpace) (a : Nat) :
    (s.setResult r w).sample sp a = s.sample sp a := rfl
@[simp] theorem State.setResult_olen (s : State E) (r : E.RState) (w : Word) (c : Nat) :
    (s.setResult r w).olen c = s.olen c := rfl
@[simp] theorem State.store_cfg (s : State E) (sp : SampleSpace) (a : Nat) (vs : List E.Cx) : (s.store sp a vs).cfg = s.cfg := rfl
@[simp] theorem State.store_segLen (s : State E) (sp : SampleSpace) (a : Nat) (vs : List E.Cx) :
    (s.store sp a vs).segLen = s.segLen := rfl
@[simp] theorem State.storeRows_cfg (s : State E) (sp : SampleSpace) (rows : List (Nat × List E.Cx)) :
    (s.storeRows sp rows).cfg = s.cfg := rfl
@[simp] theorem State.raiseFatal_cfg (s : State E) (c : FatalCode) (w : Word) : (s.raiseFatal c w).cfg = s.cfg := by
  simp [State.cfg]
@[simp] theorem State.failLength_cfg (s : State E) (b : Bound) (n d u : Nat) : (s.failLength b n d u).cfg = s.cfg := rfl

@[simp] theorem State.advance_inputLen (s : State E) : s.advance.inputLen = s.inputLen := rfl
@[simp] theorem State.setBank_segLen (s : State E) (sp : SampleSpace) (b : Bank E.Cx) :
    (s.setBank sp b).segLen = s.segLen := rfl
@[simp] theorem State.setLens_segLen (s : State E) (l : Latches) : (s.setLens l).segLen = s.segLen := rfl
@[simp] theorem State.setAcc_segLen (s : State E) (z : E.Cx) : (s.setAcc z).segLen = s.segLen := rfl
@[simp] theorem State.setResult_segLen (s : State E) (r : E.RState) (w : Word) : (s.setResult r w).segLen = s.segLen := rfl
@[simp] theorem State.storeRows_segLen (s : State E) (sp : SampleSpace) (rows : List (Nat × List E.Cx)) :
    (s.storeRows sp rows).segLen = s.segLen := rfl
@[simp] theorem State.setBank_olen (s : State E) (sp : SampleSpace) (b : Bank E.Cx) (c : Nat) :
    (s.setBank sp b).olen c = s.olen c := by
  simp [State.olen]

@[simp] theorem State.store_olen (s : State E) (sp : SampleSpace) (a : Nat) (vs : List E.Cx) (c : Nat) :
    (s.store sp a vs).olen c = s.olen c := by
  simp [State.olen]

@[simp] theorem State.storeRows_olen (s : State E) (sp : SampleSpace) (rows : List (Nat × List E.Cx)) (c : Nat) :
    (s.storeRows sp rows).olen c = s.olen c := by
  simp [State.olen]

/-- A sample space reads as before a `MemWrite` into another (R60: the spaces are disjoint). -/
theorem State.sample_store_other (s : State E) (sp sq : SampleSpace) (a j : Nat) (vs : List E.Cx) (h : sq ≠ sp) :
    (s.store sp a vs).sample sq j = s.sample sq j := by
  simp [State.sample, Memory.setBank_bank_other _ _ _ _ h]

/-- `MemRead` inside the range of a `MemWrite`. -/
theorem State.sample_store_inside (s : State E) (sp : SampleSpace) (a k : Nat) (vs : List E.Cx) (h : k < vs.length) :
    (s.store sp a vs).sample sp (a + k) = vs[k] := by
  simp [State.sample, Bank.read_writeSeq_inside _ _ _ _ _ h]

/-- `MemRead` outside the range of a `MemWrite`. -/
theorem State.sample_store_outside (s : State E) (sp : SampleSpace) (a j : Nat) (vs : List E.Cx)
    (h : j < a ∨ a + vs.length ≤ j) : (s.store sp a vs).sample sp j = s.sample sp j := by
  simp [State.sample, Bank.read_writeSeq_outside _ _ _ _ _ h]

theorem State.sample_storeRows_other (s : State E) (sp sq : SampleSpace) (j : Nat) (rows : List (Nat × List E.Cx))
    (h : sq ≠ sp) : (s.storeRows sp rows).sample sq j = s.sample sq j := by
  simp [State.sample, Memory.setBank_bank_other _ _ _ _ h]

theorem State.sample_storeRows_outside (s : State E) (sp : SampleSpace) (j : Nat) (rows : List (Nat × List E.Cx))
    (h : ∀ row ∈ rows, j < row.1 ∨ row.1 + row.2.length ≤ j) : (s.storeRows sp rows).sample sp j = s.sample sp j := by
  simp [State.sample, Bank.read_writeRows_outside _ _ _ _ h]

@[simp] theorem State.samples_length (s : State E) (sp : SampleSpace) (a n : Nat) : (s.samples sp a n).length = n := by
  simp [State.samples]

@[simp] theorem State.samples_getElem (s : State E) (sp : SampleSpace) (a n k : Nat) (h : k < (s.samples sp a n).length) :
    (s.samples sp a n)[k] = s.sample sp (a + k) := by
  simp [State.samples]

theorem State.store_wf (s : State E) (sp : SampleSpace) (a : Nat) (vs : List E.Cx) (h : s.mem.wf = true) :
    (s.store sp a vs).mem.wf = true :=
  Memory.setBank_wf _ _ _ h (Bank.writeSeq_wf _ _ _ (Memory.bank_wf _ _ h))

theorem State.storeRows_wf (s : State E) (sp : SampleSpace) (rows : List (Nat × List E.Cx)) (h : s.mem.wf = true) :
    (s.storeRows sp rows).mem.wf = true :=
  Memory.setBank_wf _ _ _ h (Bank.writeRows_wf _ _ (Memory.bank_wf _ _ h))

end Sys2Proof.Machine
end

