-- ==== Sys2Proof/Laws/Ops.lean ====
section
/-! SUPPORT. What each shared operation and each micro-operation answers, said once: the state it leaves past its
guards, and that it keeps memory canonical. Later proofs cite these and unfold none of them. -/

namespace Sys2Proof.Machine

variable {E : Env}

/-! ### Guards -/

theorem withChannel_inside (i : Nat) (s done : State E) (h : i < s.cfg.chanM) : withChannel i s done = done :=
  if_neg (Nat.not_le.2 h)

theorem withChannel_outside (i : Nat) (s done : State E) (h : s.cfg.chanM ≤ i) :
    withChannel i s done = s.raiseFatal .chanRange (BitVec.ofNat 32 i) :=
  if_pos h

theorem withSegment_fits (sp : SampleSpace) (s done : State E) (h : s.segLen ≤ s.cfg.segCap) :
    withSegment sp s done = done :=
  if_neg (Nat.not_lt.2 h)

/-- A property that a fault keeps and the operation's own effect has, the guarded operation has. -/
theorem withChannel_cases {p : State E → Prop} (i : Nat) (s done : State E)
    (hf : p (s.raiseFatal .chanRange (BitVec.ofNat 32 i))) (hd : p done) : p (withChannel i s done) := by
  unfold withChannel
  split <;> assumption

theorem withSegment_cases {p : State E → Prop} (sp : SampleSpace) (s done : State E)
    (hf : p (s.raiseFatal .access (sampleSpaceId sp))) (hd : s.segLen ≤ s.cfg.segCap → p done) :
    p (withSegment sp s done) := by
  unfold withSegment State.raiseAccess
  split
  · exact hf
  · exact hd (by omega)

theorem whenIdle_cases {p : State E → Prop} (w : Word) (s done : State E) (hs : s.life = .fault → p s)
    (hu : s.life = .unconfigured → p (s.raiseFatal .state w)) (hb : s.life = .busy → p (s.raiseFatal .reentry w))
    (hd : s.life = .idle → p done) : p (whenIdle w s done) := by
  unfold whenIdle
  cases h : s.life
  exacts [hu h, hd h, hb h, hs h]

/-! ### Micro-operations past their guards -/

theorem pbReset_eq (i : Nat) (s : State E) (hi : i < s.cfg.chanM) (hs : s.segLen ≤ s.cfg.segCap) :
    pbReset i s =
      (((s.store .win (winRow s.cfg i) (List.replicate (s.cfg.partLen + s.segLen) E.num.czero)).store .wout
          (bufRow s.cfg i) (List.replicate s.segLen E.num.czero)).setLens
        { s.lens with win := s.lens.win.write i s.segLen, wout := s.lens.wout.write i s.segLen }).advance := by
  rw [pbReset, withChannel_inside _ _ _ hi, withSegment_fits _ _ _ hs]

theorem pbDeint_eq (i : Nat) (s : State E) (hi : i < s.cfg.chanM) (hs : s.segLen ≤ s.cfg.segCap) :
    pbDeint i s = (s.store .win (segRow s.cfg i) (deinterleaved s i)).advance := by
  rw [pbDeint, withChannel_inside _ _ _ hi, withSegment_fits _ _ _ hs]

theorem pbSplice_eq (i : Nat) (s : State E) (hi : i < s.cfg.chanM) :
    pbSplice i s = (s.store .win (winRow s.cfg i) (s.samples .hist (tapRow s.cfg i) s.cfg.partLen)).advance := by
  rw [pbSplice, withChannel_inside _ _ _ hi]

theorem pbConv_eq (i : Nat) (s : State E) (hi : i < s.cfg.chanM) (hs : s.segLen ≤ s.cfg.segCap) :
    pbConv i s =
      ((s.store .wout (bufRow s.cfg i) (convolved s i)).setAcc
        ((convolved s i).getLast?.getD s.acc)).advance := by
  rw [pbConv, withChannel_inside _ _ _ hi, withSegment_fits _ _ _ hs]

theorem pbHupd_eq (i : Nat) (s : State E) (hi : i < s.cfg.chanM) (hs : s.segLen ≤ s.cfg.segCap) :
    pbHupd i s =
      (s.store .hist (tapRow s.cfg i) (s.samples .win (winRow s.cfg i + s.segLen) s.cfg.partLen)).advance := by
  rw [pbHupd, withChannel_inside _ _ _ hi, withSegment_fits _ _ _ hs]

theorem ssIlv_eq (s : State E) (hs : s.segLen ≤ s.cfg.segCap) :
    ssIlv s =
      ((s.store .fbuf 0 (interleaved s)).setLens
        { s.lens with fbuf := s.lens.fbuf.write 0 (s.cfg.chanM * s.segLen) }).advance := by
  rw [ssIlv, withSegment_fits _ _ _ hs]

theorem ssFft_eq (s : State E) (hs : s.segLen ≤ s.cfg.segCap) :
    ssFft s = (s.setBank .fbuf (transformed s)).advance := by
  rw [ssFft, withSegment_fits _ _ _ hs]

theorem ssDlv_eq (s : State E) (hs : s.segLen ≤ s.cfg.segCap) :
    ssDlv s =
      ((s.storeRows .sout ((List.range s.cfg.chanM).map fun c => (bufRow s.cfg c, deliveredRow s c))).setLens
        { s.lens with sout := s.lens.sout.writeSeq 0 (List.replicate s.cfg.chanM s.segLen) }).advance := by
  rw [ssDlv, withSegment_fits _ _ _ hs]

theorem resamp_eq (s : State E) (hs : s.segLen ≤ s.cfg.segCap)
    (ho : ∀ c < s.cfg.chanM, (s.olen c).toNat ≤ s.cfg.outCap) :
    resamp s = resampleStore s (resampleCall s) := by
  rw [resamp, withSegment_fits _ _ _ hs, if_neg]
  simpa using ho

theorem firstOverlong_none (s : State E) (h : ∀ c < s.cfg.chanM, (s.olen c).toNat ≤ s.cfg.outCap) :
    firstOverlong s = none := by
  simp only [firstOverlong, List.find?_eq_none, List.mem_map, List.mem_range]
  rintro l ⟨c, hc, rfl⟩
  simpa using h c hc

theorem firstOverlong_some (s : State E) (c : Nat) (hc : c < s.cfg.chanM) (ho : s.cfg.outCap < (s.olen c).toNat)
    (hd : ∀ d < c, (s.olen d).toNat ≤ s.cfg.outCap) : firstOverlong s = some (s.olen c) := by
  have hfind : (List.range s.cfg.chanM).find? ((fun l => decide (s.cfg.outCap < l.toNat)) ∘ s.olen) = some c := by
    rw [List.find?_range_eq_some]
    simpa [ho, hc] using hd
  rw [firstOverlong, List.find?_map, hfind, Option.map_some]

/-! ### Lists the operations write -/

@[simp] theorem deinterleaved_length (s : State E) (i : Nat) : (deinterleaved s i).length = s.segLen := by
  simp [deinterleaved]

@[simp] theorem convolved_length (s : State E) (i : Nat) : (convolved s i).length = s.segLen := by
  simp [convolved]

@[simp] theorem deliveredRow_length (s : State E) (c : Nat) : (deliveredRow s c).length = s.segLen := by
  simp [deliveredRow]

theorem flatMap_range_length {α : Type} (n m : Nat) (f : Nat → Nat → α) :
    ((List.range n).flatMap fun k => (List.range m).map (f k)).length = n * m := by
  induction n with
  | zero => simp
  | succ n ih => simp [List.range_succ, List.flatMap_append, Nat.succ_mul]

theorem flatMap_range_getElem? {α : Type} (n m k c : Nat) (f : Nat → Nat → α) (hk : k < n) (hc : c < m) :
    ((List.range n).flatMap fun k => (List.range m).map (f k))[k * m + c]? = some (f k c) := by
  induction n with
  | zero => omega
  | succ n ih =>
    have hlen := flatMap_range_length n m f
    rw [List.range_succ, List.flatMap_append]
    rcases Nat.lt_or_ge k n with h | h
    · have h1 : k * m + m ≤ n * m := by
        rw [← Nat.succ_mul]
        exact Nat.mul_le_mul_right m h
      rw [List.getElem?_append_left (by omega)]
      exact ih h
    · obtain rfl : k = n := by omega
      rw [List.getElem?_append_right (by omega), hlen]
      simp [hc]

@[simp] theorem interleaved_length (s : State E) : (interleaved s).length = s.segLen * s.cfg.chanM :=
  flatMap_range_length _ _ _

theorem interleaved_getElem? (s : State E) (k c : Nat) (hk : k < s.segLen) (hc : c < s.cfg.chanM) :
    (interleaved s)[k * s.cfg.chanM + c]? = some (s.sample .wout (bufRow s.cfg c + k)) :=
  flatMap_range_getElem? _ _ k c _ hk hc

/-! ### Canonical form -/

theorem transformed_wf (s : State E) (h : s.mem.fbuf.wf = true) : (transformed s).wf = true := by
  unfold transformed
  generalize s.mem.fbuf = b at h
  induction List.range s.segLen generalizing b with
  | nil => exact h
  | cons k ks ih => exact ih _ (Bank.writeSeq_wf _ _ _ h)

theorem Latches.wf_iff (l : Latches) :
    l.wf = true ↔ l.win.wf = true ∧ l.wout.wf = true ∧ l.fbuf.wf = true ∧ l.sout.wf = true := by
  simp [Latches.wf, and_assoc]

end Sys2Proof.Machine
end

