-- ==== Sys2Proof/Laws/PerInstr.lean ====
section
/-! SUPPORT. One family over all operations: the fields of the word that spells each (R91, R92). -/

namespace Sys2Proof.Laws.EncodeFields

/-- A well-formed operation is spelled with its opcode, a zero `rsv` field, and its channel, or zero, in `ch`. -/
def Statement (i : Instr) : Prop :=
  i.wellFormed = true →
    opcodeField (encode i) = opcodeOf i ∧ reservedField (encode i) = 0 ∧
      (channelField (encode i)).toNat = i.channel?.getD 0

/-- An operation without a channel. -/
theorem plain (i : Instr) (h : i.channel? = none) : Statement i := fun _ => by simp [h]

/-- An operation on a channel. -/
theorem onChannel (i : Instr) (ch : Nat) (h : i.channel? = some ch) : Statement i := fun hw => by
  simp only [Instr.wellFormed, h, decide_eq_true_eq] at hw
  simp [h, Nat.mod_eq_of_lt hw]

theorem nop : Statement .nop := plain _ rfl
theorem construct : Statement .construct := plain _ rfl
theorem rotate : Statement .rotate := plain _ rfl
theorem destroy : Statement .destroy := plain _ rfl
theorem validate : Statement .validate := plain _ rfl
theorem pbReset (ch : Nat) : Statement (.pbReset ch) := onChannel _ ch rfl
theorem pbDeint (ch : Nat) : Statement (.pbDeint ch) := onChannel _ ch rfl
theorem pbSplice (ch : Nat) : Statement (.pbSplice ch) := onChannel _ ch rfl
theorem pbConv (ch : Nat) : Statement (.pbConv ch) := onChannel _ ch rfl
theorem pbHupd (ch : Nat) : Statement (.pbHupd ch) := onChannel _ ch rfl
theorem ssIlv : Statement .ssIlv := plain _ rfl
theorem ssFft : Statement .ssFft := plain _ rfl
theorem ssDlv : Statement .ssDlv := plain _ rfl
theorem resamp : Statement .resamp := plain _ rfl
theorem ret : Statement .ret := plain _ rfl

end Sys2Proof.Laws.EncodeFields
end

