-- ==== Sys2Proof/Laws/Step.lean ====
section
/-! SUPPORT. What the micro-program holds and what a step can do, said once: later proofs case on these and unfold
neither `uprog` nor `fetch`. -/

namespace Sys2Proof.Machine

variable {E : Env}

/-! ### The micro-program -/

theorem uprog_isSome (m u : Nat) (h : u ≤ retIndex m) : ∃ w, uprog m u = some w := by
  unfold retIndex at h
  unfold uprog
  split_ifs <;> first | exact ⟨_, rfl⟩ | omega

/-- A word of the partition bank class, put together from its function number and its channel (R91, R171). -/
theorem bankWord_eq (k i : Nat) (_ : k < 5) (hi : i < 65536) :
    BitVec.ofNat 32 (0x20000000 + k * 0x01000000 + i) =
      BitVec.ofNat 8 (0x20 + k) ++ (0 : BitVec 8) ++ BitVec.ofNat 16 i := by
  apply BitVec.eq_of_toNat_eq
  simp only [BitVec.toNat_append, BitVec.toNat_ofNat]
  rw [← Nat.shiftLeft_add_eq_or_of_lt (by omega), ← Nat.shiftLeft_add_eq_or_of_lt (by simp)]
  have h0 : (0 : BitVec 8).toNat = 0 := rfl
  rw [h0]
  simp only [Nat.shiftLeft_eq]
  omega

/-- What decoding such a word gives. -/
theorem decode_bankWord (k i : Nat) (hk : k < 5) (hi : i < 65536) :
    some (decode (BitVec.ofNat 32 (0x20000000 + k * 0x01000000 + i))) = (operationOf (0x20 + k) i).map .op := by
  rw [bankWord_eq k i hk hi]
  unfold decode
  rw [opcodeField_append, reservedField_append, channelField_append]
  have hi' : (BitVec.ofNat 16 i).toNat = i := Nat.mod_eq_of_lt hi
  have hk' : (BitVec.ofNat 8 (0x20 + k)).toNat = 0x20 + k := Nat.mod_eq_of_lt (by omega)
  rw [hi', hk']
  interval_cases k <;> simp [operationOf, Instr.channel?]

/-- The operation at an index of the micro-program, with the index it stands at (R171). -/
theorem uprog_operation (m u : Nat) (w : Word) (hm : m ≤ 65536) (h : uprog m u = some w) :
    ∃ i, decode w = .op i ∧ u = indexOf m i ∧ i.isHostCommand = false ∧ ∀ c, i.channel? = some c → c < m := by
  unfold uprog at h
  split_ifs at h with h0 h1 h2 h3 h4 h5 h6
  · cases h
    exact ⟨.validate, by decide, h0, rfl, by simp [Instr.channel?]⟩
  · cases h
    have hd := decode_bankWord ((u - 1) % 5) ((u - 1) / 5) (by omega) (by omega)
    have hlt : (u - 1) / 5 < m := by omega
    have hu : u = 1 + 5 * ((u - 1) / 5) + (u - 1) % 5 := by omega
    have hk : (u - 1) % 5 < 5 := by omega
    generalize (u - 1) % 5 = k at hd hu hk ⊢
    generalize (u - 1) / 5 = i at hd hu hlt ⊢
    interval_cases k <;> simp only [operationOf, Option.map_some, Option.some.injEq] at hd
    · exact ⟨.pbReset i, hd, hu, rfl, by simpa [Instr.channel?] using hlt⟩
    · exact ⟨.pbDeint i, hd, hu, rfl, by simpa [Instr.channel?] using hlt⟩
    · exact ⟨.pbSplice i, hd, hu, rfl, by simpa [Instr.channel?] using hlt⟩
    · exact ⟨.pbConv i, hd, hu, rfl, by simpa [Instr.channel?] using hlt⟩
    · exact ⟨.pbHupd i, hd, hu, rfl, by simpa [Instr.channel?] using hlt⟩
  · cases h
    exact ⟨.ssIlv, by decide, h2, rfl, by simp [Instr.channel?]⟩
  · cases h
    exact ⟨.ssFft, by decide, h3, rfl, by simp [Instr.channel?]⟩
  · cases h
    exact ⟨.ssDlv, by decide, h4, rfl, by simp [Instr.channel?]⟩
  · cases h
    exact ⟨.resamp, by decide, h5, rfl, by simp [Instr.channel?]⟩
  · cases h
    exact ⟨.ret, by decide, h6, rfl, by simp [Instr.channel?]⟩

/-! ### What a step can do -/

/-- The sequencer's turn: in BUSY one micro-operation, else nothing; or the model's own stop. -/
theorem sequencerTurn_cases {p : Fetch E → Prop} (s : State E) (hq : s.life ≠ .busy → p (.done s))
    (hr : ∀ w i, s.life = .busy → uprog s.cfg.chanM s.upc.toNat = some w → decode w = .op i → p (.run i s))
    (hn : s.life = .busy → uprog s.cfg.chanM s.upc.toNat = none → p (.stop .upcOutsideMicroProgram))
    (hi : ∀ w why, s.life = .busy → uprog s.cfg.chanM s.upc.toNat = some w → decode w = .illegal why →
      p (.stop .illegalMicroWord)) : p (sequencerTurn s) := by
  unfold sequencerTurn
  cases hl : s.life with
  | busy =>
    cases hw : uprog s.cfg.chanM s.upc.toNat with
    | none => exact hn hl hw
    | some w =>
      cases hd : decode w with
      | op i => simpa [hd] using hr w i hl hw hd
      | illegal why => simpa [hd] using hi w why hl hw hd
  | _ => exact hq (by simp [hl])

/-- What `fetch` can say: a micro-operation of the sequencer, a host command, the effect of one host event, or a stop
of the sequencer. -/
theorem fetch_cases {p : Fetch E → Prop} (s : State E)
    (hturn : s.inbox = [] ∨ (s.life = .busy ∧ ∃ rest, s.inbox = .await :: rest) → p (sequencerTurn s))
    (hquiet : ∀ rest, s.inbox = .quiet :: rest → p (sequencerTurn { s with inbox := rest }))
    (hawait : ∀ rest, s.inbox = .await :: rest → s.life ≠ .busy → p (.done { s with inbox := rest }))
    (hrw : ∀ sp a rest, s.inbox = .readWord sp a :: rest → p (.done (hostReadWord { s with inbox := rest } sp a)))
    (hww : ∀ sp a v rest, s.inbox = .writeWord sp a v :: rest → p (hostWriteWord { s with inbox := rest } sp a v))
    (hrs : ∀ sp a rest, s.inbox = .readSample sp a :: rest → p (.done (hostReadSample { s with inbox := rest } sp a)))
    (hws : ∀ sp a z rest, s.inbox = .writeSample sp a z :: rest →
      p (.done (hostWriteSample { s with inbox := rest } sp a z)))
    (hreset : ∀ rest, s.inbox = .hardReset :: rest → p (.done { s with inbox := rest }.hardReset)) : p (fetch s) := by
  unfold fetch
  split
  · exact hturn (Or.inl ‹_›)
  · exact hquiet _ ‹_›
  · split_ifs with h
    · exact hturn (Or.inr ⟨h, _, ‹_›⟩)
    · exact hawait _ ‹_› h
  · exact hrw _ _ _ ‹_›
  · exact hww _ _ _ _ ‹_›
  · exact hrs _ _ _ ‹_›
  · exact hws _ _ _ _ ‹_›
  · exact hreset _ ‹_›

/-- A host write of a word: a command, a command refused, a register, or an element of `OLEN`. -/
theorem hostWriteWord_cases {p : Fetch E → Prop} (s : State E) (sp : WordSpace) (a : Nat) (v : Word)
    (hrun : ∀ i, sp = .csr → a = 0x12 → decode v = .op i → i.isHostCommand = true → p (.run i s))
    (hrefuse : sp = .csr → a = 0x12 → (∀ i, decode v = .op i → i.isHostCommand = false) →
      p (.done (refuseCommand s v)))
    (hcsr : sp = .csr → a ≠ 0x12 → p (.done (hostWriteCsr s a v)))
    (holen : sp = .olen → p (.done (hostWriteOlen s a v))) : p (hostWriteWord s sp a v) := by
  unfold hostWriteWord
  cases sp with
  | olen => exact holen rfl
  | csr =>
    by_cases ha : a = 0x12
    · rw [if_pos ha]
      unfold issueCommand
      cases hd : decode v with
      | op i =>
        cases hi : i.isHostCommand with
        | true => simpa [hi] using hrun i rfl ha hd hi
        | false =>
          simpa [hi] using hrefuse rfl ha fun j hj => by
            rw [hd] at hj
            cases hj
            exact hi
      | illegal why => exact hrefuse rfl ha fun i hi => by simp [hd] at hi
    · rw [if_neg ha]
      exact hcsr rfl ha

end Sys2Proof.Machine
end

