-- ==== Sys2Proof/Tests/Slice0.lean ====
section
/-! SUPPORT. Tests. Expected values are those of the worked examples in the rules and of `95_test_vectors.md`, under
`NUM_EXACT`, `FFT_REF` and the test collaborators defined there; each test's comment names its source. -/

namespace Sys2Proof.Tests

open Sys2Proof Sys2Proof.Machine

/-! ### Helpers -/

/-- A Resampler with no state of its own, over the samples of `NUM_EXACT` (R30: the unit type). -/
abbrev TestResampler := ResamplerFn numExact.Cx DataType.unit.El

/-- `RESAMPLER_COPY` of `95_test_vectors.md`. -/
def resamplerCopy : TestResampler := fun _ rs inputs _ old =>
  (rs, fun c k => ((inputs c)[k.val]?).getD (old c k), ((List.ofFn inputs).head?.map fun x => (x.length : Int)).getD 0)

/-- `RESAMPLER_FAIL(e)` of `95_test_vectors.md`. -/
def resamplerFail (e : Int) : TestResampler := fun _ rs _ _ old => (rs, old, e)

/-- The parameters of the test vectors. -/
abbrev exact (r : TestResampler) : Env :=
  { num := numExact, fft := fftRef numExact exactRoot, rState := .unit, resampler := r, rs0 := ⟨()⟩
    freeSample := fun _ _ _ => numExact.czero, freeRState := fun _ => ⟨()⟩, freeAcc := numExact.czero }

/-- A real sample. -/
def re (x : Int) : numExact.Cx := gauss x 0

/-- A space whose first elements are listed. -/
def bankOf {α : Type} (vs : List α) : Bank α := { epoch := 0, cells := vs.zipIdx.map fun p => (p.2, p.1) }

/-- The registers of program P1: `M = 2`, `L = 2`, `P = 1`, `Q = 2`, `mul = 1`, capacities 2. -/
def p1Regs : CfgRegs :=
  { chanM := 2, partLen := 2, resampLen := 0, p := 1, q := 2, mul := 1, variant := 0, segCap := 2, outCap := 2 }

/-- Program P1 before its ROTATE: `COEF = [[1, 2], [3, 4]]`, zero history, `IN = [1, 2, 3, 4]`, `OLEN = [2, 2]`; `x`
spells the numbers as samples. -/
def p1On (E : Env) (x : Int → E.Cx) : State E :=
  { State.resetOver E with
    life := .idle
    regs := p1Regs
    inLen := 4
    mem := { (State.resetOver E).mem with
      coef := bankOf [x 1, x 2, x 3, x 4]
      hist := bankOf [x 0, x 0, x 0, x 0]
      inp := bankOf [x 1, x 2, x 3, x 4]
      olen := bankOf [2, 2]
      out := bankOf [x 0, x 0, x 0, x 0] }
    lens := { win := bankOf [0, 0], wout := bankOf [0, 0], fbuf := bankOf [0], sout := bankOf [0, 0] } }

/-- In its ROTATE, about to run the entry `u` past VALIDATE. -/
def atEntry {E : Env} (s : State E) (u : Word) : State E := { s with life := .busy, upc := u, vok := true, seg := 2 }

/-- Program P1 under the parameters of the test vectors. -/
def vec (r : TestResampler) : State (exact r) := p1On _ re

/-- The same in its ROTATE, under `RESAMPLER_COPY`. -/
def vecAt (u : Word) : State (exact resamplerCopy) := atEntry (vec resamplerCopy) u

/-- Program P1 in the machine itself, whose samples are open: every one of them is `czero`. -/
def p1 : State := p1On _ fun _ => Config.num.czero

/-- The same in its ROTATE. -/
def p1At (u : Word) : State := atEntry p1 u

/-- A fault recorded. -/
def faulty : State := p1.faulted .reentry 5

/-- Registers set, no instance. -/
def bare : State := { p1 with life := .unconfigured }

/-- A state with other contents of one space. -/
def fill {E : Env} (s : State E) (sp : SampleSpace) (vs : List E.Cx) : State E := s.setBank sp (bankOf vs)

/-- The row of `n` elements from `a`. -/
def row {E : Env} (s : State E) (sp : SampleSpace) (a n : Nat) : List E.Cx := s.samples sp a n

/-- What a state after an outcome answers. -/
def after {α : Type} (o : Host.Outcome State Fault Refusal) (f : State → α) : Option α :=
  match o with
  | .next s => some (f s)
  | .fault _ => none
  | .refused _ => none

/-- The instruction a fetch runs. -/
def fetched : Fetch → Option Instr
  | .run i _ => some i
  | .done _ => none
  | .stop _ => none

/-- The host has one thing to do. -/
def host (s : State) (e : HostEvent) : State := { s with inbox := [e] }

/-! ### Well-formedness -/

/-- R93: the channel field holds `0 .. 65535`. -/
theorem test_wellFormed_refuses_channel_65536 :
    (Instr.pbReset 65536).wellFormed = false ∧ (Instr.pbDeint 65536).wellFormed = false ∧
      (Instr.pbSplice 65536).wellFormed = false ∧ (Instr.pbConv 65536).wellFormed = false ∧
      (Instr.pbHupd 65536).wellFormed = false := by decide

theorem test_wellFormed_accepts :
    (Instr.pbReset 65535).wellFormed = true ∧ (Instr.pbDeint 65535).wellFormed = true ∧
      (Instr.pbSplice 65535).wellFormed = true ∧ (Instr.pbConv 65535).wellFormed = true ∧
      (Instr.pbHupd 65535).wellFormed = true ∧ Instr.ret.wellFormed = true := by decide

/-! ### Decoding: words written out from R91 and R92 as cls, fn, rsv, ch -/

theorem test_decode_nop : decode ((0b0000 : BitVec 4) ++ (0b0000 : BitVec 4) ++ (0 : BitVec 24)) = .op .nop := by decide
theorem test_decode_construct :
    decode ((0b0000 : BitVec 4) ++ (0b0001 : BitVec 4) ++ (0 : BitVec 24)) = .op .construct := by decide
theorem test_decode_rotate :
    decode ((0b0000 : BitVec 4) ++ (0b0010 : BitVec 4) ++ (0 : BitVec 24)) = .op .rotate := by decide
theorem test_decode_destroy :
    decode ((0b0000 : BitVec 4) ++ (0b0011 : BitVec 4) ++ (0 : BitVec 24)) = .op .destroy := by decide
theorem test_decode_validate :
    decode ((0b0001 : BitVec 4) ++ (0b0000 : BitVec 4) ++ (0 : BitVec 24)) = .op .validate := by decide
theorem test_decode_pbReset :
    decode ((0b0010 : BitVec 4) ++ (0b0000 : BitVec 4) ++ (0 : BitVec 8) ++ (0b1000000000000001 : BitVec 16)) =
      .op (.pbReset 32769) := by decide
theorem test_decode_pbDeint :
    decode ((0b0010 : BitVec 4) ++ (0b0001 : BitVec 4) ++ (0 : BitVec 8) ++ (0b0000000100000000 : BitVec 16)) =
      .op (.pbDeint 256) := by decide
theorem test_decode_pbSplice :
    decode ((0b0010 : BitVec 4) ++ (0b0010 : BitVec 4) ++ (0 : BitVec 8) ++ (0b1111111111111111 : BitVec 16)) =
      .op (.pbSplice 65535) := by decide
theorem test_decode_pbConv :
    decode ((0b0010 : BitVec 4) ++ (0b0011 : BitVec 4) ++ (0 : BitVec 8) ++ (0b0000000000000010 : BitVec 16)) =
      .op (.pbConv 2) := by decide
theorem test_decode_pbHupd :
    decode ((0b0010 : BitVec 4) ++ (0b0100 : BitVec 4) ++ (0 : BitVec 8) ++ (0b0000000010000000 : BitVec 16)) =
      .op (.pbHupd 128) := by decide
theorem test_decode_ssIlv :
    decode ((0b0011 : BitVec 4) ++ (0b0000 : BitVec 4) ++ (0 : BitVec 24)) = .op .ssIlv := by decide
theorem test_decode_ssFft :
    decode ((0b0011 : BitVec 4) ++ (0b0001 : BitVec 4) ++ (0 : BitVec 24)) = .op .ssFft := by decide
theorem test_decode_ssDlv :
    decode ((0b0011 : BitVec 4) ++ (0b0010 : BitVec 4) ++ (0 : BitVec 24)) = .op .ssDlv := by decide
theorem test_decode_resamp :
    decode ((0b0100 : BitVec 4) ++ (0b0000 : BitVec 4) ++ (0 : BitVec 24)) = .op .resamp := by decide
theorem test_decode_ret :
    decode ((0b0100 : BitVec 4) ++ (0b0001 : BitVec 4) ++ (0 : BitVec 24)) = .op .ret := by decide

/-- R94: the neighbours of the listed opcodes, each reserved bit at an end of its field, `ch` outside class 2. -/
theorem test_decode_illegal :
    decode 0x04000000 = .illegal .unlistedOpcode ∧ decode 0x11000000 = .illegal .unlistedOpcode ∧
      decode 0x25000000 = .illegal .unlistedOpcode ∧ decode 0x33000000 = .illegal .unlistedOpcode ∧
      decode 0x42000000 = .illegal .unlistedOpcode ∧ decode 0xFFFFFFFF = .illegal .unlistedOpcode ∧
      decode 0x20010000 = .illegal .reservedNotZero ∧ decode 0x24800000 = .illegal .reservedNotZero ∧
      decode 0x00000001 = .illegal .channelNotZero ∧ decode 0x41008000 = .illegal .channelNotZero := by decide

/-- R62: the byte at the lowest bus address holds bits 7 to 0. -/
theorem test_decode_bytes : decodeBytes [0x02, 0x00, 0x00, 0x23, 0x99] = some (.op (.pbConv 2), [0x99]) := by decide

theorem test_decode_bytes_short : decodeBytes [0x02, 0x00, 0x00] = none := by decide

theorem test_decodeTableWord :
    decodeTableWord 32 0x2400FFFF = some (.pbHupd 65535) ∧ decodeTableWord 32 0x24010000 = none := by decide

/-- R97, its own example. -/
theorem test_lineOf : lineOf (.pbConv 3) = "PB_CONV 3" ∧ lineOf .ssIlv = "SS_ILV" := by decide

/-! ### The micro-program and the step -/

/-- R171 for `M = 2`. -/
theorem test_uprog_two_channels :
    (List.range 17).map (uprog 2) =
      [some 0x10000000, some 0x20000000, some 0x21000000, some 0x22000000, some 0x23000000, some 0x24000000,
       some 0x20000001, some 0x21000001, some 0x22000001, some 0x23000001, some 0x24000001, some 0x30000000,
       some 0x31000000, some 0x32000000, some 0x40000000, some 0x41000000, none] := by decide

/-- Every row of R92, placed after reset, is what the next step runs. -/
theorem test_fetch_runs_placed_word :
    [0x00000000, 0x01000000, 0x02000000, 0x03000000, 0x10000000, 0x20000007, 0x2100FFFF, 0x22000000, 0x23000001,
      0x24000002, 0x30000000, 0x31000000, 0x32000000, 0x40000000, 0x41000000].map
        (fun w => fetched (fetch (State.reset.withFetchWord 32 w))) =
      [some .nop, some .construct, some .rotate, some .destroy, some .validate, some (.pbReset 7),
       some (.pbDeint 65535), some (.pbSplice 0), some (.pbConv 1), some (.pbHupd 2), some .ssIlv, some .ssFft,
       some .ssDlv, some .resamp, some .ret] := by decide

/-- And the step it runs in gives a next state. -/
theorem test_step_runs_placed_word :
    [0x00000000, 0x01000000, 0x02000000, 0x03000000, 0x10000000, 0x20000007, 0x2100FFFF, 0x22000000, 0x23000001,
      0x24000002, 0x30000000, 0x31000000, 0x32000000, 0x40000000, 0x41000000].all
        (fun w => (after (step (State.reset.withFetchWord 32 w)) fun _ => ()).isSome) = true := by decide

/-! ### NOP, CONSTRUCT, DESTROY, ROTATE -/

/-- R190: in BUSY `F_REENTRY(0)`. -/
theorem test_nop_busy :
    after (exec .nop (p1At 3)) (fun t => (t.life, t.faultCode, t.faultInfo, t.upc)) =
      some (.fault, .reentry, 0, 3) := by decide

/-- R191, the example: `HIST = [[0,0],[0,0]]`, `LIFE = IDLE`, `COEF` kept. -/
theorem test_construct_zero_history :
    let t := construct { vec resamplerCopy with life := .unconfigured, inLen := 9, seg := 7 }
    t.life = .idle ∧ row t .hist 0 4 = [re 0, re 0, re 0, re 0] ∧ row t .coef 0 4 = [re 1, re 2, re 3, re 4] ∧
      t.csrRead 0x11 = 0 := by decide +kernel

/-- T11: the first failing condition of R6, five configurations and one that fails two. -/
theorem test_construct_first_failing_condition :
    [cfgFailing { p1.cfg with chanM := 0 }, cfgFailing { p1.cfg with variant := 1 },
      cfgFailing { p1.cfg with chanM := 3 }, cfgFailing { p1.cfg with chanM := 65537, q := 65537 },
      cfgFailing { p1.cfg with q := 65536, mul := 65536 }, cfgFailing { p1.cfg with chanM := 0, variant := 1 },
      cfgFailing p1.cfg] = [some 1, some 2, some 3, some 4, some 5, some 1, none] := by decide

/-- R192: the configuration stays, `IN_LEN` and `UPC` are zero. -/
theorem test_destroy_idle :
    after (exec .destroy { p1 with upc := 15 }) (fun t => (t.life, t.csrRead 0x08, t.csrRead 0x11, t.csrRead 0x06)) =
      some (.unconfigured, 2, 0, 0) := by decide

/-- R192, the example: DESTROY where there is no instance takes `F_STATE`. -/
theorem test_destroy_unconfigured :
    after (exec .destroy bare) (fun t => (t.statusWord, t.faultInfo)) = some (0x33, 0x03000000) := by decide

/-- R170. -/
theorem test_rotate_starts :
    after (exec .rotate { p1 with upc := 15 }) (fun t => (t.life, t.upc, t.inLen)) = some (.busy, 0, 4) := by decide

/-- R170: without an instance `F_STATE(0x02000000)`. -/
theorem test_rotate_unconfigured :
    after (exec .rotate bare) (fun t => (t.statusWord, t.faultInfo)) = some (0x33, 0x02000000) := by decide

/-! ### VALIDATE -/

/-- T1 rows a and b, the source's own example: `M = 8`, `Q = 8`, `mul = 1`, `N = 128` and `N = 127`. -/
def eight (n : Len) : State :=
  { p1 with life := .busy, inLen := n, regs := { p1Regs with chanM := 8, q := 8, segCap := 16 },
            mem := { p1.mem with olen := bankOf [0, 0, 0, 0, 0, 0, 0, 0] } }

theorem test_validate_passes :
    after (exec .validate (eight 128)) (fun t => (t.vok, t.seg, t.diagCtl, t.upc)) = some (true, 16, 0, 1) := by decide

theorem test_validate_fails :
    after (exec .validate (eight 127)) (fun t => ((t.vok, t.seg, t.diagCtl, t.diagLen, t.diagDiv),
      t.retval, t.upc, t.diag)) =
      some ((false, 0, 1, 127, 8), 0xFFFFFFFF, 45, [⟨.input, 127, 8⟩]) := by decide

/-! ### The partition bank -/

/-- R131, the example: `L = 2`, `S = 2`; the row of channel 1 is not touched. -/
theorem test_pbReset :
    let t := pbReset 0 (fill (vecAt 1) .win (List.replicate 8 (re 9)))
    row t .win 0 8 = [re 0, re 0, re 0, re 0, re 9, re 9, re 9, re 9] ∧ row t .wout 0 2 = [re 0, re 0] ∧
      t.winLen 0 = 2 ∧ t.woutLen 0 = 2 ∧ t.winLen 1 = 0 ∧ t.upc = 2 := by decide +kernel

/-- R132, the example: `IN = [1, 2, 3, 4]` gives channel 0 `[2, 4]` and channel 1 `[1, 3]`. -/
theorem test_pbDeint :
    row (pbDeint 0 (vecAt 2)) .win 2 2 = [re 2, re 4] ∧ row (pbDeint 1 (vecAt 7)) .win 6 2 = [re 1, re 3] := by decide +kernel

/-- T2: `PB_DEINT 2` with `M = 2` takes `F_CHAN_RANGE(2)`. -/
theorem test_pbDeint_out_of_range :
    after (exec (.pbDeint 2) (p1At 2)) (fun t => (t.statusWord, t.faultInfo, t.upc)) = some (0x57, 2, 2) := by decide

/-- R133, the example of T3: `HIST[0] = [2, 4]`, segment `[6, 8]`. -/
theorem test_pbSplice :
    row (pbSplice 0 (fill (fill (vecAt 3) .hist [re 2, re 4]) .win [re 0, re 0, re 6, re 8])) .win 0 4 =
      [re 2, re 4, re 6, re 8] := by decide +kernel

/-- R134, the example: `COEF[0] = [1, 2]`, `w_0 = [0, 0, 2, 4]` gives `[4, 10]`. -/
theorem test_pbConv :
    let t := pbConv 0 (fill (vecAt 4) .win [re 0, re 0, re 2, re 4])
    row t .wout 0 2 = [re 4, re 10] ∧ t.acc = re 10 ∧ t.upc = 5 := by decide +kernel

/-- T4, no conjugation: `COEF[0] = [1, j]`, `w_0 = [0, 0, 4, 4j]` gives `[4j, 0]`. -/
theorem test_pbConv_complex :
    row (pbConv 0
      (fill (fill (vecAt 4) .coef [re 1, gauss 0 1]) .win [re 0, re 0, re 4, gauss 0 4])) .wout 0 2 =
      [gauss 0 4, re 0] := by decide +kernel

/-- R135, the example: `w_0 = [0, 0, 2, 4]`, `S = 2`. -/
theorem test_pbHupd :
    row (pbHupd 0 (fill (vecAt 5) .win [re 0, re 0, re 2, re 4])) .hist 0 4 = [re 2, re 4, re 0, re 0] := by decide +kernel

/-- R135, the example with `S = 1` below `L`: `w_0 = [5, 6, 7]` gives `[6, 7]`. -/
theorem test_pbHupd_short :
    row (pbHupd 0 { fill (vecAt 5) .win [re 5, re 6, re 7] with seg := 1 }) .hist 0 2 = [re 6, re 7] := by decide +kernel

/-! ### The spectral stage -/

/-- R151, the example. -/
theorem test_ssIlv :
    let t := ssIlv (fill (vecAt 11) .wout [re 4, re 10, re 4, re 15])
    row t .fbuf 0 4 = [re 4, re 4, re 10, re 15] ∧ t.fbufLen = 4 ∧ t.upc = 12 := by decide +kernel

/-- R152, the example. -/
theorem test_ssFft :
    row (ssFft (fill (vecAt 12) .fbuf [re 4, re 4, re 10, re 15])) .fbuf 0 4 =
      [re 8, re 0, re 25, re (-5)] := by decide +kernel

/-- R153, the example. -/
theorem test_ssDlv :
    let t := ssDlv (fill (vecAt 13) .fbuf [re 8, re 0, re 25, re (-5)])
    row t .sout 0 4 = [re 8, re 25, re 0, re (-5)] ∧ t.soutLen 0 = 2 ∧ t.soutLen 1 = 2 := by decide +kernel

/-! ### RESAMP, RET, ROTATE as one function -/

/-- R176, the example. -/
theorem test_resamp_copy :
    let t := resamp (fill (vecAt 14) .sout [re 8, re 25, re 0, re (-5)])
    row t .out 0 4 = [re 8, re 25, re 0, re (-5)] ∧ t.returnCode = 2 ∧ t.upc = 15 := by decide +kernel

/-- R176, R202: a negative result is stored as any other; one that does not fit takes `F_RETRANGE` before any write. -/
theorem test_resamp_result_range :
    (resamp (atEntry (vec (resamplerFail (-7))) 14)).returnCode = -7 ∧
      (resamp (atEntry (vec (resamplerFail (-2147483648))) 14)).returnCode = -2147483648 ∧
      (resamp (atEntry (vec (resamplerFail 2147483648)) 14)).statusWord = 0x87 ∧
      (resamp (atEntry (vec (resamplerFail 2147483648)) 14)).faultInfo = 0x80000000 ∧
      (resamp (atEntry (vec (resamplerFail 2147483648)) 14)).upc = 14 := by decide +kernel

/-- R178, the example: after the failing VALIDATE with `M = 8`. -/
theorem test_ret :
    after (exec .ret ((eight 127).failLength .input 127 8 45)) (fun t => (t.life, t.upc, t.returnCode)) =
      some (.idle, 45, -1) := by decide

/-- Program P1, its first ROTATE, by the function of R174. -/
theorem test_rotateOnce_p1 :
    let t := rotateOnce (vec resamplerCopy)
    row t .out 0 4 = [re 8, re 25, re 0, re (-5)] ∧ row t .hist 0 4 = [re 2, re 4, re 1, re 3] ∧ t.returnCode = 2 ∧
      t.upc = 15 ∧ t.statusWord = 5 := by decide +kernel

/-! ### The host port -/

/-- R66, R94, R95: one refusal of each kind. -/
theorem test_host_refusals :
    after (step (host p1 (.writeWord .csr 0x12 0x10000000))) (fun t => (t.statusWord, t.faultInfo)) =
        some (0x23, 0x10000000) ∧
      after (step (host p1 (.writeWord .csr 0x08 4))) (fun t => (t.statusWord, t.faultInfo)) = some (0x73, 0) ∧
      after (step (host (p1At 4) (.readSample .hist 0))) (fun t => (t.statusWord, t.faultInfo)) = some (0x77, 2) ∧
      after (step (host p1 (.writeSample .inp 4 Config.num.czero))) (fun t => (t.statusWord, t.faultInfo)) = some (0x73, 3) ∧
      after (step (host p1 (.readWord .olen 2))) (fun t => (t.statusWord, t.faultInfo)) = some (0x73, 4) := by decide

/-- R61, R97: `COEFW 1, 0, 9` with `L = 2` writes element 2; the command of R97 is a write of `csr[CMD]`. -/
theorem test_host_directives :
    HostEvent.writeSample .coef 2 (re 9) = coefw p1.cfg 1 0 (re 9) ∧
      (hostWriteSample { vec resamplerCopy with life := .unconfigured } .coef 2 (re 9)).samples .coef 0 4 =
        [re 1, re 2, re 9, re 4] ∧
      after (step (host p1 (command .rotate))) (fun t => t.life) = some .busy := by decide +kernel

/-- R40, the table: every register at a value of its own, read by number. -/
theorem test_register_map :
    let s : State :=
      { p1 with retval := 1, diagCtl := 2, diagLen := 3, diagDiv := 4, faultInfo := 5, upc := 6, seg := 7, inLen := 17,
                regs := { chanM := 8, partLen := 9, resampLen := 10, p := 11, q := 12, mul := 13, variant := 14,
                          segCap := 15, outCap := 16 } }
    (List.range 20).map s.csrRead = [1, 1, 2, 3, 4, 5, 6, 7, 8, 9, 10, 11, 12, 13, 14, 15, 16, 17, 0, 0] := by decide

/-- R31, R40: bit 31 of `IN_LEN` reads as zero and ignores writes. -/
theorem test_host_writes_in_len :
    after (step (host p1 (.writeWord .csr 0x11 0x80000003))) (fun t => (t.csrRead 0x11, t.life)) =
      some (3, .idle) := by decide

/-! ### NUM_F32 (G1): patterns of exact binary32 sums and products, and one tie to even -/

theorem test_f32_add :
    f32Add 0x3F800000 0x3F800000 = 0x40000000 ∧ f32Add 0x3F800000 0xBF800000 = 0 ∧
      f32Add 0x3F800000 0x33800000 = 0x3F800000 ∧ f32Add 0x7F7FFFFF 0x7F7FFFFF = 0x7F800000 := by decide +kernel

theorem test_f32_mul :
    f32Mul 0x3FC00000 0x3FC00000 = 0x40100000 ∧ f32Mul 0x00000001 0x40000000 = 0x00000002 ∧
      f32Mul 0x7F800000 0x00000000 = 0x7FC00000 := by decide +kernel

/-- R62: real part first, each little-endian; `1 - 2j`. -/
theorem test_f32_bytes : f32Bytes (f32Pair 0x3F800000 0xC0000000) = [0, 0, 0x80, 0x3F, 0, 0, 0, 0xC0] := by decide

/-! ### Witnesses: a concrete state and operands that meet the hypotheses of each statement together -/

/-- With a host event in hand and other life-cycle state. -/
def at_ (l : Life) (e : HostEvent) : State := { host p1 e with life := l }

theorem witness_DecodeOfEncode : (Instr.pbHupd 65535).wellFormed = true ∧ Instr.nop.wellFormed = true := by decide

theorem witness_EncodeOfDecode : decode 0x2400FFFF = .op (.pbHupd 65535) ∧ decode 0 = .op .nop := by decide

theorem witness_MicroProgramEntries :
    (65536 : Nat) ≤ 65536 ∧ (65535 : Nat) < 65536 ∧ uprog 65536 (1 + 5 * 65535 + 4) = some 0x2400FFFF ∧
      uprog 65536 (5 * 65536 + 6) = none := by decide

theorem witness_MicroProgramReads :
    (2 : Nat) ≤ 65536 ∧ pbankOps 2 = [.pbReset 0, .pbDeint 0, .pbSplice 0, .pbConv 0, .pbHupd 0, .pbReset 1,
      .pbDeint 1, .pbSplice 1, .pbConv 1, .pbHupd 1] := by decide

theorem witness_StepRunsMicroOperation :
    (p1At 14).life = .busy ∧ uprog (p1At 14).cfg.chanM (p1At 14).upc.toNat = some 0x40000000 ∧
      decode 0x40000000 = .op .resamp ∧ (p1At 14).inbox = [] ∧ (host (p1At 14) .quiet).inbox = .quiet :: [] ∧
      (host (p1At 14) .await).inbox = .await :: [] := by decide

theorem witness_StepRunsHostCommand :
    (host p1 (.writeWord .csr 0x12 0x03000000)).inbox = .writeWord .csr 0x12 0x03000000 :: [] ∧
      decode 0x03000000 = .op .destroy ∧ Instr.destroy.isHostCommand = true := by decide

theorem witness_StepWithoutWorkChangesNothing :
    p1.life ≠ .busy ∧ p1.inbox = [] ∧ (host bare .quiet).life ≠ .busy ∧ (host bare .quiet).inbox = .quiet :: [] ∧
      (host p1 .await).life ≠ .busy ∧ (host p1 .await).inbox = .await :: [] := by decide

theorem witness_HardwareResetStep : (host faulty .hardReset).inbox = .hardReset :: [] ∧ faulty.life = .fault := by decide

theorem witness_FaultIsSticky :
    (host faulty (.writeWord .csr 0x12 0x03000000)).life = .fault ∧
      (HostEvent.writeWord .csr 0x12 0x03000000 : HostEvent) ≠ .hardReset := by decide

theorem witness_CommandByLifeCycleState :
    ([Life.unconfigured, .idle, .busy, .fault].map fun l =>
      (after (step (at_ l (.writeWord .csr 0x12 0x02000000))) fun t => (t.life, t.faultCode))) =
        [some (.fault, .state), some (.busy, .none), some (.fault, .reentry), some (.fault, .none)] ∧
      (0x10000000 : Word).extractLsb' 28 4 ≠ 0 ∧ (∃ why, decode 0x00000001 = .illegal why) :=
  ⟨by decide, by decide, .channelNotZero, by decide⟩

theorem witness_NopFollowsItsRule :
    bare.life = .unconfigured ∧ p1.life = .idle ∧ faulty.life = .fault ∧ (p1At 3).life = .busy := by decide

theorem witness_WellFormedConfigurations :
    cfgWellFormed p1.cfg = true ∧ cfgFailing { p1.cfg with outCap := 2147483648 } = some 5 ∧
      cfgFailing { p1.cfg with outCap := 2147483647 } = none := by decide

theorem witness_ConstructCreatesInstance : bare.life = .unconfigured ∧ cfgWellFormed bare.cfg = true := by decide

theorem witness_ConstructRefusals :
    State.reset.life = .unconfigured ∧ cfgFailing State.reset.cfg = some 1 ∧ p1.life = .idle ∧
      (p1At 3).life = .busy ∧ faulty.life = .fault := by decide

theorem witness_DestroyFollowsItsRule :
    p1.life = .idle ∧ bare.life = .unconfigured ∧ (p1At 3).life = .busy ∧ faulty.life = .fault := by decide

/-- `N = M * SEG_CAP` and `OLEN[c] = OUT_CAP`: both capacities met exactly. -/
theorem witness_ValidatePasses :
    p1.inLen.toNat % (p1.cfg.q * p1.cfg.mul) = 0 ∧ (p1.olen 0).toNat % (p1.cfg.p * p1.cfg.mul) = 0 ∧
      p1.inLen.toNat = p1.cfg.chanM * p1.cfg.segCap ∧ (p1.olen 0).toNat = p1.cfg.outCap ∧
      ∀ c < p1.cfg.chanM, (p1.olen c).toNat ≤ p1.cfg.outCap := by decide

/-- A misaligned output beside an aligned input. -/
def oddOut : State :=
  { p1 with regs := { p1Regs with p := 2 }, mem := { p1.mem with olen := bankOf [1, 2] } }

theorem witness_ValidateFailsOnMisalignedLength :
    ({ p1 with inLen := 3 } : State).inLen.toNat % (p1.cfg.q * p1.cfg.mul) ≠ 0 ∧
      oddOut.inLen.toNat % (oddOut.cfg.q * oddOut.cfg.mul) = 0 ∧
      (oddOut.olen 0).toNat % (oddOut.cfg.p * oddOut.cfg.mul) ≠ 0 := by decide

/-- One group too many in the input; and channel 1's output one too long, channel 0's not. -/
theorem witness_ValidateCapacityFault :
    (let s : State := { p1 with inLen := 6 }
     s.life ≠ .fault ∧ s.inLen.toNat % (s.cfg.q * s.cfg.mul) = 0 ∧ (s.olen 0).toNat % (s.cfg.p * s.cfg.mul) = 0 ∧
       s.cfg.chanM * s.cfg.segCap < s.inLen.toNat) ∧
    (let s : State := { p1 with mem := { p1.mem with olen := bankOf [2, 3] } }
     s.life ≠ .fault ∧ s.inLen.toNat % (s.cfg.q * s.cfg.mul) = 0 ∧ (s.olen 0).toNat % (s.cfg.p * s.cfg.mul) = 0 ∧
       1 < s.cfg.chanM ∧ s.inLen.toNat ≤ s.cfg.chanM * s.cfg.segCap ∧ s.cfg.outCap < (s.olen 1).toNat ∧
       ∀ d < 1, (s.olen d).toNat ≤ s.cfg.outCap) := by decide

theorem witness_ValidateGuarantees :
    cfgWellFormed (p1At 0).cfg = true ∧ (p1At 0).life = .busy ∧
      ∃ t, exec .validate (p1At 0) = .next t ∧ t.life = .busy ∧ t.vok = true :=
  ⟨by decide, by decide, _, rfl, by decide, by decide⟩

/-- The last channel with a segment that fills its row, and the first channel there is not; so in all five of the bank. -/
theorem witness_PbResetClearsChannel :
    1 < (p1At 1).cfg.chanM ∧ (p1At 1).segLen ≤ (p1At 1).cfg.segCap ∧ (p1At 1).cfg.segCap ≤ (p1At 1).segLen ∧
      (p1At 1).cfg.chanM ≤ 2 ∧ (p1At 1).life ≠ .fault := by decide

theorem witness_PbDeintTakesReverseOrder :
    1 < (p1At 2).cfg.chanM ∧ (p1At 2).segLen ≤ (p1At 2).cfg.segCap ∧ (p1At 2).cfg.chanM ≤ 2 ∧
      (p1At 2).life ≠ .fault := by decide

theorem witness_PbSplicePrependsHistory :
    1 < (p1At 3).cfg.chanM ∧ (p1At 3).cfg.chanM ≤ 2 ∧ (p1At 3).life ≠ .fault := by decide

theorem witness_PbConvCorrelates :
    1 < (p1At 4).cfg.chanM ∧ (p1At 4).segLen ≤ (p1At 4).cfg.segCap ∧ (p1At 4).cfg.chanM ≤ 2 ∧
      (p1At 4).life ≠ .fault := by decide

theorem witness_PbConvLeavesLastSum :
    1 < (p1At 4).cfg.chanM ∧ (p1At 4).segLen ≤ (p1At 4).cfg.segCap ∧ 0 < (p1At 4).segLen ∧ p1.segLen = 0 ∧
      (∃ t, exec (.pbConv 1) (p1At 4) = .next t) ∧ ∃ t, exec (.pbConv 1) p1 = .next t :=
  ⟨by decide, by decide, by decide, by decide, ⟨_, rfl⟩, _, rfl⟩

theorem witness_PbHupdKeepsTail :
    1 < (p1At 5).cfg.chanM ∧ (p1At 5).segLen ≤ (p1At 5).cfg.segCap ∧ (p1At 5).cfg.chanM ≤ 2 ∧
      (p1At 5).life ≠ .fault := by decide

theorem witness_ChannelIsOverlapSave : 1 < (p1At 1).cfg.chanM ∧ (p1At 1).segLen ≤ (p1At 1).cfg.segCap := by decide

theorem witness_BankChannelsCommute :
    (0 : Nat) ≠ 1 ∧ 0 < (p1At 1).cfg.chanM ∧ 1 < (p1At 1).cfg.chanM ∧ (p1At 1).segLen ≤ (p1At 1).cfg.segCap := by decide

theorem witness_OverlapSaveContinuity :
    ([re 2, re 4] : List numExact.Cx).length = 2 ∧
      overlapSave numExact (fun k => re (k + 1)) 2 [re 2, re 4] [re 6, re 8] = ([re 16, re 22], [re 6, re 8]) := by
  decide +kernel

theorem witness_SilenceInSilenceOut :
    (∀ k : Nat, numExact.cmul (re k) numExact.czero = numExact.czero) ∧
      numExact.cadd numExact.czero numExact.czero = numExact.czero := by
  refine ⟨fun k => ?_, by decide +kernel⟩
  simp [re, gauss]

theorem witness_ImpulseReproducesCoefficients :
    (1 : Nat) < 4 ∧ (overlapSave numExact (fun k => re (k + 1)) 2 [re 0, re 0] [re 0, re 5, re 0, re 0]).1 =
      [re 0, re 10, re 5, re 0] := by decide +kernel

theorem witness_SsIlvInterleaves : (p1At 11).segLen ≤ (p1At 11).cfg.segCap ∧ 1 < (p1At 11).segLen := by decide
theorem witness_SsFftTransformsGroups : (p1At 12).segLen ≤ (p1At 12).cfg.segCap ∧ 1 < (p1At 12).segLen := by decide
theorem witness_SsDlvDeinterleaves : (p1At 13).segLen ≤ (p1At 13).cfg.segCap ∧ 1 < (p1At 13).segLen := by decide
theorem witness_SpectralStageIsOneTransform :
    (p1At 11).segLen ≤ (p1At 11).cfg.segCap ∧ 1 < (p1At 11).segLen := by decide

theorem witness_RotateStartsMicroProgram :
    p1.life = .idle ∧ bare.life = .unconfigured ∧ (p1At 3).life = .busy ∧ faulty.life = .fault := by decide

/-- The two cases of the result, each under a collaborator that gives it, are in `test_resamp_result_range`. -/
theorem witness_ResampFollowsItsRule :
    (p1At 14).life ≠ .fault ∧ (p1At 14).segLen ≤ (p1At 14).cfg.segCap ∧
      (∀ c < (p1At 14).cfg.chanM, ((p1At 14).olen c).toNat ≤ (p1At 14).cfg.outCap) := by decide

theorem witness_FailedRotateMutatesNothing :
    (let s : State := host { p1 with inLen := 3 } (.writeWord .csr 0x12 0x02000000)
     s.life = .idle ∧ s.cfg.chanM ≤ 65536 ∧ s.inbox = [.writeWord .csr 0x12 0x02000000] ∧
       s.inLen.toNat % (s.cfg.q * s.cfg.mul) ≠ 0) ∧
    (let s : State := host oddOut (.writeWord .csr 0x12 0x02000000)
     s.life = .idle ∧ s.inbox = [.writeWord .csr 0x12 0x02000000] ∧
       (s.olen 0).toNat % (s.cfg.p * s.cfg.mul) ≠ 0) := by decide

/-- A sound state in IDLE. -/
theorem p1_sound : Sound p1 :=
  { memory := by decide
    latches := by decide
    configured := fun _ => by decide
    faultRecorded := by decide
    faultInfoZero := fun _ => by decide
    upcInRange := fun h => by cases h
    validated := fun h => by cases h
    bounded := fun _ => { win := by decide, wout := by decide, sout := by decide, fbuf := by decide }
    reported := fun _ h => by cases h }

/-- A sound state between VALIDATE and RET. -/
theorem p1At_sound : Sound (p1At 7) :=
  { memory := by decide
    latches := by decide
    configured := fun _ => by decide
    faultRecorded := by decide
    faultInfoZero := fun _ => by decide
    upcInRange := fun _ => by decide
    validated := fun _ _ _ =>
      { vok := by decide, noReport := by decide, segFits := by decide, inputLen := by decide,
        inputAligned := by decide, outputAligned := by decide, outputsFit := by decide }
    bounded := fun _ => { win := by decide, wout := by decide, sout := by decide, fbuf := by decide }
    reported := fun _ h => by cases h }

theorem witness_RotateTerminates : Sound (p1At 7) ∧ (p1At 7).life = .busy ∧ (p1At 7).inbox = [] :=
  ⟨p1At_sound, by decide, by decide⟩

theorem witness_RotateIsOneFunction : Sound p1 ∧ p1.life = .idle ∧ p1.inbox = [] :=
  ⟨p1_sound, by decide, by decide⟩

/-- The last number of the space and the first beyond it, outside FAULT and in it. -/
theorem witness_HostReadsRegisters :
    (host (p1At 4) (.readWord .csr 0xFF)).inbox = .readWord .csr 0xFF :: [] ∧ (0xFF : Nat) < 256 ∧
      (0x12 : Nat) ≤ 0xFF ∧
    [after (step (at_ .busy (.readWord .csr 255))) fun t => (t.life, t.faultCode, t.answer),
      after (step (at_ .busy (.readWord .csr 256))) fun t => (t.life, t.faultCode, t.answer),
      after (step (host faulty (.readWord .csr 255))) fun t => (t.life, t.faultCode, t.answer),
      after (step (host faulty (.readWord .csr 256))) fun t => (t.life, t.faultCode, t.answer)] =
    [some (.busy, .none, some (.word 0)), some (.fault, .access, none), some (.fault, .reentry, some (.word 0)),
      some (.fault, .reentry, none)] := by decide

/-- The ends of 0x08 to 0x10 and the numbers beside them, by the state the write is in. -/
theorem witness_HostWritesRegisters :
    [after (step (at_ .unconfigured (.writeWord .csr 0x08 7))) fun t => (t.life, t.csrRead 0x08),
      after (step (at_ .unconfigured (.writeWord .csr 0x10 7))) fun t => (t.life, t.csrRead 0x10),
      after (step (at_ .unconfigured (.writeWord .csr 0x07 7))) fun t => (t.life, t.csrRead 0x07),
      after (step (at_ .unconfigured (.writeWord .csr 0x11 7))) fun t => (t.life, t.csrRead 0x11),
      after (step (at_ .idle (.writeWord .csr 0x11 7))) fun t => (t.life, t.csrRead 0x11),
      after (step (at_ .idle (.writeWord .csr 0x13 7))) fun t => (t.life, t.csrRead 0x13),
      after (step (at_ .busy (.writeWord .csr 0x11 7))) fun t => (t.life, t.csrRead 0x11),
      after (step (at_ .fault (.writeWord .csr 0x08 7))) fun t => (t.life, t.csrRead 0x08)] =
    [some (.unconfigured, 7), some (.unconfigured, 7), some (.fault, 0), some (.fault, 4), some (.idle, 7),
      some (.fault, 0), some (.fault, 4), some (.fault, 2)] := by decide

/-- The last element of `COEF` in both states that may read it, one past it, and a space no host may touch. -/
theorem witness_HostAccessesSampleSpaces :
    [after (step (at_ .idle (.readSample .coef 3))) fun t => (t.life, t.faultInfo),
      after (step (at_ .idle (.readSample .coef 4))) fun t => (t.life, t.faultInfo),
      after (step (at_ .unconfigured (.readSample .coef 2147483646))) fun t => (t.life, t.faultInfo),
      after (step (at_ .unconfigured (.readSample .coef 2147483647))) fun t => (t.life, t.faultInfo),
      after (step (at_ .idle (.writeSample .out 3 Config.num.czero))) fun t => (t.life, t.faultInfo),
      after (step (at_ .idle (.writeSample .hist 0 Config.num.czero))) fun t => (t.life, t.faultInfo),
      after (step (at_ .idle (.readSample .sout 0))) fun t => (t.life, t.faultInfo),
      after (step (at_ .fault (.writeSample .inp 0 Config.num.czero))) fun t => (t.life, t.faultInfo)] =
    [some (.idle, 0), some (.fault, 1), some (.unconfigured, 0), some (.fault, 1), some (.idle, 0), some (.fault, 2),
      some (.fault, 9), some (.fault, 0)] := by decide

theorem witness_HostAccessesOutputLengths :
    [after (step (at_ .idle (.readWord .olen 1))) fun t => (t.life, t.answer),
      after (step (at_ .idle (.readWord .olen 2))) fun t => (t.life, t.answer),
      after (step (at_ .busy (.readWord .olen 0))) fun t => (t.life, t.answer)] =
    [some (.idle, some (.word 2)), some (.fault, none), some (.fault, none)] ∧
    [after (step (at_ .idle (.writeWord .olen 1 0x80000005))) fun t => (t.life, t.olen 1, t.olen 0),
      after (step (at_ .idle (.writeWord .olen 2 5))) fun t => (t.life, t.olen 1, t.olen 0),
      after (step (at_ .unconfigured (.writeWord .olen 0 5))) fun t => (t.life, t.olen 1, t.olen 0)] =
    [some (.idle, 5, 2), some (.fault, 2, 2), some (.fault, 2, 2)] := by decide

theorem witness_StepKeepsSound : Sound (p1At 7) ∧ ∃ t, step (p1At 7) = .next t := ⟨p1At_sound, _, rfl⟩

theorem witness_SoundStateNeverStops : Sound (p1At 7) ∧ Sound p1 := ⟨p1At_sound, p1_sound⟩

theorem witness_SequencerStaysInsideItsSpaces :
    Sound (p1At 7) ∧ (p1At 7).life = .busy ∧ (p1At 7).inbox = [] ∧ ∃ t, step (p1At 7) = .next t :=
  ⟨p1At_sound, by decide, by decide, _, rfl⟩

theorem witness_StepKeepsCanonicalForm :
    (p1At 7).mem.wf = true ∧ (p1At 7).lens.wf = true ∧ ∃ t, step (p1At 7) = .next t :=
  ⟨by decide, by decide, _, rfl⟩

theorem witness_ConfigurationAndCoefficientsFixed :
    (p1At 7).life ≠ .unconfigured ∧ ∃ t, step (p1At 7) = .next t ∧ t.life ≠ .unconfigured :=
  ⟨by decide, _, rfl, by decide⟩

/-- PB_HUPD, which writes none of the four working buffers, and SS_DLV, which writes one of them. -/
theorem witness_WritersOfTheSpaces :
    (∃ t, exec (.pbHupd 1) (p1At 10) = .next t ∧ t.mem.sout = p1.mem.sout) ∧
      ∃ t, exec .ssDlv (p1At 13) = .next t ∧ t.mem.hist = p1.mem.hist ∧ t.lens.sout ≠ p1.lens.sout :=
  ⟨⟨_, rfl, rfl⟩, _, rfl, rfl, by decide⟩

end Sys2Proof.Tests
end

