-- ==== Sys2Proof/Proofs/WellFormedness.lean ====
section
/-! O17: `cfgFailing`, the chain of tests CONSTRUCT runs, held to the numbered conditions of `WF_CFG` (R6). Each boolean
test is one condition; the chain then finds the least number that fails, of which there is at most one. -/

namespace Sys2Proof.Machine

/-- Every condition of `WF_CFG` numbered below `n` holds (R6). -/
def HoldsBelow (c : Cfg) (n : Nat) : Prop := ∀ k, 1 ≤ k → k < n → wfCondition c k

/-- `n` is the number of the first condition of `WF_CFG` that fails (R191, R209). -/
def FirstFailing (c : Cfg) (n : Nat) : Prop := 1 ≤ n ∧ n ≤ 5 ∧ ¬ wfCondition c n ∧ HoldsBelow c n

theorem holdsBelow_one (c : Cfg) : HoldsBelow c 1 := fun _ hlow hhigh => absurd hhigh (by omega)

theorem HoldsBelow.succ {c : Cfg} {n : Nat} (hbelow : HoldsBelow c n) (hn : wfCondition c n) : HoldsBelow c (n + 1) := by
  intro k hlow hhigh
  obtain hlt | rfl := Nat.lt_succ_iff_lt_or_eq.mp hhigh
  · exact hbelow k hlow hlt
  · exact hn

theorem holdsBelow_six_iff (c : Cfg) : HoldsBelow c 6 ↔ ∀ n, 1 ≤ n → n ≤ 5 → wfCondition c n :=
  forall₂_congr fun _ _ => by rw [Nat.lt_succ_iff]

/-- A first failing condition leaves some condition failing. -/
theorem FirstFailing.not_holdsBelow {c : Cfg} {n m : Nat} (hn : FirstFailing c n) (hlt : n < m) : ¬ HoldsBelow c m := by
  obtain ⟨hlow, -, hfails, -⟩ := hn
  exact fun hbelow => hfails (hbelow n hlow hlt)

theorem FirstFailing.unique {c : Cfg} {n m : Nat} (hn : FirstFailing c n) (hm : FirstFailing c m) : n = m := by
  have ⟨_, _, _, hbelowN⟩ := hn
  have ⟨_, _, _, hbelowM⟩ := hm
  obtain hlt | heq | hgt := Nat.lt_trichotomy n m
  · exact absurd hbelowM (hn.not_holdsBelow hlt)
  · exact heq
  · exact absurd hbelowN (hm.not_holdsBelow hgt)

/-! ### The tests of the chain are the conditions -/

theorem cfgPositive_iff (c : Cfg) : cfgPositive c = true ↔ wfCondition c 1 := by
  simp [cfgPositive, wfCondition, and_assoc]

theorem cfgDivides_iff (c : Cfg) : c.q * c.mul % c.chanM = 0 ↔ wfCondition c 3 := Nat.dvd_iff_mod_eq_zero.symm

theorem cfgBounded_iff (c : Cfg) : cfgBounded c = true ↔ wfCondition c 5 := by
  simp [cfgBounded, wfCondition, lengthMax, and_assoc]

/-- The chain of tests, read as the conditions in the order of R6. -/
theorem cfgFailing_eq (c : Cfg) [DecidablePred (wfCondition c)] :
    cfgFailing c =
      if ¬ wfCondition c 1 then some 1 else if ¬ wfCondition c 2 then some 2 else if ¬ wfCondition c 3 then some 3
      else if ¬ wfCondition c 4 then some 4 else if ¬ wfCondition c 5 then some 5 else none := by
  have hvariant : c.variant = 0 ↔ wfCondition c 2 := Iff.rfl
  have hchannels : c.chanM ≤ 65536 ↔ wfCondition c 4 := Iff.rfl
  simp only [cfgFailing, ← Bool.not_eq_true, ne_eq, ← Nat.not_le, cfgPositive_iff, hvariant, cfgDivides_iff, hchannels,
    cfgBounded_iff]

/-! ### What the chain answers -/

/-- The chain answers nothing when every condition holds, and otherwise the number of the first that fails. -/
theorem cfgFailing_cases (c : Cfg) :
    (cfgFailing c = none ∧ HoldsBelow c 6) ∨ ∃ n, cfgFailing c = some n ∧ FirstFailing c n := by
  classical
  rw [cfgFailing_eq]
  have below1 := holdsBelow_one c
  by_cases h1 : wfCondition c 1
  case neg => exact .inr ⟨1, by simp [h1], by decide, by decide, h1, below1⟩
  have below2 := below1.succ h1
  by_cases h2 : wfCondition c 2
  case neg => exact .inr ⟨2, by simp [h1, h2], by decide, by decide, h2, below2⟩
  have below3 := below2.succ h2
  by_cases h3 : wfCondition c 3
  case neg => exact .inr ⟨3, by simp [h1, h2, h3], by decide, by decide, h3, below3⟩
  have below4 := below3.succ h3
  by_cases h4 : wfCondition c 4
  case neg => exact .inr ⟨4, by simp [h1, h2, h3, h4], by decide, by decide, h4, below4⟩
  have below5 := below4.succ h4
  by_cases h5 : wfCondition c 5
  case neg => exact .inr ⟨5, by simp [h1, h2, h3, h4, h5], by decide, by decide, h5, below5⟩
  exact .inl ⟨by simp [h1, h2, h3, h4, h5], below5.succ h5⟩

theorem cfgFailing_eq_none_iff (c : Cfg) : cfgFailing c = none ↔ HoldsBelow c 6 := by
  obtain ⟨hnone, hall⟩ | ⟨n, hsome, hfirst⟩ := cfgFailing_cases c
  · exact iff_of_true hnone hall
  · have ⟨_, hn, _, _⟩ := hfirst
    exact iff_of_false (by simp [hsome]) (hfirst.not_holdsBelow (Nat.lt_succ_of_le hn))

theorem cfgFailing_eq_some_iff (c : Cfg) (n : Nat) : cfgFailing c = some n ↔ FirstFailing c n := by
  obtain ⟨hnone, hall⟩ | ⟨m, hsome, hfirst⟩ := cfgFailing_cases c
  · refine iff_of_false (by simp [hnone]) fun hfirst => ?_
    have ⟨_, hn, _, _⟩ := hfirst
    exact hfirst.not_holdsBelow (Nat.lt_succ_of_le hn) hall
  · rw [hsome, Option.some_inj]
    exact ⟨fun heq => heq ▸ hfirst, hfirst.unique⟩

theorem cfgWellFormed_iff (c : Cfg) : cfgWellFormed c = true ↔ HoldsBelow c 6 := by
  rw [cfgWellFormed, Option.isNone_iff_eq_none, cfgFailing_eq_none_iff]

/-- Settles O17: the chain of tests finds the first failing condition, which is unique, and none when all five hold. -/
theorem wellFormedConfigurations : Obligations.WellFormedConfigurations := fun c =>
  ⟨(cfgWellFormed_iff c).trans (holdsBelow_six_iff c), cfgFailing_eq_some_iff c⟩

end Sys2Proof.Machine
end

