-- ==== Sys2Proof/Proofs/StepRules.lean ====
section
/-! O8, and the rules the proofs about a step rest on: one equation of `step` per host event, one case rule per host
access, and `Turn`, which says once what a step can make of a state. -/

namespace Sys2Proof.Machine

variable {E : Env}

/-! ### One equation of `step` per thing a step can be -/

theorem step_of_run {s q : State} {i : Instr} (h : fetch s = .run i q) : step s = exec i q := by simp [step, h]

theorem step_of_done {s t : State} (h : fetch s = .done t) : step s = .next t := by simp [step, h]

section
variable {s : State} {rest : List HostEvent}

theorem step_readWord {sp : WordSpace} {a : Nat} (h : s.inbox = .readWord sp a :: rest) :
    step s = .next (hostReadWord { s with inbox := rest } sp a) := step_of_done (by simp [fetch, h])

theorem step_readSample {sp : SampleSpace} {a : Nat} (h : s.inbox = .readSample sp a :: rest) :
    step s = .next (hostReadSample { s with inbox := rest } sp a) := step_of_done (by simp [fetch, h])

theorem step_writeSample {sp : SampleSpace} {a : Nat} {z : Config.num.Cx} (h : s.inbox = .writeSample sp a z :: rest) :
    step s = .next (hostWriteSample { s with inbox := rest } sp a z) := step_of_done (by simp [fetch, h])

theorem step_writeOlen {c : Nat} {v : Word} (h : s.inbox = .writeWord .olen c v :: rest) :
    step s = .next (hostWriteOlen { s with inbox := rest } c v) := step_of_done (by simp [fetch, hostWriteWord, h])

theorem step_writeCsr {n : Nat} {v : Word} (h : s.inbox = .writeWord .csr n v :: rest) (hn : n ≠ 0x12) :
    step s = .next (hostWriteCsr { s with inbox := rest } n v) := step_of_done (by simp [fetch, hostWriteWord, h, hn])

theorem step_hardReset (h : s.inbox = .hardReset :: rest) : step s = .next { s with inbox := rest }.hardReset :=
  step_of_done (by simp [fetch, h])

end

/-! ### The sequencer's turn -/

theorem sequencerTurn_busy {s : State E} {w : Word} {i : Instr} (hl : s.life = .busy)
    (hw : uprog s.cfg.chanM s.upc.toNat = some w) (hd : decode w = .op i) : sequencerTurn s = .run i s := by
  simp [sequencerTurn, hl, hw, hd]

theorem sequencerTurn_not_busy {s : State E} (hl : s.life ≠ .busy) : sequencerTurn s = .done s := by
  unfold sequencerTurn
  cases h : s.life <;> simp_all

/-- Settles O8: the sequencer's turn runs the operation at `UPC`, and all three inboxes give it the turn. -/
theorem stepRunsMicroOperation : Obligations.StepRunsMicroOperation := by
  intro s w i hl hw hd
  refine ⟨fun hinbox => ?_, fun rest hinbox => ?_, fun rest hinbox => ?_⟩
  · exact step_of_run (by rw [fetch, hinbox]; exact sequencerTurn_busy hl hw hd)
  · exact step_of_run (by rw [fetch, hinbox]; exact sequencerTurn_busy hl hw hd)
  · exact step_of_run (by rw [fetch, hinbox]; exact (if_pos hl).trans (sequencerTurn_busy hl hw hd))

/-! ### Every operation answers a next state -/

/-- The state an operation leaves. -/
def effect : Instr → State E → State E
  | .nop => nop
  | .construct => construct
  | .rotate => rotate
  | .destroy => destroy
  | .validate => validate
  | .pbReset i => pbReset i
  | .pbDeint i => pbDeint i
  | .pbSplice i => pbSplice i
  | .pbConv i => pbConv i
  | .pbHupd i => pbHupd i
  | .ssIlv => ssIlv
  | .ssFft => ssFft
  | .ssDlv => ssDlv
  | .resamp => resamp
  | .ret => ret

theorem exec_eq_next_effect (i : Instr) (s : State) : exec i s = .next (effect i s) := by cases i <;> rfl

theorem effect_of_exec {i : Instr} {s t : State} (h : exec i s = .next t) : effect i s = t := by
  rw [exec_eq_next_effect] at h
  exact Host.Outcome.next.inj h

/-! ### A refusal is a fatal fault

In `LIFE = FAULT` a refused access and a fault entry alike leave the state as it is, so one form serves all states. -/

/-- A word the host port refuses takes a fault that has a code. -/
theorem refuseCommand_eq (s : State E) (w : Word) : ∃ c, c ≠ .none ∧ refuseCommand s w = s.raiseFatal c w := by
  unfold refuseCommand
  cases h : s.life
  case fault => exact ⟨.illegal, by decide, (s.raiseFatal_fault _ _ h).symm⟩
  case busy => exact ⟨.reentry, by decide, rfl⟩
  all_goals exact ⟨.illegal, by decide, rfl⟩

/-- CONSTRUCT takes a fault that has a code, or runs `construction` (R191). -/
theorem construct_cases {p : State E → Prop} (s : State E) (hfault : ∀ c w, c ≠ .none → p (s.raiseFatal c w))
    (hnew : s.life = .unconfigured → cfgWellFormed s.cfg = true → p (construction s)) : p (construct s) := by
  unfold construct
  split
  case h_1 => exact hfault _ _ (by decide)
  case h_2 => exact hfault _ _ (by decide)
  case h_3 h => simpa [s.raiseFatal_fault _ _ h] using hfault .state 0 (by decide)
  case h_4 h =>
    cases hc : cfgFailing s.cfg with
    | some n => exact hfault _ _ (by decide)
    | none => exact hnew h (by simp [cfgWellFormed, hc])

/-- NOP does nothing, or finds the block in BUSY. -/
theorem nop_cases {p : State E → Prop} (s : State E) (hkeep : p s) (hbusy : p (s.raiseFatal .reentry 0)) :
    p (nop s) := by
  unfold nop
  split
  exacts [hkeep, hkeep, hkeep, hbusy]

/-! ### What a host access can do -/

/-- A host read of a word answers, or is refused and leaves no answer. -/
theorem hostReadWord_cases {p : State E → Prop} (s : State E) (sp : WordSpace) (a : Nat)
    (hanswer : ∀ d, p { s with answer := d }) (hrefuse : ∀ w, p { s.raiseFatal .access w with answer := none }) :
    p (hostReadWord s sp a) := by
  cases sp <;> unfold hostReadWord refuseWord <;> dsimp only <;> split_ifs
  exacts [hanswer _, hrefuse _, hanswer _, hrefuse _]

theorem hostReadSample_cases {p : State E → Prop} (s : State E) (sp : SampleSpace) (a : Nat)
    (hanswer : ∀ d, p { s with answer := d }) (hrefuse : ∀ w, p { s.raiseFatal .access w with answer := none }) :
    p (hostReadSample s sp a) := by
  unfold hostReadSample State.raiseAccess
  split_ifs
  exacts [hanswer _, hrefuse _]

/-- A host write of a sample is stored, which the rights of R66 allow in UNCONFIGURED and IDLE only, or is refused. -/
theorem hostWriteSample_cases {p : State E → Prop} (s : State E) (sp : SampleSpace) (a : Nat) (z : E.Cx)
    (hstore : mayWriteSample s.life sp = true → p (s.store sp a [z])) (hrefuse : ∀ w, p (s.raiseFatal .access w)) :
    p (hostWriteSample s sp a z) := by
  unfold hostWriteSample State.raiseAccess
  split_ifs with h
  exacts [hstore h.1, hrefuse _]

theorem hostWriteOlen_cases {p : State E → Prop} (s : State E) (c : Nat) (v : Word)
    (hstore : s.life = .idle → p { s with mem := { s.mem with olen := s.mem.olen.write c (v.setWidth 31) } })
    (hrefuse : ∀ w, p (s.raiseFatal .access w)) : p (hostWriteOlen s c v) := by
  unfold hostWriteOlen refuseWord
  split_ifs with h
  exacts [hstore h.1, hrefuse _]

/-- A host write of a register other than `CMD`: a configuration register in UNCONFIGURED, `IN_LEN` in IDLE, or a
refusal, which in FAULT is no write at all. -/
theorem hostWriteCsr_cases {p : State E → Prop} (s : State E) (n : Nat) (v : Word)
    (hregs : ∀ r, s.life = .unconfigured → p { s with regs := r })
    (hinLen : s.life = .idle → p { s with inLen := v.setWidth 31 })
    (hrefuse : ∀ w, p (s.raiseFatal .access w)) : p (hostWriteCsr s n v) := by
  unfold hostWriteCsr refuseWord
  split
  case h_1 h =>
    split
    exacts [hregs _ h, hrefuse _]
  case h_2 h =>
    split
    exacts [hinLen h, hrefuse _]
  case h_3 => exact hrefuse _
  case h_4 h => simpa [s.raiseFatal_fault _ _ h] using hrefuse 0

/-! ### What a step can do -/

/-- What a step can make of `q`, the state whose inbox the step has already taken its event from. -/
inductive Turn (q : State) : State → Prop where
  /-- Nothing: nobody has work. -/
  | rest (notBusy : q.life ≠ .busy) : Turn q q
  /-- The micro-operation at `UPC`. -/
  | micro {w : Word} {i : Instr} (busy : q.life = .busy) (entry : uprog q.cfg.chanM q.upc.toNat = some w)
      (decodes : decode w = .op i) : Turn q (effect i q)
  /-- A host command. -/
  | command {i : Instr} (host : i.isHostCommand = true) : Turn q (effect i q)
  | refused (w : Word) : Turn q (refuseCommand q w)
  | readWord (sp : WordSpace) (a : Nat) : Turn q (hostReadWord q sp a)
  | writeCsr (n : Nat) (v : Word) : Turn q (hostWriteCsr q n v)
  | writeOlen (c : Nat) (v : Word) : Turn q (hostWriteOlen q c v)
  | readSample (sp : SampleSpace) (a : Nat) : Turn q (hostReadSample q sp a)
  | writeSample (sp : SampleSpace) (a : Nat) (z : Config.num.Cx) : Turn q (hostWriteSample q sp a z)
  | reset : Turn q q.hardReset

/-- What a step makes of what `fetch` says. -/
def Fetch.outcome : Fetch → Host.Outcome State Fault Refusal
  | .run i t => exec i t
  | .done t => .next t
  | .stop f => .fault f

theorem step_eq_outcome (s : State) : step s = (fetch s).outcome := by
  unfold step
  cases fetch s <;> rfl

theorem Turn.of_done {q t t' : State} (hq : Turn q t) (h : (Fetch.done t).outcome = .next t') : Turn q t' := by
  cases h
  exact hq

theorem Turn.of_run {q t : State} {i : Instr} (hq : Turn q (effect i q)) (h : (Fetch.run i q).outcome = .next t) :
    Turn q t :=
  effect_of_exec h ▸ hq

theorem Turn.of_sequencerTurn {q t : State} (h : (sequencerTurn q).outcome = .next t) : Turn q t := by
  revert h
  refine sequencerTurn_cases (p := fun f => f.outcome = .next t → Turn q t) q ?_ ?_ ?_ ?_
  · exact fun hl => (Turn.rest hl).of_done
  · exact fun _ _ hl hw hd => (Turn.micro hl hw hd).of_run
  · exact fun _ _ h => by cases h
  · exact fun _ _ _ _ _ h => by cases h

theorem Turn.of_hostWriteWord {q t : State} {sp : WordSpace} {a : Nat} {v : Word}
    (h : (hostWriteWord q sp a v).outcome = .next t) : Turn q t := by
  revert h
  refine hostWriteWord_cases (p := fun f => f.outcome = .next t → Turn q t) q sp a v ?_ ?_ ?_ ?_
  · exact fun _ _ _ _ hhost => (Turn.command hhost).of_run
  · exact fun _ _ _ => (Turn.refused v).of_done
  · exact fun _ _ => (Turn.writeCsr a v).of_done
  · exact fun _ => (Turn.writeOlen a v).of_done

/-- Every step that gives a next state is a turn of the state it was taken in, but for the inbox. -/
theorem turn_of_step {s t : State} (h : step s = .next t) : ∃ rest, Turn { s with inbox := rest } t := by
  rw [step_eq_outcome] at h
  revert h
  refine fetch_cases (p := fun f => f.outcome = .next t → ∃ rest, Turn { s with inbox := rest } t) s
    ?_ ?_ ?_ ?_ ?_ ?_ ?_ ?_
  · exact fun _ h => ⟨s.inbox, .of_sequencerTurn h⟩
  · exact fun rest _ h => ⟨rest, .of_sequencerTurn h⟩
  · exact fun rest _ hl h => ⟨rest, Turn.of_done (Turn.rest (q := { s with inbox := rest }) hl) h⟩
  · exact fun sp a rest _ h => ⟨rest, (Turn.readWord sp a).of_done h⟩
  · exact fun _ _ _ rest _ h => ⟨rest, .of_hostWriteWord h⟩
  · exact fun sp a rest _ h => ⟨rest, (Turn.readSample sp a).of_done h⟩
  · exact fun sp a z rest _ h => ⟨rest, (Turn.writeSample sp a z).of_done h⟩
  · exact fun rest _ h => ⟨rest, Turn.reset.of_done h⟩

end Sys2Proof.Machine
end

