-- ==== Sys2Proof/Proofs/Writers.lean ====
section
/-! O57, O56: the last column of R60. `WritesOnly` is a frame that names the spaces and the latches that may change;
each operation has it for the spaces its rule writes, built up from the named updates it is made of. -/

namespace Sys2Proof.Machine

variable {E : Env}

/-- The operations whose own rule writes a space, CONSTRUCT and DESTROY apart (R60, last column). -/
def writtenBy (i : Instr) : SampleSpace → Prop
  | .coef | .inp => False
  | .hist => ∃ c, i = .pbHupd c
  | .out => i = .resamp
  | .win => ∃ c, i = .pbReset c ∨ i = .pbDeint c ∨ i = .pbSplice c
  | .wout => ∃ c, i = .pbReset c ∨ i = .pbConv c
  | .fbuf => i = .ssIlv ∨ i = .ssFft
  | .sout => i = .ssDlv

/-- The same for the length latches of a buffer (R131, R151, R153). -/
def latchedBy (i : Instr) : SampleSpace → Prop
  | .win | .wout => ∃ c, i = .pbReset c
  | .fbuf => i = .ssIlv
  | .sout => i = .ssDlv
  | .coef | .hist | .inp | .out => False

/-- From `s` to `t` only spaces in `ws` (with `RS`, where `OUT` is one) and latches of buffers in `ls` change, no
register the host sets and no element of `OLEN`. -/
structure WritesOnly (ws ls : SampleSpace → Prop) (s t : State E) : Prop where
  regs : t.regs = s.regs
  inLen : t.inLen = s.inLen
  olen : t.mem.olen = s.mem.olen
  spaces : ∀ sp, ¬ ws sp → t.mem.bank sp = s.mem.bank sp
  rs : ¬ ws .out → t.rs = s.rs
  winLens : ¬ ls .win → t.lens.win = s.lens.win
  woutLens : ¬ ls .wout → t.lens.wout = s.lens.wout
  fbufLen : ¬ ls .fbuf → t.lens.fbuf = s.lens.fbuf
  soutLens : ¬ ls .sout → t.lens.sout = s.lens.sout

namespace WritesOnly

variable {ws ls : SampleSpace → Prop} {s t : State E}

/-- An update of the control registers and `ACC` alone. -/
theorem of_eq (hregs : t.regs = s.regs) (hinLen : t.inLen = s.inLen) (hmem : t.mem = s.mem) (hrs : t.rs = s.rs)
    (hlens : t.lens = s.lens) : WritesOnly ws ls s t := by
  constructor <;> simp [*]

theorem refl (s : State E) : WritesOnly ws ls s s := of_eq rfl rfl rfl rfl rfl

theorem raiseFatal (s : State E) (c : FatalCode) (w : Word) : WritesOnly ws ls s (s.raiseFatal c w) := by
  apply of_eq <;> simp

theorem advance (h : WritesOnly ws ls s t) : WritesOnly ws ls s t.advance := { h with }

theorem setAcc (h : WritesOnly ws ls s t) (z : E.Cx) : WritesOnly ws ls s (t.setAcc z) := { h with }

theorem setBank (h : WritesOnly ws ls s t) (sp : SampleSpace) (b : Bank E.Cx) (hsp : ws sp) :
    WritesOnly ws ls s (t.setBank sp b) :=
  { h with
    olen := by simpa using h.olen
    spaces := fun sq hsq => by
      have hne : sq ≠ sp := fun heq => hsq (heq ▸ hsp)
      simpa [Memory.setBank_bank_other _ _ _ _ hne] using h.spaces sq hsq }

theorem setResult (h : WritesOnly ws ls s t) (r : E.RState) (w : Word) (hout : ws .out) :
    WritesOnly ws ls s (t.setResult r w) :=
  { h with rs := fun hn => absurd hout hn }

theorem setLens (h : WritesOnly ws ls s t) (l : Latches) (hwin : ¬ ls .win → l.win = s.lens.win)
    (hwout : ¬ ls .wout → l.wout = s.lens.wout) (hfbuf : ¬ ls .fbuf → l.fbuf = s.lens.fbuf)
    (hsout : ¬ ls .sout → l.sout = s.lens.sout) : WritesOnly ws ls s (t.setLens l) :=
  { h with winLens := hwin, woutLens := hwout, fbufLen := hfbuf, soutLens := hsout }

/-- A guarded operation of the partition bank, from what it does past its channel check. -/
theorem withChannel {i : Nat} (h : WritesOnly ws ls s t) : WritesOnly ws ls s (withChannel i s t) :=
  withChannel_cases i s t (raiseFatal ..) h

theorem withSegment {sp : SampleSpace} (h : WritesOnly ws ls s t) : WritesOnly ws ls s (withSegment sp s t) :=
  withSegment_cases sp s t (raiseFatal ..) fun _ => h

theorem whenIdle {w : Word} (h : WritesOnly ws ls s t) : WritesOnly ws ls s (whenIdle w s t) :=
  whenIdle_cases w s t (fun _ => refl s) (fun _ => raiseFatal ..) (fun _ => raiseFatal ..) fun _ => h

end WritesOnly

theorem resamp_writesOnly (s : State E) : WritesOnly (writtenBy .resamp) (latchedBy .resamp) s (resamp s) := by
  apply WritesOnly.withSegment
  split
  · exact .raiseFatal ..
  · unfold resampleStore
    split
    · exact .raiseFatal ..
    · have start : WritesOnly (writtenBy .resamp) (latchedBy .resamp) s s := .refl s
      exact ((start.setBank .out _ rfl).setResult _ _ rfl).advance

theorem validate_writesOnly {ws ls : SampleSpace → Prop} (s : State E) : WritesOnly ws ls s (validate s) := by
  unfold validate
  split_ifs
  · exact .of_eq rfl rfl rfl rfl rfl
  · exact .of_eq rfl rfl rfl rfl rfl
  · exact .raiseFatal ..
  · split
    · exact .raiseFatal ..
    · exact .of_eq rfl rfl rfl rfl rfl

/-- Every operation but CONSTRUCT and DESTROY writes the spaces and latches of its rule and no other. -/
theorem effect_writesOnly (i : Instr) (s : State E) (hc : i ≠ .construct) (hd : i ≠ .destroy) :
    WritesOnly (writtenBy i) (latchedBy i) s (effect i s) := by
  have start : WritesOnly (writtenBy i) (latchedBy i) s s := .refl s
  cases i with
  | nop => exact nop_cases s start (.raiseFatal ..)
  | construct => exact absurd rfl hc
  | rotate => exact .whenIdle (.of_eq rfl rfl rfl rfl rfl)
  | destroy => exact absurd rfl hd
  | validate => exact validate_writesOnly s
  | pbReset c =>
    exact .withChannel <| .withSegment <| .advance <|
      ((start.setBank .win _ ⟨c, .inl rfl⟩).setBank .wout _ ⟨c, .inl rfl⟩).setLens _ (absurd ⟨c, rfl⟩)
        (absurd ⟨c, rfl⟩) (fun _ => rfl) fun _ => rfl
  | pbDeint c => exact .withChannel <| .withSegment (start.setBank .win _ ⟨c, .inr (.inl rfl)⟩).advance
  | pbSplice c => exact .withChannel (start.setBank .win _ ⟨c, .inr (.inr rfl)⟩).advance
  | pbConv c => exact .withChannel <| .withSegment ((start.setBank .wout _ ⟨c, .inr rfl⟩).setAcc _).advance
  | pbHupd c => exact .withChannel <| .withSegment (start.setBank .hist _ ⟨c, rfl⟩).advance
  | ssIlv =>
    exact .withSegment <| .advance <|
      (start.setBank .fbuf _ (.inl rfl)).setLens _ (fun _ => rfl) (fun _ => rfl) (absurd rfl) fun _ => rfl
  | ssFft => exact .withSegment (start.setBank .fbuf _ (.inr rfl)).advance
  | ssDlv =>
    exact .withSegment <| .advance <|
      (start.setBank .sout _ rfl).setLens _ (fun _ => rfl) (fun _ => rfl) (fun _ => rfl) (absurd rfl)
  | resamp => exact resamp_writesOnly s
  | ret => exact .of_eq rfl rfl rfl rfl rfl

/-- `t` has the configuration and the coefficients of `s`. -/
def SameInstance (s t : State E) : Prop := t.regs = s.regs ∧ t.mem.coef = s.mem.coef

theorem SameInstance.raiseFatal (s : State E) (c : FatalCode) (w : Word) : SameInstance s (s.raiseFatal c w) :=
  ⟨by simp, by simp⟩

theorem construct_sameInstance (s : State E) : SameInstance s (construct s) :=
  construct_cases s (fun c w _ => .raiseFatal s c w) fun _ _ => ⟨rfl, rfl⟩

theorem destroy_regs (s : State E) : (destroy s).regs = s.regs :=
  whenIdle_cases (p := fun t => t.regs = s.regs) _ s _ (fun _ => rfl) (fun _ => by simp) (fun _ => by simp) fun _ => rfl

/-- No operation writes a configuration register. -/
theorem effect_regs (i : Instr) (s : State E) : (effect i s).regs = s.regs := by
  by_cases hc : i = .construct
  · subst hc
    exact (construct_sameInstance s).1
  by_cases hd : i = .destroy
  · subst hd
    exact destroy_regs s
  exact (effect_writesOnly i s hc hd).regs

/-- No operation but DESTROY changes a coefficient. -/
theorem effect_coef (i : Instr) (s : State E) (hd : i ≠ .destroy) : (effect i s).mem.coef = s.mem.coef := by
  by_cases hc : i = .construct
  · subst hc
    exact (construct_sameInstance s).2
  exact (effect_writesOnly i s hc hd).spaces .coef id

/-- Settles O57: the frame of each operation, read off space by space. -/
theorem writersOfTheSpaces : Obligations.WritersOfTheSpaces := by
  intro i s t hexec
  obtain rfl := effect_of_exec hexec
  refine ⟨effect_regs i s, effect_coef i s, fun hc hd => ?_⟩
  have frame := effect_writesOnly i s hc hd
  refine ⟨frame.spaces .inp id, frame.olen, frame.inLen, fun h => ?_, fun h => ?_, fun h => ?_, fun h => ?_,
    fun h h' => ?_, fun h => ?_, fun h => ?_, fun h => ?_, fun h => ?_⟩
  · exact frame.spaces .hist fun ⟨c, hi⟩ => h c hi
  · exact ⟨frame.spaces .out h, frame.rs h⟩
  · exact frame.spaces .win fun ⟨c, hi⟩ => by simp [h c] at hi
  · exact frame.spaces .wout fun ⟨c, hi⟩ => by simp [h c] at hi
  · exact frame.spaces .fbuf (not_or.2 ⟨h, h'⟩)
  · exact frame.spaces .sout h
  · exact ⟨frame.winLens fun ⟨c, hi⟩ => h c hi, frame.woutLens fun ⟨c, hi⟩ => h c hi⟩
  · exact frame.fbufLen h
  · exact frame.soutLens h

/-! ### The configuration and the coefficients -/

/-- DESTROY from a state that is not UNCONFIGURED changes a coefficient only where it ends in UNCONFIGURED. -/
theorem destroy_coef_or_life (s : State E) :
    (destroy s).life = .unconfigured ∨ (destroy s).mem.coef = s.mem.coef :=
  whenIdle_cases (p := fun t => t.life = .unconfigured ∨ t.mem.coef = s.mem.coef) _ s _ (fun _ => .inr rfl)
    (fun _ => .inr (by simp)) (fun _ => .inr (by simp)) fun _ => .inl rfl

theorem effect_sameInstance {i : Instr} {s : State E} (h : (effect i s).life ≠ .unconfigured) :
    SameInstance s (effect i s) := by
  refine ⟨effect_regs i s, ?_⟩
  by_cases hd : i = .destroy
  · subst hd
    exact (destroy_coef_or_life s).resolve_left h
  · exact effect_coef i s hd

/-- A turn that neither begins nor ends in UNCONFIGURED keeps the configuration and the coefficients. -/
theorem Turn.sameInstance {q t : State} (h : Turn q t) (hq : q.life ≠ .unconfigured) (ht : t.life ≠ .unconfigured) :
    SameInstance q t := by
  cases h with
  | rest => exact ⟨rfl, rfl⟩
  | micro => exact effect_sameInstance ht
  | command => exact effect_sameInstance ht
  | refused w =>
    obtain ⟨c, -, heq⟩ := refuseCommand_eq q w
    exact heq ▸ .raiseFatal ..
  | readWord sp a => exact hostReadWord_cases q sp a (fun _ => ⟨rfl, rfl⟩) fun _ => SameInstance.raiseFatal ..
  | writeCsr n v =>
    exact hostWriteCsr_cases q n v (fun _ hl => absurd hl hq) (fun _ => ⟨rfl, rfl⟩) fun _ => .raiseFatal ..
  | writeOlen c v => exact hostWriteOlen_cases q c v (fun _ => ⟨rfl, rfl⟩) fun _ => .raiseFatal ..
  | readSample sp a => exact hostReadSample_cases q sp a (fun _ => ⟨rfl, rfl⟩) fun _ => SameInstance.raiseFatal ..
  | writeSample sp a z =>
    refine hostWriteSample_cases q sp a z (fun hmay => ⟨rfl, ?_⟩) fun _ => .raiseFatal ..
    have hne : SampleSpace.coef ≠ sp := by
      rintro rfl
      cases hl : q.life <;> simp_all [mayWriteSample]
    exact Memory.setBank_bank_other q.mem sp .coef _ hne
  | reset => exact absurd rfl ht

/-- Settles O56: by what a turn can do. -/
theorem configurationAndCoefficientsFixed : Obligations.ConfigurationAndCoefficientsFixed := by
  intro s t hs hstep ht
  obtain ⟨rest, hturn⟩ := turn_of_step hstep
  exact hturn.sameInstance hs ht

end Sys2Proof.Machine
end

