-- ==== Sys2Proof/Proofs/Soundness.lean ====
section
/-! O51, O52: the invariant `Sound`. Its two parts about VALIDATE's guarantees and the length latches depend on few
fields, which most turns leave alone; the operations between VALIDATE and RET share one frame, `Works`, under which the
invariant is kept once for all of them. -/

namespace Sys2Proof.Machine

variable {E : Env}

/-- Settles O51. -/
theorem resetIsSound : Obligations.ResetIsSound :=
  { memory := rfl
    latches := rfl
    configured := fun h => by simp at h
    faultRecorded := by simp
    faultInfoZero := fun _ => rfl
    upcInRange := fun h => by simp at h
    validated := fun h => by simp at h
    bounded := fun h => by simp at h
    reported := fun _ h => by simp at h }

/-! ### What the parts of the invariant depend on -/

theorem Validated.congr {s t : State E} (h : Validated s) (hvok : t.vok = s.vok) (hdiag : t.diagCtl = s.diagCtl)
    (hseg : t.seg = s.seg) (hregs : t.regs = s.regs) (hinLen : t.inLen = s.inLen) (holen : t.mem.olen = s.mem.olen) :
    Validated t := by
  have hcfg : t.cfg = s.cfg := by simp [State.cfg, hregs]
  have hsegLen : t.segLen = s.segLen := by simp [State.segLen, hseg]
  have hinputLen : t.inputLen = s.inputLen := by simp [State.inputLen, hinLen]
  have holens : t.olen = s.olen := by funext c; simp [State.olen, holen]
  constructor <;> simp only [hvok, hdiag, hcfg, hsegLen, hinputLen, holens]
  exacts [h.vok, h.noReport, h.segFits, h.inputLen, h.inputAligned, h.outputAligned, h.outputsFit]

theorem LatchesBounded.congr {s t : State E} (h : LatchesBounded s) (hregs : t.regs = s.regs)
    (hlens : t.lens = s.lens) : LatchesBounded t := by
  have hcfg : t.cfg = s.cfg := by simp [State.cfg, hregs]
  constructor <;> simp only [hcfg, State.winLen, State.woutLen, State.soutLen, State.fbufLen, hlens]
  exacts [h.win, h.wout, h.sout, h.fbuf]

/-- The inbox and the answer are the model's own: the invariant does not speak of them. -/
theorem Sound.host {s : State E} (h : Sound s) (inbox : List (HostEvent E.Cx)) (answer : Option (Datum E.Cx)) :
    Sound { s with inbox := inbox, answer := answer } :=
  { h with
    validated := fun hb h1 h2 => (h.validated hb h1 h2).congr rfl rfl rfl rfl rfl rfl
    bounded := fun hl => (h.bounded hl).congr rfl rfl }

/-- A fault that has a code. -/
theorem Sound.raiseFatal {s : State E} (h : Sound s) {c : FatalCode} (w : Word) (hc : c ≠ .none) :
    Sound (s.raiseFatal c w) := by
  by_cases hl : s.life = .fault
  · rwa [s.raiseFatal_fault _ _ hl]
  · rw [s.raiseFatal_eq _ _ hl]
    exact
      { memory := h.memory
        latches := h.latches
        configured := by simp
        faultRecorded := by simpa using hc
        faultInfoZero := by simp
        upcInRange := by simp
        validated := by simp
        bounded := by simp
        reported := by simp }

/-! ### Turns outside BUSY -/

/-- Outside BUSY the host may write `IN_LEN` and elements of memory. -/
theorem Sound.hostWrites {s : State E} (h : Sound s) (hb : s.life ≠ .busy) (m : Memory E.Cx) (hm : m.wf = true)
    (n : Len) : Sound { s with mem := m, inLen := n } :=
  { h with
    memory := hm
    validated := fun hl => absurd hl hb
    bounded := fun hl => (h.bounded hl).congr rfl rfl }

/-- In UNCONFIGURED it may write the configuration registers. -/
theorem Sound.setRegs {s : State E} (h : Sound s) (hu : s.life = .unconfigured) (r : CfgRegs) :
    Sound { s with regs := r } :=
  { h with
    configured := by simp [hu]
    upcInRange := by simp [hu]
    validated := by simp [hu]
    bounded := by simp [hu] }

theorem Memory.olen_wf {α : Type} {m : Memory α} (hm : m.wf = true) : m.olen.wf = true := by
  simp_all [Memory.wf]

theorem Memory.setOlen_wf {α : Type} {m : Memory α} {b : Bank Len} (hm : m.wf = true) (hb : b.wf = true) :
    ({ m with olen := b } : Memory α).wf = true := by
  simp_all [Memory.wf]

theorem Sound.hostWriteSample {s : State E} (h : Sound s) (sp : SampleSpace) (a : Nat) (z : E.Cx) :
    Sound (hostWriteSample s sp a z) := by
  refine hostWriteSample_cases s sp a z (fun hmay => ?_) fun w => h.raiseFatal w (by decide)
  have hb : s.life ≠ .busy := by
    intro hl
    simp [hl, mayWriteSample] at hmay
  exact h.hostWrites hb _ (State.store_wf s sp a [z] h.memory) s.inLen

theorem Sound.hostWriteOlen {s : State E} (h : Sound s) (c : Nat) (v : Word) : Sound (hostWriteOlen s c v) := by
  refine hostWriteOlen_cases s c v (fun hl => ?_) fun w => h.raiseFatal w (by decide)
  have holen := Bank.write_wf _ c (v.setWidth 31) (Memory.olen_wf h.memory)
  exact h.hostWrites (by simp [hl]) _ (Memory.setOlen_wf h.memory holen) s.inLen

theorem Sound.hostWriteCsr {s : State E} (h : Sound s) (n : Nat) (v : Word) : Sound (hostWriteCsr s n v) :=
  hostWriteCsr_cases s n v (fun r hu => h.setRegs hu r) (fun hl => h.hostWrites (by simp [hl]) s.mem h.memory _)
    fun w => h.raiseFatal w (by decide)

theorem Sound.hostReadWord {s : State E} (h : Sound s) (sp : WordSpace) (a : Nat) : Sound (hostReadWord s sp a) :=
  hostReadWord_cases s sp a (fun d => h.host s.inbox d) fun w => (h.raiseFatal w (by decide)).host _ none

theorem Sound.hostReadSample {s : State E} (h : Sound s) (sp : SampleSpace) (a : Nat) : Sound (hostReadSample s sp a) :=
  hostReadSample_cases s sp a (fun d => h.host s.inbox d) fun w => (h.raiseFatal w (by decide)).host _ none

/-- The reset input, from any state. -/
theorem sound_hardReset (s : State E) : Sound s.hardReset :=
  { memory := rfl
    latches := rfl
    configured := by simp
    faultRecorded := by simp
    faultInfoZero := fun _ => rfl
    upcInRange := by simp
    validated := by simp
    bounded := by simp
    reported := by simp }

/-! ### The host commands -/

/-- `n` lengths written from index 0 on. -/
theorem Bank.read_writeSeq_replicate {α : Type} (free : Nat → Nat → α) (b : Bank α) (v : α) {n j : Nat} (h : j < n) :
    (b.writeSeq 0 (List.replicate n v)).read free j = v := by
  simp [Bank.read_writeSeq, h]

theorem zeroLengths_wf (b : Bank Nat) (n : Nat) : (zeroLengths b n).wf = true := Bank.writeSeq_wf _ _ _ b.forget_wf

@[simp] theorem zeroLengths_read (free : Nat → Nat → Nat) (b : Bank Nat) {n j : Nat} (h : j < n) :
    (zeroLengths b n).read free j = 0 :=
  Bank.read_writeSeq_replicate free _ 0 h

theorem Sound.faultCode_none {s : State E} (h : Sound s) (hl : s.life ≠ .fault) : s.faultCode = .none := by
  simpa [hl] using h.faultRecorded

theorem construction_memory_wf (s : State E) (h : s.mem.wf = true) : (construction s).mem.wf = true := by
  have hhist := Bank.writeSeq_wf (List.replicate (s.cfg.chanM * s.cfg.partLen) E.num.czero) _ 0 (s.mem.bank_wf .hist h)
  simp_all [construction, Memory.wf, Memory.bank]

theorem construction_latchesBounded (s : State E) : LatchesBounded (construction s) where
  win _ hi := (zeroLengths_read _ s.lens.win hi).trans_le (Nat.zero_le _)
  wout _ hi := (zeroLengths_read _ s.lens.wout hi).trans_le (Nat.zero_le _)
  sout _ hi := (zeroLengths_read _ s.lens.sout hi).trans_le (Nat.zero_le _)
  fbuf := (zeroLengths_read _ s.lens.fbuf Nat.one_pos).trans_le (Nat.zero_le _)

theorem Sound.construct {s : State E} (h : Sound s) : Sound (construct s) := by
  refine construct_cases s (fun c w hc => h.raiseFatal w hc) fun hu hcfg => ?_
  have hl : s.life ≠ .fault := by simp [hu]
  exact
    { memory := construction_memory_wf s h.memory
      latches := (Latches.wf_iff _).2 ⟨zeroLengths_wf .., zeroLengths_wf .., zeroLengths_wf .., zeroLengths_wf ..⟩
      configured := fun _ => hcfg
      faultRecorded := by simp [construction, h.faultCode_none hl]
      faultInfoZero := fun _ => h.faultInfoZero hl
      upcInRange := by simp [construction]
      validated := by simp [construction]
      bounded := fun _ => construction_latchesBounded s
      reported := by simp [construction] }

theorem Sound.rotate {s : State E} (h : Sound s) : Sound (rotate s) := by
  refine whenIdle_cases _ s _ (fun _ => h) (fun _ => h.raiseFatal _ (by decide)) (fun _ => h.raiseFatal _ (by decide))
    fun hidle => ?_
  have hl : s.life ≠ .fault := by simp [hidle]
  exact
    { h with
      configured := fun _ => h.configured (.inl hidle)
      faultRecorded := by simp [h.faultCode_none hl]
      faultInfoZero := fun _ => h.faultInfoZero hl
      upcInRange := by simp
      validated := by simp
      bounded := fun _ => (h.bounded (.inl hidle)).congr rfl rfl
      reported := fun _ => h.reported hl }

theorem sound_destruction (s : State E) : Sound (destruction s) :=
  { memory := rfl
    latches := rfl
    configured := by simp [destruction]
    faultRecorded := by simp [destruction]
    faultInfoZero := fun _ => rfl
    upcInRange := by simp [destruction]
    validated := by simp [destruction]
    bounded := by simp [destruction]
    reported := by simp [destruction] }

theorem Sound.destroy {s : State E} (h : Sound s) : Sound (destroy s) :=
  whenIdle_cases _ s _ (fun _ => h) (fun _ => h.raiseFatal _ (by decide)) (fun _ => h.raiseFatal _ (by decide))
    fun _ => sound_destruction s

theorem Sound.nop {s : State E} (h : Sound s) : Sound (nop s) := nop_cases s h (h.raiseFatal _ (by decide))

theorem Sound.command {s : State E} (h : Sound s) {i : Instr} (hi : i.isHostCommand = true) : Sound (effect i s) := by
  cases i with
  | nop => exact h.nop
  | construct => exact h.construct
  | rotate => exact h.rotate
  | destroy => exact h.destroy
  | _ => cases hi

/-! ### VALIDATE and RET -/

theorem firstOverlong_eq_none_iff (s : State E) :
    firstOverlong s = none ↔ ∀ c < s.cfg.chanM, (s.olen c).toNat ≤ s.cfg.outCap := by
  refine ⟨fun h => ?_, firstOverlong_none s⟩
  simpa [firstOverlong] using h

/-- What VALIDATE writes when it passes (R121). -/
def validation (s : State E) : State E :=
  { s with vok := true, diagCtl := 0, seg := BitVec.ofNat 32 (s.inputLen / s.cfg.chanM), upc := s.upc + 1 }

/-- VALIDATE fails with a report, takes a capacity fault, or passes with every test of R121 and R122 met. -/
theorem validate_cases {p : State E → Prop} (s : State E)
    (hfail : ∀ b n d, p (s.failLength b n d (retIndex s.cfg.chanM))) (hfault : ∀ w, p (s.raiseFatal .capacity w))
    (hpass : inputAligned s.cfg s.inputLen = true → outputAligned s.cfg (s.olen 0).toNat = true →
      s.inputLen ≤ s.cfg.chanM * s.cfg.segCap → (∀ c < s.cfg.chanM, (s.olen c).toNat ≤ s.cfg.outCap) →
      p (validation s)) : p (validate s) := by
  unfold validate
  split_ifs with hin hout hcap
  · exact hfail ..
  · exact hfail ..
  · exact hfault _
  · cases hlong : firstOverlong s with
    | some l => exact hfault _
    | none =>
      exact hpass (by simpa using hin) (by simpa using hout) (by omega) ((firstOverlong_eq_none_iff s).1 hlong)

/-- What a well-formed configuration gives the sequencer (R6). -/
theorem chanM_of_wellFormed {c : Cfg} (h : cfgWellFormed c = true) :
    1 ≤ c.chanM ∧ c.chanM ∣ c.q * c.mul ∧ c.chanM ≤ 65536 := by
  have holds := (cfgWellFormed_iff c).1 h
  exact ⟨(holds 1 (by decide) (by decide)).1, holds 3 (by decide) (by decide), holds 4 (by decide) (by decide)⟩

/-- VALIDATE's guarantees hold when it passes (R123). -/
theorem validation_validated (s : State E) (hcfg : cfgWellFormed s.cfg = true)
    (hin : inputAligned s.cfg s.inputLen = true) (hout : outputAligned s.cfg (s.olen 0).toNat = true)
    (hcap : s.inputLen ≤ s.cfg.chanM * s.cfg.segCap) (hfit : ∀ c < s.cfg.chanM, (s.olen c).toNat ≤ s.cfg.outCap) :
    Validated (validation s) := by
  obtain ⟨hpos, hdvd, -⟩ := chanM_of_wellFormed hcfg
  have hsegLen : (validation s).segLen = s.inputLen / s.cfg.chanM := by
    have hlt : s.inputLen < 2 ^ 31 := s.inLen.isLt
    have hle : s.inputLen / s.cfg.chanM ≤ s.inputLen := Nat.div_le_self _ _
    exact Nat.mod_eq_of_lt (by omega)
  have hmul : s.cfg.chanM ∣ s.inputLen := by
    have haligned : s.inputLen % (s.cfg.q * s.cfg.mul) = 0 := by simpa [inputAligned] using hin
    exact hdvd.trans (Nat.dvd_of_mod_eq_zero haligned)
  exact
    { vok := rfl
      noReport := rfl
      segFits := hsegLen ▸ Nat.div_le_of_le_mul hcap
      inputLen := hsegLen ▸ (Nat.mul_div_cancel' hmul).symm
      inputAligned := hin
      outputAligned := hout
      outputsFit := hfit }

theorem retIndex_toNat {m : Nat} (h : m ≤ 65536) : (BitVec.ofNat 32 (retIndex m)).toNat = retIndex m :=
  Nat.mod_eq_of_lt (by unfold retIndex; omega)

/-- Inside the micro-program `UPC` does not wrap around. -/
theorem upc_succ_toNat {m : Nat} {u : Word} (hm : m ≤ 65536) (hu : u.toNat < retIndex m) :
    (u + 1).toNat = u.toNat + 1 := by
  unfold retIndex at hu
  bv_omega

theorem Sound.validate {s : State E} (h : Sound s) (hb : s.life = .busy) (hu : s.upc.toNat = 0) :
    Sound (validate s) := by
  have hcfg := h.configured (.inr hb)
  have hm := (chanM_of_wellFormed hcfg).2.2
  refine validate_cases s (fun b n d => ?_) (fun w => h.raiseFatal w (by decide)) fun hin hout hcap hfit => ?_
  · have hret : (s.failLength b n d (retIndex s.cfg.chanM)).upc.toNat = retIndex s.cfg.chanM := retIndex_toNat hm
    exact
      { h with
        upcInRange := fun _ => hret.le
        validated := fun _ _ hlt => absurd hlt (Nat.not_lt.2 hret.ge)
        bounded := fun hl => (h.bounded hl).congr rfl rfl
        reported := fun _ _ => ⟨rfl, rfl⟩ }
  · have hsucc : (validation s).upc.toNat = s.upc.toNat + 1 := upc_succ_toNat hm (by simp [hu, retIndex])
    exact
      { h with
        upcInRange := fun _ => by simp [hsucc, hu, retIndex]
        validated := fun _ _ _ => validation_validated s hcfg hin hout hcap hfit
        bounded := fun hl => (h.bounded hl).congr rfl rfl
        reported := fun _ hd => by simp [validation] at hd }

theorem Sound.ret {s : State E} (h : Sound s) (hb : s.life = .busy) : Sound (ret s) := by
  have hl : s.life ≠ .fault := by simp [hb]
  exact
    { h with
      configured := fun _ => h.configured (.inr hb)
      faultRecorded := by simp [Machine.ret, h.faultCode_none hl]
      faultInfoZero := fun _ => h.faultInfoZero hl
      upcInRange := by simp [Machine.ret]
      validated := by simp [Machine.ret]
      bounded := fun _ => (h.bounded (.inr hb)).congr rfl rfl
      reported := fun _ => h.reported hl }

/-! ### The operations between VALIDATE and RET -/

/-- What an operation between VALIDATE and RET does before it goes on to the next entry, where it raises no fault: it
writes memory, `OLEN` apart, the latches within their bounds, `ACC`, and the Resampler's state and result. -/
structure Works (s t : State E) : Prop where
  memory : s.mem.wf = true → t.mem.wf = true
  latches : s.lens.wf = true → t.lens.wf = true
  bounded : LatchesBounded s → LatchesBounded t
  olen : t.mem.olen = s.mem.olen
  life : t.life = s.life
  vok : t.vok = s.vok
  faultCode : t.faultCode = s.faultCode
  faultInfo : t.faultInfo = s.faultInfo
  diagCtl : t.diagCtl = s.diagCtl
  upc : t.upc = s.upc
  seg : t.seg = s.seg
  regs : t.regs = s.regs
  inLen : t.inLen = s.inLen

namespace Works

variable {s t : State E}

theorem refl (s : State E) : Works s s := ⟨id, id, id, rfl, rfl, rfl, rfl, rfl, rfl, rfl, rfl, rfl, rfl⟩

theorem setAcc (h : Works s t) (z : E.Cx) : Works s (t.setAcc z) :=
  { h with bounded := fun hs => (h.bounded hs).congr rfl rfl }

theorem setResult (h : Works s t) (r : E.RState) (w : Word) : Works s (t.setResult r w) :=
  { h with bounded := fun hs => (h.bounded hs).congr rfl rfl }

theorem setBank (h : Works s t) (sp : SampleSpace) (b : Bank E.Cx) (hb : s.mem.wf = true → b.wf = true) :
    Works s (t.setBank sp b) :=
  { h with
    memory := fun hs => Memory.setBank_wf _ _ _ (h.memory hs) (hb hs)
    bounded := fun hs => (h.bounded hs).congr rfl rfl
    olen := by simpa using h.olen }

theorem store (h : Works s t) (sp : SampleSpace) (a : Nat) (vs : List E.Cx) : Works s (t.store sp a vs) :=
  h.setBank sp _ fun hs => Bank.writeSeq_wf _ _ _ (Memory.bank_wf _ sp (h.memory hs))

theorem storeRows (h : Works s t) (sp : SampleSpace) (rows : List (Nat × List E.Cx)) : Works s (t.storeRows sp rows) :=
  h.setBank sp _ fun hs => Bank.writeRows_wf _ _ (Memory.bank_wf _ sp (h.memory hs))

theorem setLens (h : Works s t) (l : Latches) (hwf : s.lens.wf = true → l.wf = true)
    (hl : LatchesBounded s → LatchesBounded (s.setLens l)) : Works s (t.setLens l) :=
  { h with
    latches := hwf
    bounded := fun hs => (hl hs).congr h.regs rfl }

end Works

/-- One latch written with a length within the capacity, the others within it before. -/
theorem Bank.read_write_le {m n : Nat} {free : Nat → Nat → Nat} {b : Bank Nat} (h : ∀ j < n, b.read free j ≤ m)
    (i : Nat) {v : Nat} (hv : v ≤ m) : ∀ j < n, (b.write i v).read free j ≤ m := by
  intro j hj
  rw [Bank.read_write]
  split
  exacts [hv, h j hj]

namespace LatchesBounded

variable {s : State E} {n : Nat}

theorem setChannelLens (hs : LatchesBounded s) (i : Nat) (hn : n ≤ s.cfg.segCap) :
    LatchesBounded (s.setLens { s.lens with win := s.lens.win.write i n, wout := s.lens.wout.write i n }) where
  win := Bank.read_write_le hs.win i hn
  wout := Bank.read_write_le hs.wout i hn
  sout := hs.sout
  fbuf := hs.fbuf

theorem setFbufLen (hs : LatchesBounded s) (hn : n ≤ s.cfg.segCap) :
    LatchesBounded (s.setLens { s.lens with fbuf := s.lens.fbuf.write 0 (s.cfg.chanM * n) }) where
  win := hs.win
  wout := hs.wout
  sout := hs.sout
  fbuf := (Bank.read_write ..).trans_le ((if_pos rfl).trans_le (Nat.mul_le_mul_left _ hn))

theorem setSoutLens (hs : LatchesBounded s) (hn : n ≤ s.cfg.segCap) :
    LatchesBounded (s.setLens { s.lens with sout := s.lens.sout.writeSeq 0 (List.replicate s.cfg.chanM n) }) where
  win := hs.win
  wout := hs.wout
  sout _ hi := (Bank.read_writeSeq_replicate _ _ _ hi).trans_le hn
  fbuf := hs.fbuf

end LatchesBounded

theorem Latches.setChannelLens_wf {l : Latches} (h : l.wf = true) (i n : Nat) :
    ({ l with win := l.win.write i n, wout := l.wout.write i n } : Latches).wf = true := by
  obtain ⟨hwin, hwout, hfbuf, hsout⟩ := (Latches.wf_iff _).1 h
  exact (Latches.wf_iff _).2 ⟨Bank.write_wf _ _ _ hwin, Bank.write_wf _ _ _ hwout, hfbuf, hsout⟩

theorem Latches.setFbufLen_wf {l : Latches} (h : l.wf = true) (n : Nat) :
    ({ l with fbuf := l.fbuf.write 0 n } : Latches).wf = true := by
  obtain ⟨hwin, hwout, hfbuf, hsout⟩ := (Latches.wf_iff _).1 h
  exact (Latches.wf_iff _).2 ⟨hwin, hwout, Bank.write_wf _ _ _ hfbuf, hsout⟩

theorem Latches.setSoutLens_wf {l : Latches} (h : l.wf = true) (ns : List Nat) :
    ({ l with sout := l.sout.writeSeq 0 ns } : Latches).wf = true := by
  obtain ⟨hwin, hwout, hfbuf, hsout⟩ := (Latches.wf_iff _).1 h
  exact (Latches.wf_iff _).2 ⟨hwin, hwout, hfbuf, Bank.writeSeq_wf _ _ _ hsout⟩

/-- In a validated state an entry between VALIDATE and RET works and goes on to the next one; only RESAMP can take a
fault instead. -/
theorem effect_works (i : Instr) (s : State E) (h : Validated s) (hhost : i.isHostCommand = false)
    (hch : ∀ c, i.channel? = some c → c < s.cfg.chanM) (hv : i ≠ .validate) (hr : i ≠ .ret) :
    (∃ w, effect i s = s.raiseFatal .retRange w) ∨ ∃ t, Works s t ∧ effect i s = t.advance := by
  have start := Works.refl s
  have hs := h.segFits
  cases i with
  | nop | construct | rotate | destroy => cases hhost
  | validate => exact absurd rfl hv
  | ret => exact absurd rfl hr
  | pbReset c =>
    exact .inr ⟨_, ((start.store ..).store ..).setLens _ (Latches.setChannelLens_wf · c _) (·.setChannelLens c hs),
      pbReset_eq c s (hch c rfl) hs⟩
  | pbDeint c => exact .inr ⟨_, start.store .., pbDeint_eq c s (hch c rfl) hs⟩
  | pbSplice c => exact .inr ⟨_, start.store .., pbSplice_eq c s (hch c rfl)⟩
  | pbConv c => exact .inr ⟨_, (start.store ..).setAcc _, pbConv_eq c s (hch c rfl) hs⟩
  | pbHupd c => exact .inr ⟨_, start.store .., pbHupd_eq c s (hch c rfl) hs⟩
  | ssIlv =>
    exact .inr ⟨_, (start.store ..).setLens _ (Latches.setFbufLen_wf · _) (·.setFbufLen hs), ssIlv_eq s hs⟩
  | ssFft =>
    exact .inr ⟨_, start.setBank _ _ fun hm => transformed_wf s (Memory.bank_wf _ .fbuf hm), ssFft_eq s hs⟩
  | ssDlv =>
    exact .inr ⟨_, (start.storeRows ..).setLens _ (Latches.setSoutLens_wf · _) (·.setSoutLens hs), ssDlv_eq s hs⟩
  | resamp =>
    rw [show effect .resamp s = _ from resamp_eq s hs h.outputsFit, resampleStore]
    split
    · exact .inl ⟨_, rfl⟩
    · exact .inr ⟨_, (start.storeRows ..).setResult _ _, rfl⟩

/-- The invariant is kept from one entry between VALIDATE and RET to the next. -/
theorem Sound.works {s t : State E} (h : Sound s) (hb : s.life = .busy) (hu : s.upc.toNat < retIndex s.cfg.chanM)
    (hv : Validated s) (hw : Works s t) : Sound t.advance := by
  have hcfg : t.cfg = s.cfg := by simp [State.cfg, hw.regs]
  have hsucc : (s.upc + 1).toNat = s.upc.toNat + 1 :=
    upc_succ_toNat (chanM_of_wellFormed (h.configured (.inr hb))).2.2 hu
  have hvt : Validated t := hv.congr hw.vok hw.diagCtl hw.seg hw.regs hw.inLen hw.olen
  exact
    { memory := hw.memory h.memory
      latches := hw.latches h.latches
      configured := fun _ => by simpa [hcfg] using h.configured (.inr hb)
      faultRecorded := by simpa [hw.faultCode, hw.life] using h.faultRecorded
      faultInfoZero := by simpa [hw.faultInfo, hw.life] using h.faultInfoZero
      upcInRange := fun _ => by
        rw [State.advance_upc, hw.upc, hsucc]
        simpa [hcfg] using hu
      validated := fun _ _ _ => hvt.congr rfl rfl rfl rfl rfl rfl
      bounded := fun _ => (hw.bounded (h.bounded (.inr hb))).congr rfl rfl
      reported := fun _ hd => by simp [hvt.noReport] at hd }

/-! ### Every turn -/

/-- Every micro-operation but VALIDATE and RET stands between these two (R171). -/
theorem indexOf_between {m : Nat} {i : Instr} (hhost : i.isHostCommand = false)
    (hch : ∀ c, i.channel? = some c → c < m) (hv : i ≠ .validate) (hr : i ≠ .ret) :
    1 ≤ indexOf m i ∧ indexOf m i < retIndex m := by
  cases i with
  | nop | construct | rotate | destroy => cases hhost
  | validate => exact absurd rfl hv
  | ret => exact absurd rfl hr
  | pbReset c | pbDeint c | pbSplice c | pbConv c | pbHupd c =>
    have hc : c < m := hch c rfl
    simp only [indexOf, retIndex]
    omega
  | ssIlv | ssFft | ssDlv | resamp =>
    simp only [indexOf, retIndex]
    omega

theorem Sound.micro {s : State E} (h : Sound s) (hb : s.life = .busy) {w : Word} {i : Instr}
    (hw : uprog s.cfg.chanM s.upc.toNat = some w) (hd : decode w = .op i) : Sound (effect i s) := by
  have hm := (chanM_of_wellFormed (h.configured (.inr hb))).2.2
  obtain ⟨j, hj, hu, hhost, hch⟩ := uprog_operation _ _ _ hm hw
  obtain rfl : j = i := by
    rw [hd] at hj
    cases hj
    rfl
  by_cases hv : j = .validate
  · subst hv
    exact h.validate hb hu
  by_cases hr : j = .ret
  · subst hr
    exact h.ret hb
  have ⟨hpast, hbefore⟩ : 1 ≤ s.upc.toNat ∧ s.upc.toNat < retIndex s.cfg.chanM :=
    hu ▸ indexOf_between hhost hch hv hr
  have hvalid := h.validated hb hpast hbefore
  obtain ⟨w, heq⟩ | ⟨t, hworks, heq⟩ := effect_works j s hvalid hhost hch hv hr
  · exact heq ▸ h.raiseFatal w (by decide)
  · exact heq ▸ h.works hb hbefore hvalid hworks

theorem Sound.turn {q t : State} (h : Sound q) (hturn : Turn q t) : Sound t := by
  cases hturn with
  | rest => exact h
  | micro hb hw hd => exact h.micro hb hw hd
  | command hhost => exact h.command hhost
  | refused w =>
    obtain ⟨c, hc, heq⟩ := refuseCommand_eq q w
    exact heq ▸ h.raiseFatal w hc
  | readWord sp a => exact h.hostReadWord sp a
  | writeCsr n v => exact h.hostWriteCsr n v
  | writeOlen c v => exact h.hostWriteOlen c v
  | readSample sp a => exact h.hostReadSample sp a
  | writeSample sp a z => exact h.hostWriteSample sp a z
  | reset => exact sound_hardReset q

/-- Settles O52: the invariant does not speak of the inbox, and every turn keeps it. -/
theorem stepKeepsSound : Obligations.StepKeepsSound := by
  intro s t hs hstep
  obtain ⟨rest, hturn⟩ := turn_of_step hstep
  exact (hs.host rest s.answer).turn hturn

end Sys2Proof.Machine
end

