-- ==== Sys2Proof/Proofs/Registers.lean ====
section
/-! O58, O14, O11, O12: the register map, and what the registers and the contents are after a hardware reset. -/

namespace Sys2Proof.Machine

variable {E : Env}

/-- Settles O58: each number reads its register, and a register with fewer bits reads with zeros above them. -/
theorem registerMap : Obligations.RegisterMap := by
  have zeroExtend : ∀ {n m : Nat} (w : BitVec n), w.setWidth (m + n) = (0 : BitVec m) ++ w :=
    fun w => by rw [BitVec.setWidth_eq_append (by omega)]; simp
  intro s
  exact ⟨rfl, zeroExtend s.diagCtl, rfl, rfl, rfl, rfl, rfl, rfl, rfl, rfl, rfl, rfl, rfl, rfl, rfl, rfl,
    zeroExtend s.inLen, rfl⟩

theorem csrRead_eq_zero {n : Nat} (s : State E) (hn : 0x12 ≤ n) : s.csrRead n = 0 := by
  obtain ⟨k, rfl⟩ := Nat.exists_eq_add_of_le' hn
  rfl

/-! ### The fields of `STATUS` -/

theorem statusWord_life (s : State E) : s.statusWord.extractLsb' 0 2 = lifeBits s.life :=
  BitVec.extractLsb'_append_eq_right

theorem statusWord_vok (s : State E) : s.statusWord.getLsbD 2 = s.vok := by
  unfold State.statusWord
  iterate 2 rw [BitVec.getLsbD_append]
  simp

theorem statusWord_bit3 (s : State E) : s.statusWord.getLsbD 3 = false := by
  unfold State.statusWord
  iterate 3 rw [BitVec.getLsbD_append]
  simp

theorem statusWord_faultCode (s : State E) : s.statusWord.extractLsb' 4 4 = fatalBits s.faultCode := by
  unfold State.statusWord
  iterate 3 rw [BitVec.extractLsb'_append_eq_of_le (by decide)]
  exact BitVec.extractLsb'_append_eq_right

theorem statusWord_high (s : State E) : s.statusWord.extractLsb' 8 24 = 0 := by
  unfold State.statusWord
  iterate 4 rw [BitVec.extractLsb'_append_eq_of_le (by decide)]
  rfl

/-- Settles O14: field by field, each code being the one the table gives. -/
theorem statusWordFields : Obligations.StatusWordFields := by
  intro s
  refine ⟨(statusWord_life s).trans ?_, statusWord_vok s, statusWord_bit3 s, (statusWord_faultCode s).trans ?_,
    statusWord_high s⟩
  · cases s.life <;> rfl
  · cases s.faultCode <;> rfl

/-! ### Hardware reset -/

theorem resetOver_statusWord : (State.resetOver E).statusWord = 0 := by
  simp [State.statusWord, lifeBits, fatalBits]

/-- Every number of the register file reads as zero after reset. -/
theorem resetOver_csrRead (n : Nat) : (State.resetOver E).csrRead n = 0 := by
  unfold State.csrRead
  split
  case h_1 => exact resetOver_statusWord
  all_goals rfl

/-- The reset input leaves the registers of `State.resetOver`. -/
theorem hardReset_csrRead (s : State E) (n : Nat) : s.hardReset.csrRead n = 0 := resetOver_csrRead (E := E) n

theorem forgetAll_bank {α : Type} (m : Memory α) (sp : SampleSpace) : m.forgetAll.bank sp = (m.bank sp).forget := by
  cases sp <;> rfl

theorem hardReset_sample (s : State E) (sp : SampleSpace) (a : Nat) :
    s.hardReset.sample sp a = E.freeSample sp ((s.mem.bank sp).epoch + 1) a := by
  simp [State.sample, forgetAll_bank]

/-- Settles O11. -/
theorem resetRegistersAreZero : Obligations.ResetRegistersAreZero := ⟨rfl, resetOver_csrRead⟩

/-- Settles O12: the step is `hardReset`, whose registers are those of reset and whose contents are forgotten. -/
theorem hardwareResetStep : Obligations.HardwareResetStep := by
  intro s rest hinbox
  exact ⟨_, step_hardReset hinbox, rfl, hardReset_csrRead _, hardReset_sample { s with inbox := rest }, fun _ => rfl,
    fun _ => ⟨rfl, rfl, rfl⟩, rfl, rfl, rfl, rfl⟩

end Sys2Proof.Machine
end

