-- ==== Sys2Proof/Proofs/HostPort.lean ====
section
/-! O13, O47, O48, O50: the host's accesses to registers and to `OLEN`, and that in `LIFE = FAULT` none but the reset
input changes the block. -/

namespace Sys2Proof.Machine

variable {E : Env}

/-! ### FAULT -/

/-- Every operation the host may issue leaves a state in FAULT as it is. -/
theorem effect_fault {i : Instr} {s : State E} (hhost : i.isHostCommand = true) (hl : s.life = .fault) :
    effect i s = s := by
  cases i with
  | nop | construct | rotate | destroy => simp [effect, nop, construct, rotate, destroy, whenIdle, hl]
  | _ => cases hhost

theorem refuseCommand_fault {s : State E} (w : Word) (hl : s.life = .fault) : refuseCommand s w = s := by
  simp [refuseCommand, hl]

theorem hostWriteWord_outcome_fault {s : State} (sp : WordSpace) (a : Nat) (v : Word) (hl : s.life = .fault) :
    (hostWriteWord s sp a v).outcome = .next s := by
  refine hostWriteWord_cases (p := fun f => f.outcome = .next s) s sp a v ?_ ?_ ?_ ?_
  · intro i _ _ _ hhost
    exact (exec_eq_next_effect i s).trans (congrArg _ (effect_fault hhost hl))
  · exact fun _ _ _ => congrArg _ (refuseCommand_fault v hl)
  · intro _ _
    simp [Fetch.outcome, hostWriteCsr, hl]
  · intro _
    simp [Fetch.outcome, hostWriteOlen, refuseWord, hl, s.raiseFatal_fault _ _ hl]

/-- `t` is `s` but for the answer the host holds. -/
def SameButAnswer (s t : State E) : Prop := t = { s with answer := t.answer }

theorem hostReadWord_fault {s : State E} (sp : WordSpace) (a : Nat) (hl : s.life = .fault) :
    SameButAnswer s (hostReadWord s sp a) :=
  hostReadWord_cases s sp a (fun _ => rfl) fun _ => by rw [s.raiseFatal_fault _ _ hl]; rfl

theorem hostReadSample_fault {s : State E} (sp : SampleSpace) (a : Nat) (hl : s.life = .fault) :
    SameButAnswer s (hostReadSample s sp a) :=
  hostReadSample_cases s sp a (fun _ => rfl) fun _ => by rw [s.raiseFatal_fault _ _ hl]; rfl

theorem hostWriteSample_fault {s : State E} (sp : SampleSpace) (a : Nat) (z : E.Cx) (hl : s.life = .fault) :
    hostWriteSample s sp a z = s := by
  simp [hostWriteSample, mayWriteSample, State.raiseAccess, hl, s.raiseFatal_fault _ _ hl]

/-- Settles O13: event by event. -/
theorem faultIsSticky : Obligations.FaultIsSticky := by
  intro s e rest hl hinbox he
  let q : State := { s with inbox := rest }
  have hq : q.life = .fault := hl
  have hturn : sequencerTurn q = .done q := sequencerTurn_not_busy (by simp [hq])
  cases e with
  | quiet => exact ⟨q, step_of_done (by rw [fetch, hinbox]; exact hturn), rfl⟩
  | await => exact ⟨q, step_of_done (by rw [fetch, hinbox]; exact if_neg (by simp [hl])), rfl⟩
  | readWord sp a => exact ⟨_, step_readWord hinbox, hostReadWord_fault sp a hq⟩
  | writeWord sp a v =>
    refine ⟨q, ?_, rfl⟩
    rw [step_eq_outcome, fetch, hinbox]
    exact hostWriteWord_outcome_fault sp a v hq
  | readSample sp a => exact ⟨_, step_readSample hinbox, hostReadSample_fault sp a hq⟩
  | writeSample sp a z =>
    exact ⟨q, (step_writeSample hinbox).trans (congrArg _ (hostWriteSample_fault sp a z hq)), rfl⟩
  | hardReset => exact absurd rfl he

/-! ### Reads of words -/

/-- Outside FAULT a fault entry is the state that records it. -/
theorem State.raiseFatal_eq_faulted (s : State E) (c : FatalCode) (w : Word) (hl : s.life ≠ .fault) :
    s.raiseFatal c w = s.faulted c w :=
  s.raiseFatal_eq c w hl

theorem hostReadWord_csr_inside (s : State E) {n : Nat} (h : n < 256) :
    hostReadWord s .csr n = { s with answer := some (.word (s.csrRead n)) } := if_pos h

theorem hostReadWord_csr_outside (s : State E) {n : Nat} (h : 256 ≤ n) :
    hostReadWord s .csr n = { s.raiseFatal .access 0 with answer := none } := if_neg (Nat.not_lt.2 h)

theorem hostReadWord_olen_inside (s : State E) {c : Nat} (h : s.life = .idle ∧ c < s.cfg.chanM) :
    hostReadWord s .olen c = { s with answer := some (.word ((s.olen c).setWidth 32)) } := if_pos h

theorem hostReadWord_olen_outside (s : State E) {c : Nat} (h : ¬ (s.life = .idle ∧ c < s.cfg.chanM)) :
    hostReadWord s .olen c = { s.raiseFatal .access 4 with answer := none } := if_neg h

/-- Settles O47. -/
theorem hostReadsRegisters : Obligations.HostReadsRegisters := by
  intro s n rest hinbox q
  have hstep : step s = .next (hostReadWord q .csr n) := step_readWord hinbox
  refine ⟨fun hn => ⟨?_, csrRead_eq_zero s⟩, fun hn hl => ?_, fun hn hl => ?_⟩
  · rw [hstep, hostReadWord_csr_inside q hn]
    rfl
  · rw [hstep, hostReadWord_csr_outside q hn, q.raiseFatal_eq_faulted _ _ hl]
  · rw [hstep, hostReadWord_csr_outside q hn, q.raiseFatal_fault _ _ hl]

/-! ### Writes of `OLEN` -/

theorem hostWriteOlen_inside (s : State E) {c : Nat} (v : Word) (h : s.life = .idle ∧ c < s.cfg.chanM) :
    hostWriteOlen s c v = { s with mem := { s.mem with olen := s.mem.olen.write c (v.setWidth 31) } } := if_pos h

theorem hostWriteOlen_outside (s : State E) {c : Nat} (v : Word) (h : ¬ (s.life = .idle ∧ c < s.cfg.chanM)) :
    hostWriteOlen s c v = s.raiseFatal .access 4 := if_neg h

/-- Settles O50. -/
theorem hostAccessesOutputLengths : Obligations.HostAccessesOutputLengths := by
  intro s c v rest q
  refine ⟨fun hinbox => ⟨fun hl hc => ?_, fun hl hout => ?_⟩, fun hinbox => ⟨fun hl hc => ?_, fun hl hout => ?_⟩⟩
  · rw [step_readWord hinbox, hostReadWord_olen_inside q ⟨hl, hc⟩]
    rfl
  · rw [step_readWord hinbox, hostReadWord_olen_outside q hout, q.raiseFatal_eq_faulted _ _ hl]
  · refine ⟨_, step_writeOlen hinbox, fun d => ?_, ?_, ?_⟩ <;> rw [hostWriteOlen_inside q v ⟨hl, hc⟩]
    exact Bank.read_write _ s.mem.olen c d _
  · rw [step_writeOlen hinbox, hostWriteOlen_outside q v hout, q.raiseFatal_eq_faulted _ _ hl]

/-! ### Writes of registers -/

/-- Only the numbers 0x08 to 0x10 name a configuration register (R40). -/
theorem cfgRegsWrite_eq_none (r : CfgRegs) {n : Nat} (v : Word) (hn : ¬ (0x08 ≤ n ∧ n ≤ 0x10)) :
    cfgRegsWrite r n v = none := by
  unfold cfgRegsWrite
  split
  case h_10 => rfl
  all_goals exact absurd ⟨by decide, by decide⟩ hn

/-- A write of a configuration register is read back there, and every other number reads as before. -/
theorem cfgRegsWrite_eq_some (s : State E) {n : Nat} (v : Word) (hlow : 0x08 ≤ n) (hhigh : n ≤ 0x10) :
    ∃ r, cfgRegsWrite s.regs n v = some r ∧ ({ s with regs := r } : State E).csrRead n = v ∧
      ∀ k, k ≠ n → ({ s with regs := r } : State E).csrRead k = s.csrRead k := by
  interval_cases n
  all_goals
    refine ⟨_, rfl, rfl, fun k hk => ?_⟩
    unfold State.csrRead
    split <;> first | rfl | exact absurd rfl hk

theorem hostWriteCsr_cfg (s : State E) {n : Nat} {v : Word} {r : CfgRegs} (hl : s.life = .unconfigured)
    (hr : cfgRegsWrite s.regs n v = some r) : hostWriteCsr s n v = { s with regs := r } := by
  simp only [hostWriteCsr, hl, hr]

theorem hostWriteCsr_inLen (s : State E) (v : Word) (hl : s.life = .idle) :
    hostWriteCsr s 0x11 v = { s with inLen := v.setWidth 31 } := by
  simp only [hostWriteCsr, hl, if_true]

theorem hostWriteCsr_refused (s : State E) {n : Nat} (v : Word) (hf : s.life ≠ .fault)
    (hcfg : ¬ (s.life = .unconfigured ∧ 0x08 ≤ n ∧ n ≤ 0x10)) (hinLen : ¬ (s.life = .idle ∧ n = 0x11)) :
    hostWriteCsr s n v = s.raiseFatal .access 0 := by
  unfold hostWriteCsr
  split
  case h_1 hl => rw [cfgRegsWrite_eq_none _ _ fun hn => hcfg ⟨hl, hn⟩]; rfl
  case h_2 hl => exact if_neg fun hn => hinLen ⟨hl, hn⟩
  case h_3 => rfl
  case h_4 hl => exact absurd hl hf

/-- `IN_LEN` reads back without bit 31 (R31, R40). -/
theorem setWidth_31_setWidth_32 (v : Word) : (v.setWidth 31).setWidth 32 = v &&& 0x7FFFFFFF := by
  have hmask : v.toNat &&& 0x7FFFFFFF = v.toNat % 2 ^ 31 := Nat.and_two_pow_sub_one_eq_mod v.toNat 31
  apply BitVec.eq_of_toNat_eq
  rw [BitVec.toNat_and, BitVec.toNat_setWidth, BitVec.toNat_setWidth]
  exact (Nat.mod_eq_of_lt (by omega)).trans hmask.symm

/-- Settles O48. -/
theorem hostWritesRegisters : Obligations.HostWritesRegisters := by
  intro s n v rest hinbox hn q
  have hstep : step s = .next (hostWriteCsr q n v) := step_writeCsr hinbox hn
  refine ⟨fun hl => ?_, fun hl hlow hhigh => ?_, fun hl hn => ?_, fun hf hcfg hinLen => ?_⟩
  · have hl' : q.life = .fault := hl
    rw [hstep]
    simp only [hostWriteCsr, hl']
  · obtain ⟨r, hr, hsame, hother⟩ := cfgRegsWrite_eq_some q v hlow hhigh
    exact ⟨_, hstep.trans (congrArg _ (hostWriteCsr_cfg q hl hr)), hsame, hother, rfl⟩
  · subst hn
    exact ⟨_, hstep.trans (congrArg _ (hostWriteCsr_inLen q v hl)), setWidth_31_setWidth_32 v, rfl⟩
  · rw [hstep, hostWriteCsr_refused q v hf hcfg hinLen, q.raiseFatal_eq_faulted _ _ hf]

end Sys2Proof.Machine
end

