-- ==== Sys2Proof/Proofs/Instance.lean ====
section
/-! O18, O29: what CONSTRUCT creates, and what PB_CONV leaves in `ACC`. -/

namespace Sys2Proof.Machine

variable {E : Env}

theorem construct_of_wellFormed (s : State E) (hl : s.life = .unconfigured) (hcfg : cfgWellFormed s.cfg = true) :
    construct s = construction s := by
  have hnone : cfgFailing s.cfg = none := by simpa [cfgWellFormed] using hcfg
  simp only [construct, hl, hnone]

/-- Element `j` of row `i` lies inside the `M * L` elements of `HIST` (R61). -/
theorem tapRow_add_lt {c : Cfg} {i j : Nat} (hi : i < c.chanM) (hj : j < c.partLen) :
    tapRow c i + j < c.chanM * c.partLen := by
  unfold tapRow
  calc i * c.partLen + j < (i + 1) * c.partLen := by rw [Nat.succ_mul]; omega
    _ ≤ c.chanM * c.partLen := Nat.mul_le_mul_right _ hi

/-- The history is silent over its `M * L` elements. -/
theorem construction_hist_inside (s : State E) {a : Nat} (ha : a < s.cfg.chanM * s.cfg.partLen) :
    (construction s).sample .hist a = E.num.czero :=
  Bank.read_writeSeq_replicate _ s.mem.hist _ ha

theorem construction_hist_outside (s : State E) {a : Nat} (ha : s.cfg.chanM * s.cfg.partLen ≤ a) :
    (construction s).sample .hist a = s.sample .hist a :=
  Bank.read_writeSeq_outside _ _ s.mem.hist 0 a (.inr (by simpa using ha))

/-- Every other space but `COEF` holds unspecified contents anew (R50, log 17). -/
theorem construction_sample (s : State E) {sp : SampleSpace} (hcoef : sp ≠ .coef) (hhist : sp ≠ .hist) (a : Nat) :
    (construction s).sample sp a = E.freeSample sp ((s.mem.bank sp).epoch + 1) a := by
  cases sp with
  | coef => exact absurd rfl hcoef
  | hist => exact absurd rfl hhist
  | _ => rfl

/-- Settles O18: CONSTRUCT leaves `construction s`, read field by field. -/
theorem constructCreatesInstance : Obligations.ConstructCreatesInstance := by
  intro s hl hcfg
  refine ⟨construction s, congrArg _ (construct_of_wellFormed s hl hcfg),
    fun i j hi hj => construction_hist_inside s (tapRow_add_lt hi hj), fun a => construction_hist_outside s,
    fun i hi => ⟨?_, ?_, ?_⟩, ?_, fun sp => construction_sample s, fun c => rfl, rfl, rfl⟩
  · exact zeroLengths_read _ s.lens.win hi
  · exact zeroLengths_read _ s.lens.wout hi
  · exact zeroLengths_read _ s.lens.sout hi
  · exact zeroLengths_read _ s.lens.fbuf Nat.one_pos

/-! ### `ACC` after PB_CONV -/

/-- Settles O29: `ACC` takes the last of the sums that PB_CONV stores in `WOUT`. -/
theorem pbConvLeavesLastSum : Obligations.PbConvLeavesLastSum := by
  intro i s t hi hs hexec
  obtain rfl : pbConv i s = t := effect_of_exec hexec
  rw [pbConv_eq i s hi hs]
  refine ⟨fun hzero => ?_, fun hpos => ?_⟩
  · have hnil : convolved s i = [] := List.eq_nil_of_length_eq_zero (by simp [hzero])
    simp [hnil]
  · have hlen := convolved_length s i
    have hlast : s.segLen - 1 < (convolved s i).length := by omega
    have hget : (convolved s i).getLast? = some (convolved s i)[s.segLen - 1] := by
      simp [List.getLast?_eq_getElem?, hlen]
    rw [State.advance_acc, State.setAcc_acc, hget, Option.getD_some, State.advance_sample, State.setAcc_sample,
      State.sample_store_inside _ _ _ _ _ hlast]

end Sys2Proof.Machine
end

