-- ==== Sys2Proof/Proofs/CanonicalForm.lean ====
section
/-! O55: the canonical form of memory and of the length latches. Each turn keeps it, from any state: a fault touches
neither, the micro-operations past their guards are `Works`, CONSTRUCT, DESTROY and the reset input make banks anew, and
a host write replaces one element. -/

namespace Sys2Proof.Machine

variable {E : Env}

/-- `t` has memory and latches in canonical form where `s` has. -/
structure KeepsForm (s t : State E) : Prop where
  memory : s.mem.wf = true → t.mem.wf = true
  latches : s.lens.wf = true → t.lens.wf = true

namespace KeepsForm

variable {s t : State E}

theorem of_eq (hmem : t.mem = s.mem) (hlens : t.lens = s.lens) : KeepsForm s t :=
  ⟨fun h => hmem ▸ h, fun h => hlens ▸ h⟩

theorem raiseFatal (s : State E) (c : FatalCode) (w : Word) : KeepsForm s (s.raiseFatal c w) :=
  of_eq (by simp) (by simp)

theorem setAnswer (h : KeepsForm s t) (d : Option (Datum E.Cx)) : KeepsForm s { t with answer := d } := { h with }

/-- The entry after one that worked. -/
theorem of_works (h : Works s t) : KeepsForm s t.advance := ⟨h.memory, h.latches⟩

theorem withChannel {i : Nat} (h : KeepsForm s t) : KeepsForm s (withChannel i s t) :=
  withChannel_cases i s t (raiseFatal ..) h

theorem withSegment {sp : SampleSpace} (h : s.segLen ≤ s.cfg.segCap → KeepsForm s t) :
    KeepsForm s (withSegment sp s t) :=
  withSegment_cases sp s t (raiseFatal ..) h

theorem whenIdle {w : Word} (h : KeepsForm s t) : KeepsForm s (whenIdle w s t) :=
  whenIdle_cases w s t (fun _ => of_eq rfl rfl) (fun _ => raiseFatal ..) (fun _ => raiseFatal ..) fun _ => h

end KeepsForm

theorem construct_keepsForm (s : State E) : KeepsForm s (construct s) :=
  construct_cases s (fun c w _ => .raiseFatal s c w) fun _ _ =>
    { memory := construction_memory_wf s
      latches := fun _ =>
        (Latches.wf_iff _).2 ⟨zeroLengths_wf .., zeroLengths_wf .., zeroLengths_wf .., zeroLengths_wf ..⟩ }

theorem resamp_keepsForm (s : State E) : KeepsForm s (resamp s) := by
  refine .withSegment fun _ => ?_
  split
  · exact .raiseFatal ..
  · unfold resampleStore
    split
    · exact .raiseFatal ..
    · exact .of_works (((Works.refl s).storeRows ..).setResult _ _)

/-- Every operation keeps the form, from any state. -/
theorem effect_keepsForm (i : Instr) (s : State E) : KeepsForm s (effect i s) := by
  have start := Works.refl s
  cases i with
  | nop => exact nop_cases s (.of_eq rfl rfl) (.raiseFatal ..)
  | construct => exact construct_keepsForm s
  | rotate => exact .whenIdle (.of_eq rfl rfl)
  | destroy => exact .whenIdle ⟨fun _ => s.mem.forgetAll_wf, fun _ => s.lens.forgetAll_wf⟩
  | validate =>
    exact validate_cases s (fun _ _ _ => .of_eq rfl rfl) (fun _ => .raiseFatal ..) fun _ _ _ _ => .of_eq rfl rfl
  | pbReset c =>
    exact .withChannel <| .withSegment fun hs => .of_works <|
      ((start.store ..).store ..).setLens _ (Latches.setChannelLens_wf · c _) (·.setChannelLens c hs)
  | pbDeint c => exact .withChannel <| .withSegment fun _ => .of_works (start.store ..)
  | pbSplice c => exact .withChannel <| .of_works (start.store ..)
  | pbConv c => exact .withChannel <| .withSegment fun _ => .of_works ((start.store ..).setAcc _)
  | pbHupd c => exact .withChannel <| .withSegment fun _ => .of_works (start.store ..)
  | ssIlv =>
    exact .withSegment fun hs => .of_works <|
      (start.store ..).setLens _ (Latches.setFbufLen_wf · _) (·.setFbufLen hs)
  | ssFft =>
    exact .withSegment fun _ => .of_works (start.setBank _ _ fun hm => transformed_wf s (Memory.bank_wf _ .fbuf hm))
  | ssDlv =>
    exact .withSegment fun hs => .of_works <|
      (start.storeRows ..).setLens _ (Latches.setSoutLens_wf · _) (·.setSoutLens hs)
  | resamp => exact resamp_keepsForm s
  | ret => exact .of_eq rfl rfl

theorem hostWriteOlen_keepsForm (s : State E) (c : Nat) (v : Word) : KeepsForm s (hostWriteOlen s c v) :=
  hostWriteOlen_cases s c v
    (fun _ => ⟨fun hm => Memory.setOlen_wf hm (Bank.write_wf _ c _ (Memory.olen_wf hm)), id⟩) fun _ => .raiseFatal ..

theorem Turn.keepsForm {q t : State} (h : Turn q t) : KeepsForm q t := by
  cases h with
  | rest => exact .of_eq rfl rfl
  | micro => exact effect_keepsForm ..
  | command => exact effect_keepsForm ..
  | refused w =>
    obtain ⟨c, -, heq⟩ := refuseCommand_eq q w
    exact heq ▸ .raiseFatal ..
  | readWord sp a =>
    exact hostReadWord_cases q sp a (fun _ => .of_eq rfl rfl) fun w => (KeepsForm.raiseFatal q _ w).setAnswer none
  | writeCsr n v =>
    exact hostWriteCsr_cases q n v (fun _ _ => .of_eq rfl rfl) (fun _ => .of_eq rfl rfl) fun _ => .raiseFatal ..
  | writeOlen c v => exact hostWriteOlen_keepsForm q c v
  | readSample sp a =>
    exact hostReadSample_cases q sp a (fun _ => .of_eq rfl rfl) fun w => (KeepsForm.raiseFatal q _ w).setAnswer none
  | writeSample sp a z =>
    exact hostWriteSample_cases q sp a z (fun _ => ⟨State.store_wf q sp a [z], id⟩) fun _ => .raiseFatal ..
  | reset => exact ⟨fun _ => q.mem.forgetAll_wf, fun _ => q.lens.forgetAll_wf⟩

/-- Settles O55: the form does not speak of the inbox, and every turn keeps it. -/
theorem stepKeepsCanonicalForm : Obligations.StepKeepsCanonicalForm := by
  intro s t hmem hlens hstep
  obtain ⟨rest, hturn⟩ := turn_of_step hstep
  exact ⟨hturn.keepsForm.memory hmem, hturn.keepsForm.latches hlens⟩

end Sys2Proof.Machine
end

