-- ==== Sys2Proof/Proofs/SampleAccess.lean ====
section
/-! O49: the host's accesses to the sample spaces, held to the table of R66. -/

namespace Sys2Proof.Machine

variable {E : Env}

/-! ### The rights of R66 -/

/-- The rows of R66 that let the host read a sample space. -/
theorem mayReadSample_iff (l : Life) (sp : SampleSpace) :
    mayReadSample l sp = true ↔ (l = .unconfigured ∧ sp = .coef) ∨
      (l = .idle ∧ (sp = .coef ∨ sp = .hist ∨ sp = .inp ∨ sp = .out)) := by
  cases l <;> cases sp <;> decide

/-- The rows of R66 that let it write one. -/
theorem mayWriteSample_iff (l : Life) (sp : SampleSpace) :
    mayWriteSample l sp = true ↔ (l = .unconfigured ∧ sp = .coef) ∨ (l = .idle ∧ (sp = .inp ∨ sp = .out)) := by
  cases l <;> cases sp <;> decide

theorem mayReadSample_of_mayWriteSample {l : Life} {sp : SampleSpace} (h : mayWriteSample l sp = true) :
    mayReadSample l sp = true := by
  rw [mayWriteSample_iff] at h
  rw [mayReadSample_iff]
  tauto

/-- Where the host may read, only `COEF` before CONSTRUCT has another end than R60's (log 16). -/
theorem hostSpaceSize_of_readable (s : State E) {sp : SampleSpace} (h : mayReadSample s.life sp = true) :
    hostSpaceSize s sp = if s.life = .unconfigured then 2 ^ 31 - 1 else sampleSpaceSize s.cfg sp := by
  obtain ⟨hl, rfl⟩ | ⟨hl, -⟩ := (mayReadSample_iff _ _).1 h
  · simp [hostSpaceSize, hl]
  · simp [hostSpaceSize, hl]

/-- A read is allowed exactly where the table of R66 has a row and the element is inside the space. -/
theorem readSample_allowed_iff (s : State E) (sp : SampleSpace) (a : Nat) :
    (mayReadSample s.life sp = true ∧ a < hostSpaceSize s sp) ↔
      ((s.life = .unconfigured ∧ sp = .coef) ∨ (s.life = .idle ∧ (sp = .coef ∨ sp = .hist ∨ sp = .inp ∨ sp = .out))) ∧
        a < if s.life = .unconfigured then 2 ^ 31 - 1 else sampleSpaceSize s.cfg sp := by
  rw [← mayReadSample_iff]
  exact and_congr_right fun h => by rw [hostSpaceSize_of_readable s h]

/-- The same for a write. -/
theorem writeSample_allowed_iff (s : State E) (sp : SampleSpace) (a : Nat) :
    (mayWriteSample s.life sp = true ∧ a < hostSpaceSize s sp) ↔
      ((s.life = .unconfigured ∧ sp = .coef) ∨ (s.life = .idle ∧ (sp = .inp ∨ sp = .out))) ∧
        a < if s.life = .unconfigured then 2 ^ 31 - 1 else sampleSpaceSize s.cfg sp := by
  rw [← mayWriteSample_iff]
  exact and_congr_right fun h => by rw [hostSpaceSize_of_readable s (mayReadSample_of_mayWriteSample h)]

/-! ### Allowed and refused accesses -/

theorem hostReadSample_allowed (s : State E) {sp : SampleSpace} {a : Nat}
    (h : mayReadSample s.life sp = true ∧ a < hostSpaceSize s sp) :
    hostReadSample s sp a = { s with answer := some (.sample (s.sample sp a)) } := if_pos h

theorem hostReadSample_refused (s : State E) {sp : SampleSpace} {a : Nat}
    (h : ¬ (mayReadSample s.life sp = true ∧ a < hostSpaceSize s sp)) :
    hostReadSample s sp a = { s.raiseFatal .access (sampleSpaceId sp) with answer := none } := if_neg h

theorem hostWriteSample_allowed (s : State E) {sp : SampleSpace} {a : Nat} (z : E.Cx)
    (h : mayWriteSample s.life sp = true ∧ a < hostSpaceSize s sp) :
    hostWriteSample s sp a z = s.store sp a [z] := if_pos h

theorem hostWriteSample_refused (s : State E) {sp : SampleSpace} {a : Nat} (z : E.Cx)
    (h : ¬ (mayWriteSample s.life sp = true ∧ a < hostSpaceSize s sp)) :
    hostWriteSample s sp a z = s.raiseFatal .access (sampleSpaceId sp) := if_neg h

/-- A sample space reads as before a write of one of its elements, but for that element. -/
theorem State.sample_store_singleton (s : State E) (sp : SampleSpace) (a b : Nat) (z : E.Cx) :
    (s.store sp a [z]).sample sp b = if b = a then z else s.sample sp b := by
  rw [State.sample, State.store_mem, Memory.setBank_bank_same]
  exact Bank.read_write _ (s.mem.bank sp) a b z

/-- Settles O49: the rights and the ends are those of R66 and log 16, and an access is done or refused by them. -/
theorem hostAccessesSampleSpaces : Obligations.HostAccessesSampleSpaces := by
  intro s sp a z rest q inside readable writable id
  have hid : id = sampleSpaceId sp := by cases sp <;> rfl
  have hread : _ ↔ readable ∧ inside := readSample_allowed_iff q sp a
  have hwrite : _ ↔ writable ∧ inside := writeSample_allowed_iff q sp a
  refine ⟨fun hinbox => ⟨fun h => ?_, fun h hl => ?_, fun hl => ?_⟩,
    fun hinbox => ⟨fun h => ?_, fun h hl => ?_, fun hl => ?_⟩⟩
  · rw [step_readSample hinbox, hostReadSample_allowed q (hread.2 h)]
    rfl
  · rw [step_readSample hinbox, hostReadSample_refused q (mt hread.1 h), q.raiseFatal_eq_faulted _ _ hl, hid]
  · have h : ¬ (readable ∧ inside) := by simp [readable, hl]
    rw [step_readSample hinbox, hostReadSample_refused q (mt hread.1 h), q.raiseFatal_fault _ _ hl]
  · refine ⟨q.store sp a [z], ?_, fun b => q.sample_store_singleton sp a b z,
      fun sq hsq => Memory.setBank_bank_other _ _ _ _ hsq, Memory.setBank_olen _ _ _, rfl⟩
    rw [step_writeSample hinbox, hostWriteSample_allowed q z (hwrite.2 h)]
  · rw [step_writeSample hinbox, hostWriteSample_refused q z (mt hwrite.1 h), q.raiseFatal_eq_faulted _ _ hl, hid]
  · exact (step_writeSample hinbox).trans (congrArg _ (hostWriteSample_fault (s := q) sp a z hl))

end Sys2Proof.Machine
end

