-- ==== Sys2Proof/Proofs/SequencerFaults.lean ====
section
/-! O54: the faults a micro-operation can take from a sound state. VALIDATE's guarantees (R123) leave only the capacity
fault of VALIDATE itself and the return code of RESAMP. -/

namespace Sys2Proof.Machine

variable {E : Env}

theorem State.raiseFatal_faultCode (s : State E) (c : FatalCode) (w : Word) (hl : s.life ≠ .fault) :
    (s.raiseFatal c w).faultCode = c := by
  rw [s.raiseFatal_eq _ _ hl]

/-- In a ROTATE the sequencer finds a micro-operation at `UPC`, on a channel that is there (R172). -/
theorem Sound.entry {s : State E} (h : Sound s) (hb : s.life = .busy) :
    ∃ w i, uprog s.cfg.chanM s.upc.toNat = some w ∧ decode w = .op i ∧ s.upc.toNat = indexOf s.cfg.chanM i ∧
      i.isHostCommand = false ∧ ∀ c, i.channel? = some c → c < s.cfg.chanM := by
  obtain ⟨w, hw⟩ := uprog_isSome _ _ (h.upcInRange hb)
  obtain ⟨-, -, hm⟩ := chanM_of_wellFormed (h.configured (.inr hb))
  obtain ⟨i, hi⟩ := uprog_operation _ _ w hm hw
  exact ⟨w, i, hw, hi⟩

/-- The faults of the micro-program from a sound state (R122, R176). -/
def MicroFault (c : FatalCode) : Prop := c = .none ∨ c = .capacity ∨ c = .retRange

theorem validate_microFault {s : State E} (h : Sound s) (hb : s.life = .busy) : MicroFault (validate s).faultCode := by
  have hl : s.life ≠ .fault := by simp [hb]
  have hnone := h.faultCode_none hl
  exact validate_cases (p := fun t => MicroFault t.faultCode) s (fun _ _ _ => .inl hnone)
    (fun w => .inr (.inl (s.raiseFatal_faultCode _ w hl))) fun _ _ _ _ => .inl hnone

/-- The entry at `UPC` takes no other fault. -/
theorem Sound.effect_microFault {s : State E} (h : Sound s) (hb : s.life = .busy) {i : Instr}
    (hu : s.upc.toNat = indexOf s.cfg.chanM i) (hhost : i.isHostCommand = false)
    (hch : ∀ c, i.channel? = some c → c < s.cfg.chanM) : MicroFault (effect i s).faultCode := by
  have hl : s.life ≠ .fault := by simp [hb]
  have hnone := h.faultCode_none hl
  by_cases hv : i = .validate
  · subst hv
    exact validate_microFault h hb
  by_cases hr : i = .ret
  · subst hr
    exact .inl hnone
  obtain ⟨hpast, hbefore⟩ := indexOf_between hhost hch hv hr
  have hvalid := h.validated hb (hu ▸ hpast) (hu ▸ hbefore)
  obtain ⟨w, heq⟩ | ⟨t, hworks, heq⟩ := effect_works i s hvalid hhost hch hv hr
  · exact .inr (.inr (heq ▸ s.raiseFatal_faultCode _ w hl))
  · exact .inl (heq ▸ hworks.faultCode.trans hnone)

/-- Settles O54: the step runs the entry at `UPC`, whose faults are others. -/
theorem sequencerStaysInsideItsSpaces : Obligations.SequencerStaysInsideItsSpaces := by
  intro s t h hb hinbox hstep
  obtain ⟨w, i, hw, hd, hu, hhost, hch⟩ := h.entry hb
  obtain ⟨hrun, -⟩ := stepRunsMicroOperation s w i hb hw hd
  obtain rfl := effect_of_exec ((hrun hinbox).symm.trans hstep)
  obtain hc | hc | hc := h.effect_microFault hb hu hhost hch <;> simp [hc]

end Sys2Proof.Machine
end

