-- ==== Sys2Proof/Proofs/Encoding.lean ====
section
/-! O1 to O5: the operation word. `decode_eq_op_iff` says field by field which words spell an operation; the round trip
and the table of R92 are read off it, and an `ILLEGAL` word fails one of the decoder's three tests. -/

namespace Sys2Proof

/-! ### A word is its three fields (R91) -/

theorem word_eq_iff (v w : Word) :
    v = w ↔ opcodeField v = opcodeField w ∧ reservedField v = reservedField w ∧ channelField v = channelField w := by
  refine ⟨fun h => h ▸ ⟨rfl, rfl, rfl⟩, fun ⟨hopc, hrsv, hch⟩ => ?_⟩
  rw [← fields_append v, hopc, hrsv, hch, fields_append]

@[simp] theorem opcodeField_and (v w : Word) : opcodeField (v &&& w) = opcodeField v &&& opcodeField w :=
  BitVec.extractLsb'_and

@[simp] theorem reservedField_and (v w : Word) : reservedField (v &&& w) = reservedField v &&& reservedField w :=
  BitVec.extractLsb'_and

@[simp] theorem channelField_and (v w : Word) : channelField (v &&& w) = channelField v &&& channelField w :=
  BitVec.extractLsb'_and

/-- The class is the upper half of the opcode. -/
theorem class_eq (w : Word) : w.extractLsb' 28 4 = (opcodeField w).extractLsb' 4 4 := by
  apply BitVec.eq_of_getLsbD_eq
  intro j hj
  simp only [opcodeField, BitVec.getLsbD_extractLsb', ← Nat.add_assoc, hj, decide_true, Bool.true_and]
  rw [decide_eq_true (by omega), Bool.true_and]

/-! ### Opcodes and operations -/

/-- The same operation on another channel, where it has one. -/
def Instr.onChannel (i : Instr) (ch : Nat) : Instr :=
  match i with
  | .pbReset _ => .pbReset ch
  | .pbDeint _ => .pbDeint ch
  | .pbSplice _ => .pbSplice ch
  | .pbConv _ => .pbConv ch
  | .pbHupd _ => .pbHupd ch
  | i => i

@[simp] theorem opcodeOf_onChannel (i : Instr) (ch : Nat) : opcodeOf (i.onChannel ch) = opcodeOf i := by cases i <;> rfl

@[simp] theorem onChannel_onChannel (i : Instr) (ch ch' : Nat) : (i.onChannel ch).onChannel ch' = i.onChannel ch' := by
  cases i <;> rfl

theorem onChannel_channel?_eq_none_iff (i : Instr) (ch : Nat) :
    (i.onChannel ch).channel? = none ↔ i.channel? = none := by
  cases i <;> simp [Instr.onChannel, Instr.channel?]

/-- An operation stands on channel `ch`, or has none and `ch` is zero, exactly when `ch` is its `ch` field. -/
theorem onChannel_eq_self_iff (i : Instr) (ch : Nat) :
    i.onChannel ch = i ∧ (i.channel? = none → ch = 0) ↔ ch = i.channel?.getD 0 := by
  cases i <;> simp [Instr.onChannel, Instr.channel?]

theorem operationOf_opcodeOf (i : Instr) (ch : Nat) : operationOf (opcodeOf i).toNat ch = some (i.onChannel ch) := by
  cases i <;> rfl

/-- The operation of an opcode is the one that has it. -/
theorem operationOf_eq_some_iff (opc : BitVec 8) (ch : Nat) (i : Instr) :
    operationOf opc.toNat ch = some i ↔ opc = opcodeOf i ∧ i.onChannel ch = i := by
  constructor
  · intro h
    have ⟨hopc, hself⟩ : opc.toNat = (opcodeOf i).toNat ∧ i.onChannel ch = i := by
      unfold operationOf at h
      split at h <;> cases h <;> exact ⟨‹_›, rfl⟩
    exact ⟨BitVec.eq_of_toNat_eq hopc, hself⟩
  · rintro ⟨rfl, hself⟩
    rw [operationOf_opcodeOf, hself]

/-- Class 2 is the class of the operations with a channel. -/
theorem class_opcodeOf (i : Instr) : (opcodeOf i).extractLsb' 4 4 ≠ 2 ↔ i.channel? = none := by
  cases i <;> simp [opcodeOf, Instr.channel?]

/-! ### The words of an operation -/

theorem decode_unlisted {w : Word} (h : operationOf (opcodeField w).toNat (channelField w).toNat = none) :
    decode w = .illegal .unlistedOpcode := by
  simp only [decode, h]

theorem decode_listed {w : Word} {i : Instr}
    (h : operationOf (opcodeField w).toNat (channelField w).toNat = some i) :
    decode w = if reservedField w ≠ 0 then .illegal .reservedNotZero
      else if i.channel? = none ∧ channelField w ≠ 0 then .illegal .channelNotZero else .op i := by
  simp only [decode, h]

/-- The decoder's three tests, passed. -/
theorem decode_eq_op_iff_tests (w : Word) (i : Instr) :
    decode w = .op i ↔ operationOf (opcodeField w).toNat (channelField w).toNat = some i ∧ reservedField w = 0 ∧
      (i.channel? = none → channelField w = 0) := by
  cases h : operationOf (opcodeField w).toNat (channelField w).toNat with
  | none => simp [decode_unlisted h]
  | some j =>
    rw [decode_listed h, Option.some_inj]
    split_ifs with hrsv hch
    · exact iff_of_false (by simp) fun ⟨_, hzero, _⟩ => hrsv hzero
    · refine iff_of_false (by simp) ?_
      rintro ⟨rfl, -, hzero⟩
      exact hch.2 (hzero hch.1)
    · rw [Decoded.op.injEq]
      refine ⟨?_, And.left⟩
      rintro rfl
      exact ⟨rfl, not_not.1 hrsv, fun hc => not_not.1 fun hne => hch ⟨hc, hne⟩⟩

/-- A word spells an operation exactly when its fields are the opcode, zero, and the channel or zero (R91, R94). -/
theorem decode_eq_op_iff (w : Word) (i : Instr) :
    decode w = .op i ↔
      opcodeField w = opcodeOf i ∧ reservedField w = 0 ∧ (channelField w).toNat = i.channel?.getD 0 := by
  have hzero : channelField w = 0 ↔ (channelField w).toNat = 0 := BitVec.toNat_inj.symm
  rw [decode_eq_op_iff_tests, operationOf_eq_some_iff, hzero, ← onChannel_eq_self_iff]
  tauto

theorem encode_fields (i : Instr) : Laws.EncodeFields.Statement i := by
  cases h : i.channel? with
  | none => exact Laws.EncodeFields.plain i h
  | some ch => exact Laws.EncodeFields.onChannel i ch h

/-- Settles O1: the three fields of the encoded operation are those the decoder asks for. -/
theorem decodeOfEncode : Obligations.DecodeOfEncode := fun i hwf => (decode_eq_op_iff _ i).2 (encode_fields i hwf)

/-- Settles O2: the fields put side by side are the word, and a channel read from the field fits it. -/
theorem encodeOfDecode : Obligations.EncodeOfDecode := by
  intro w i hdecode
  obtain ⟨hopc, hrsv, hch⟩ := (decode_eq_op_iff w i).1 hdecode
  constructor
  · rw [encode, ← hopc, ← hrsv, ← hch, BitVec.ofNat_toNat, BitVec.setWidth_eq, fields_append]
  · unfold Instr.wellFormed
    cases hc : i.channel? with
    | none => rfl
    | some ch =>
      rw [hc, Option.getD_some] at hch
      exact decide_eq_true (hch ▸ (channelField w).isLt)

/-! ### The table of R92 -/

/-- The row of the table in which an operation stands. -/
def rowOf (i : Instr) : OpRow :=
  { want := opcodeOf i ++ (0 : BitVec 8) ++ (0 : BitVec 16)
    mask := BitVec.allOnes 8 ++ BitVec.allOnes 8 ++ (if i.channel? = none then BitVec.allOnes 16 else 0)
    op := i.onChannel }

/-- One operation for each row of the table, in its order. -/
def tableOps : List Instr :=
  [.nop, .construct, .rotate, .destroy, .validate, .pbReset 0, .pbDeint 0, .pbSplice 0, .pbConv 0, .pbHupd 0, .ssIlv,
    .ssFft, .ssDlv, .resamp, .ret]

theorem opTable_eq : opTable = tableOps.map rowOf := rfl

/-- The row does not depend on the channel. -/
theorem rowOf_onChannel (i : Instr) (ch : Nat) : rowOf (i.onChannel ch) = rowOf i := by cases i <;> rfl

theorem onChannel_zero_mem_tableOps (i : Instr) : i.onChannel 0 ∈ tableOps := by
  cases i <;> simp [Instr.onChannel, tableOps]

/-- Looking for a row of the table is looking for an operation. -/
theorem exists_row_iff {p : OpRow → Prop} : (∃ row ∈ opTable, p row) ↔ ∃ i, p (rowOf i) := by
  simp only [opTable_eq, List.mem_map, exists_exists_and_eq_and]
  constructor
  · rintro ⟨i, -, hi⟩
    exact ⟨i, hi⟩
  · rintro ⟨i, hi⟩
    exact ⟨i.onChannel 0, onChannel_zero_mem_tableOps i, (rowOf_onChannel i 0).symm ▸ hi⟩

/-- What `w & mask = match` asks of the fields of a word: a row without a channel asks for a zero `ch` field. -/
theorem matches_rowOf_iff (w : Word) (i : Instr) :
    w &&& (rowOf i).mask = (rowOf i).want ↔
      opcodeField w = opcodeOf i ∧ reservedField w = 0 ∧ (i.channel? = none → channelField w = 0) := by
  rw [word_eq_iff, rowOf, opcodeField_and, reservedField_and, channelField_and]
  simp only [opcodeField_append, reservedField_append, channelField_append, BitVec.and_allOnes]
  by_cases hc : i.channel? = none
  · simp only [hc, if_true, BitVec.and_allOnes, forall_const]
  · simp [hc]

/-- Settles O3: a row matches by the fields the decoder reads, and gives the operation on the channel of the word. -/
theorem decoderFollowsOpcodeTable : Obligations.DecoderFollowsOpcodeTable := by
  intro w i
  rw [exists_row_iff, decode_eq_op_iff, ← onChannel_eq_self_iff]
  constructor
  · rintro ⟨hopc, hrsv, hself, hzero⟩
    exact ⟨i, (matches_rowOf_iff w i).2 ⟨hopc, hrsv, fun hc => BitVec.eq_of_toNat_eq (hzero hc)⟩, hself.symm⟩
  · rintro ⟨j, hmatch, rfl⟩
    obtain ⟨hopc, hrsv, hzero⟩ := (matches_rowOf_iff w j).1 hmatch
    refine ⟨hopc.trans (opcodeOf_onChannel j _).symm, hrsv, onChannel_onChannel j _ _, fun hc => ?_⟩
    rw [hzero ((onChannel_channel?_eq_none_iff j _).1 hc)]
    rfl

/-! ### `ILLEGAL` -/

/-- An opcode has no operation exactly when it is not one of the fifteen of R92. -/
theorem operationOf_eq_none_iff (opc ch : Nat) :
    operationOf opc ch = none ↔
      opc ∉ [0x00, 0x01, 0x02, 0x03, 0x10, 0x20, 0x21, 0x22, 0x23, 0x24, 0x30, 0x31, 0x32, 0x40, 0x41] := by
  unfold operationOf
  split <;> simp_all

/-- The decoder's three tests, one failed. -/
theorem decode_illegal_iff (w : Word) :
    (∃ why, decode w = .illegal why) ↔
      operationOf (opcodeField w).toNat (channelField w).toNat = none ∨ reservedField w ≠ 0 ∨
        (w.extractLsb' 28 4 ≠ 2 ∧ channelField w ≠ 0) := by
  cases h : operationOf (opcodeField w).toNat (channelField w).toNat with
  | none => exact iff_of_true ⟨_, decode_unlisted h⟩ (.inl rfl)
  | some i =>
    obtain ⟨hopc, -⟩ := (operationOf_eq_some_iff _ _ i).1 h
    rw [decode_listed h, class_eq, hopc, class_opcodeOf]
    split_ifs with hrsv hch
    · exact iff_of_true ⟨_, rfl⟩ (.inr (.inl hrsv))
    · exact iff_of_true ⟨_, rfl⟩ (.inr (.inr hch))
    · exact iff_of_false (by simp) (by rintro (⟨⟩ | h | h) <;> contradiction)

/-- Settles O4: the three tests, the first of them by the list of opcodes. -/
theorem illegalWordsAreExactlyThese : Obligations.IllegalWordsAreExactlyThese := fun w =>
  (decode_illegal_iff w).trans (or_congr_left (operationOf_eq_none_iff _ _))

/-- Settles O5: the decoder run on each word. -/
theorem specWordsDecode : Obligations.SpecWordsDecode := by
  unfold Obligations.SpecWordsDecode
  decide

end Sys2Proof
end

