-- ==== Sys2Proof/Proofs/MicroProgram.lean ====
section
/-! O7: the micro-program, decoded. Its `5*M` entries between VALIDATE and the spectral stage are read five at
a time. -/

namespace Sys2Proof.Machine

/-- Entries that decode to these operations. -/
def reads (is : List Instr) : List (Option Decoded) := is.map fun i => some (.op i)

theorem reads_append (is js : List Instr) : reads (is ++ js) = reads is ++ reads js := List.map_append

theorem reads_flatMap {α : Type} (l : List α) (f : α → List Instr) :
    reads (l.flatMap f) = l.flatMap fun a => reads (f a) := List.map_flatMap

/-- The entry at an index of the micro-program, decoded (R90, R171). -/
def readEntry (m u : Nat) : Option Decoded := (uprog m u).map decode

/-- Entry `k` of the five of channel `i` is the word of function `k` of class 2 (R91, R171). -/
theorem uprog_channel {m i k : Nat} (hi : i < m) (hk : k < 5) :
    uprog m (1 + (5 * i + k)) = some (BitVec.ofNat 32 (0x20000000 + k * 0x01000000 + i)) := by
  rw [uprog, if_neg (by omega), if_pos (by omega), show (1 + (5 * i + k) - 1) % 5 = k by omega,
    show (1 + (5 * i + k) - 1) / 5 = i by omega]

theorem readEntry_channel {m i k : Nat} (hm : m ≤ 65536) (hi : i < m) (hk : k < 5) :
    readEntry m (1 + (5 * i + k)) = (operationOf (0x20 + k) i).map .op := by
  rw [readEntry, uprog_channel hi hk, Option.map_some, decode_bankWord k i hk (by omega)]

/-- The five entries of a channel read as `CHANNEL i` (R98). -/
theorem map_readEntry_channel {m i : Nat} (hm : m ≤ 65536) (hi : i < m) :
    ((List.range 5).map fun k => readEntry m (1 + (5 * i + k))) = reads (channelOps i) :=
  calc _ = (List.range 5).map fun k => (operationOf (0x20 + k) i).map Decoded.op :=
        List.map_congr_left fun _ hk => readEntry_channel hm hi (List.mem_range.1 hk)
    _ = _ := rfl

/-- The entries past those of the channels are five (R171). -/
theorem uprog_afterChannels (m k : Nat) :
    uprog m (1 + 5 * m + k) =
      [0x30000000, 0x31000000, 0x32000000, 0x40000000, 0x41000000][k]? := by
  have hindex : ∀ j, 1 + 5 * m + k = 5 * m + (j + 1) ↔ k = j := by omega
  rw [uprog, if_neg (by omega), if_neg (by omega)]
  simp only [hindex 0, hindex 1, hindex 2, hindex 3, hindex 4]
  match k with
  | 0 | 1 | 2 | 3 | 4 => rfl
  | k + 5 => simp

/-- They read as `SPECTRAL; RESAMP; RET`. -/
theorem map_readEntry_afterChannels (m : Nat) :
    ((List.range 5).map fun k => readEntry m (1 + 5 * m + k)) = reads (spectralOps ++ [.resamp, .ret]) := by
  simp only [readEntry, uprog_afterChannels]
  decide

theorem readEntry_zero (m : Nat) : readEntry m 0 = some (.op .validate) := by
  have hdecode : decode 0x10000000 = .op .validate := by decide
  exact congrArg some hdecode

/-- A list of `n * m` numbers in `m` groups of `n`. -/
theorem range_mul (n m : Nat) :
    List.range (n * m) = (List.range m).flatMap fun i => (List.range n).map (n * i + ·) := by
  induction m with
  | zero => rfl
  | succ m ih => rw [Nat.mul_succ, List.range_add, ih, List.range_succ, List.flatMap_append, List.flatMap_singleton]

/-- The entries of the channels read as `PBANK` (R98). -/
theorem map_readEntry_channels {m : Nat} (hm : m ≤ 65536) :
    ((List.range (5 * m)).map fun u => readEntry m (1 + u)) = reads (pbankOps m) := by
  rw [range_mul, pbankOps, List.map_flatMap, reads_flatMap]
  refine List.flatMap_congr fun i hi => ?_
  rw [List.map_map]
  exact map_readEntry_channel hm (List.mem_range.1 hi)

/-- Settles O7: entry 0, the entries of the channels, and the last five. -/
theorem microProgramReads : Obligations.MicroProgramReads := by
  intro m hm
  have hsplit : List.range (5 * m + 6) =
      0 :: (List.range (5 * m)).map (1 + ·) ++ (List.range 5).map (1 + 5 * m + ·) := by
    rw [show 5 * m + 6 = 1 + 5 * m + 5 by omega, List.range_add, List.range_add]
    rfl
  change (List.range (5 * m + 6)).map (readEntry m) =
    reads ([.validate] ++ pbankOps m ++ spectralOps ++ [.resamp, .ret])
  rw [hsplit, List.map_append, List.map_cons, List.map_map, List.map_map, List.append_assoc _ spectralOps, reads_append,
    reads_append, ← map_readEntry_channels hm, ← map_readEntry_afterChannels, readEntry_zero]
  rfl

end Sys2Proof.Machine
end

