-- ==== Sys2Proof/Proofs/HostCommand.lean ====
section
/-! O9, O53: a command word the host writes is run at once, and from a sound state there is nothing `fetch` could stop
at: in BUSY the sequencer finds a micro-operation, and every operation answers a next state. -/

namespace Sys2Proof.Machine

variable {E : Env}

theorem issueCommand_host (s : State E) {w : Word} {i : Instr} (hd : decode w = .op i)
    (hhost : i.isHostCommand = true) : issueCommand s w = .run i s := by
  simp [issueCommand, hd, hhost]

/-- Settles O9. -/
theorem stepRunsHostCommand : Obligations.StepRunsHostCommand := by
  intro s w i rest hinbox hd hhost
  apply step_of_run
  rw [fetch, hinbox]
  exact issueCommand_host _ hd hhost

/-! ### No stop from a sound state -/

/-- What `fetch` says leads to a next state. -/
def Fetch.Continues (f : Fetch) : Prop := ∃ t, f.outcome = .next t

theorem continues_run (i : Instr) (s : State) : (Fetch.run i s).Continues := ⟨_, exec_eq_next_effect i s⟩

theorem continues_done (s : State) : (Fetch.done s).Continues := ⟨s, rfl⟩

/-- The sequencer has a micro-operation to run, or nothing to do. -/
theorem Sound.sequencerTurn_continues {s : State} (h : Sound s) : (sequencerTurn s).Continues := by
  by_cases hb : s.life = .busy
  · obtain ⟨w, i, hw, hd, -⟩ := h.entry hb
    rw [sequencerTurn_busy hb hw hd]
    exact continues_run i s
  · rw [sequencerTurn_not_busy hb]
    exact continues_done s

theorem hostWriteWord_continues (s : State) (sp : WordSpace) (a : Nat) (v : Word) :
    (hostWriteWord s sp a v).Continues :=
  hostWriteWord_cases s sp a v (fun i _ _ _ _ => continues_run i s) (fun _ _ _ => continues_done _)
    (fun _ _ => continues_done _) fun _ => continues_done _

/-- Settles O53: by who has the step. Only the sequencer's turn could stop. -/
theorem soundStateNeverStops : Obligations.SoundStateNeverStops := by
  intro s h
  rw [step_eq_outcome]
  exact fetch_cases (p := Fetch.Continues) s
    (hturn := fun _ => h.sequencerTurn_continues)
    (hquiet := fun rest _ => (h.host rest s.answer).sequencerTurn_continues)
    (hawait := fun _ _ _ => continues_done _)
    (hrw := fun _ _ _ _ => continues_done _)
    (hww := fun _ _ _ _ _ => hostWriteWord_continues ..)
    (hrs := fun _ _ _ _ => continues_done _)
    (hws := fun _ _ _ _ _ => continues_done _)
    (hreset := fun _ _ => continues_done _)

end Sys2Proof.Machine
end

