-- ==== Sys2Proof/Proofs/ChannelFilter.lean ====
section
/-! O31: the five operations of a channel, in order, are the overlap-save filter. PB_RESET, PB_DEINT and PB_SPLICE load
`WIN` with the history followed by the segment; PB_CONV and PB_HUPD then read it as the filter does its list. -/

namespace Sys2Proof.Machine

variable {E : Env}

/-! ### Operations in order -/

/-- Operations in order answer the state that their effects in order leave. -/
theorem execAll_eq_next (is : List Instr) (s : State) :
    execAll is s = .next (is.foldl (fun t i => effect i t) s) := by
  induction is generalizing s with
  | nil => rfl
  | cons i is ih => rw [execAll, exec_eq_next_effect, List.foldl_cons, ← ih]

/-! ### Named updates of different fields, and rows of samples -/

theorem State.advance_store (s : State E) (sp : SampleSpace) (a : Nat) (vs : List E.Cx) :
    s.advance.store sp a vs = (s.store sp a vs).advance := rfl

theorem State.setLens_store (s : State E) (l : Latches) (sp : SampleSpace) (a : Nat) (vs : List E.Cx) :
    (s.setLens l).store sp a vs = (s.store sp a vs).setLens l := rfl

theorem State.setAcc_store (s : State E) (z : E.Cx) (sp : SampleSpace) (a : Nat) (vs : List E.Cx) :
    (s.setAcc z).store sp a vs = (s.store sp a vs).setAcc z := rfl

theorem State.advance_setAcc (s : State E) (z : E.Cx) : s.advance.setAcc z = (s.setAcc z).advance := rfl

theorem State.advance_five (s : State E) :
    s.advance.advance.advance.advance.advance = { s with upc := s.upc + 5 } := by
  simp [State.advance, BitVec.add_assoc]

@[simp] theorem State.advance_samples (s : State E) (sp : SampleSpace) (a n : Nat) :
    s.advance.samples sp a n = s.samples sp a n := rfl

@[simp] theorem State.setLens_samples (s : State E) (l : Latches) (sp : SampleSpace) (a n : Nat) :
    (s.setLens l).samples sp a n = s.samples sp a n := rfl

@[simp] theorem State.setAcc_samples (s : State E) (z : E.Cx) (sp : SampleSpace) (a n : Nat) :
    (s.setAcc z).samples sp a n = s.samples sp a n := rfl

@[simp] theorem State.advance_spliced (s : State E) (i : Nat) : s.advance.spliced i = s.spliced i := rfl

@[simp] theorem State.setLens_spliced (s : State E) (l : Latches) (i : Nat) :
    (s.setLens l).spliced i = s.spliced i := rfl

/-- `MemRead` of what a `MemWrite` wrote. -/
theorem State.samples_store_same (s : State E) (sp : SampleSpace) (a : Nat) {n : Nat} {vs : List E.Cx}
    (h : vs.length = n) : (s.store sp a vs).samples sp a n = vs := by
  refine List.ext_getElem (by simp [h]) fun k _ hk => ?_
  rw [State.samples_getElem, State.sample_store_inside _ _ _ _ _ hk]

theorem State.samples_store_other (s : State E) {sp sq : SampleSpace} (a b n : Nat) (vs : List E.Cx) (h : sq ≠ sp) :
    (s.store sp a vs).samples sq b n = s.samples sq b n := by
  simp only [State.samples, State.sample_store_other _ _ _ _ _ _ h]

/-! ### The window of the filter -/

/-- The list the filter runs over: the history, then the segment of `n` samples (R133). -/
def filterWindow (s : State E) (n i : Nat) : List E.Cx :=
  s.samples .hist (tapRow s.cfg i) s.cfg.partLen ++ segmentOf s n i

@[simp] theorem segmentOf_length (s : State E) (n i : Nat) : (segmentOf s n i).length = n := by simp [segmentOf]

@[simp] theorem filterWindow_length (s : State E) (n i : Nat) : (filterWindow s n i).length = s.cfg.partLen + n := by
  simp [filterWindow]

theorem channelFilter_output (s : State E) (n i : Nat) :
    (channelFilter s n i).1 =
      (List.range n).map (convSum E.num (fun k => s.sample .coef (tapRow s.cfg i + k))
        (fun t => (filterWindow s n i).getD t E.num.czero) s.cfg.partLen) := by
  simp [channelFilter, overlapSave, filterWindow]

theorem channelFilter_history (s : State E) (n i : Nat) : (channelFilter s n i).2 = (filterWindow s n i).drop n := by
  simp [channelFilter, overlapSave, filterWindow]

@[simp] theorem channelFilter_output_length (s : State E) (n i : Nat) : (channelFilter s n i).1.length = n := by
  simp [channelFilter_output]

@[simp] theorem channelFilter_history_length (s : State E) (n i : Nat) :
    (channelFilter s n i).2.length = s.cfg.partLen := by
  simp [channelFilter_history]

theorem convSum_congr {num : NumDomain} {h w h' w' : Nat → num.Cx} {taps n : Nat} (hh : ∀ k < taps, h k = h' k)
    (hw : ∀ k < taps, w (n + 1 + k) = w' (n + 1 + k)) : convSum num h w taps n = convSum num h' w' taps n := by
  unfold convSum
  refine List.foldl_ext _ _ _ fun acc k hk => ?_
  rw [hh k (List.mem_range.1 hk), hw k (List.mem_range.1 hk)]

/-! ### PB_RESET, PB_DEINT and PB_SPLICE load the window -/

/-- What the three write to memory. -/
def loadWindow (i : Nat) (s : State E) : State E :=
  (((s.store .win (winRow s.cfg i) (List.replicate (s.cfg.partLen + s.segLen) E.num.czero)).store .wout
    (bufRow s.cfg i) (List.replicate s.segLen E.num.czero)).store .win
      (segRow s.cfg i) (segmentOf s s.segLen i)).store .win
        (winRow s.cfg i) (s.samples .hist (tapRow s.cfg i) s.cfg.partLen)

@[simp] theorem loadWindow_cfg (i : Nat) (s : State E) : (loadWindow i s).cfg = s.cfg := by simp [loadWindow]

@[simp] theorem loadWindow_segLen (i : Nat) (s : State E) : (loadWindow i s).segLen = s.segLen := by simp [loadWindow]

/-- It writes nothing but `WIN` and `WOUT`. -/
theorem loadWindow_sample_other (i : Nat) (s : State E) {sp : SampleSpace} (hwin : sp ≠ .win) (hwout : sp ≠ .wout)
    (a : Nat) : (loadWindow i s).sample sp a = s.sample sp a := by
  simp [loadWindow, State.sample_store_other, hwin, hwout]

theorem loadWindow_wout_outside (i : Nat) (s : State E) {a : Nat} (ha : ¬ inRow (bufRow s.cfg i) s.segLen a) :
    (loadWindow i s).sample .wout a = s.sample .wout a := by
  rw [loadWindow, State.sample_store_other _ _ _ _ _ _ (by decide), State.sample_store_other _ _ _ _ _ _ (by decide),
    State.sample_store_outside _ _ _ _ _ (by simp; omega), State.sample_store_other _ _ _ _ _ _ (by decide)]

/-- The spliced view holds the history and then the segment. -/
theorem loadWindow_spliced (i : Nat) (s : State E) {k : Nat} (hk : k < (filterWindow s s.segLen i).length) :
    (loadWindow i s).spliced i k = (filterWindow s s.segLen i)[k] := by
  rw [State.spliced, loadWindow_cfg, loadWindow]
  obtain hhist | hseg := Nat.lt_or_ge k s.cfg.partLen
  · rw [State.sample_store_inside _ _ _ _ _ (by simpa using hhist)]
    exact (List.getElem_append_left _).symm
  · obtain ⟨j, rfl⟩ := Nat.exists_eq_add_of_le hseg
    have hrow : winRow s.cfg i + s.cfg.partLen = segRow s.cfg i := rfl
    rw [State.sample_store_outside _ _ _ _ _ (by simp), ← Nat.add_assoc, hrow,
      State.sample_store_inside _ _ _ _ _ (by simpa using hk)]
    simp [filterWindow]

/-- The latches that PB_RESET leaves (R131). -/
def resetLens (i : Nat) (s : State E) : Latches :=
  { s.lens with win := s.lens.win.write i s.segLen, wout := s.lens.wout.write i s.segLen }

/-- PB_DEINT writes the segment of any state with the same `IN`, `SEG` and configuration. -/
theorem deinterleaved_eq_segmentOf {s t : State E} (i : Nat) (hcfg : t.cfg = s.cfg) (hseg : t.segLen = s.segLen)
    (hinp : ∀ a, t.sample .inp a = s.sample .inp a) : deinterleaved t i = segmentOf s s.segLen i := by
  simp only [deinterleaved, segmentOf, hcfg, hseg, hinp]

theorem pbSplice_pbDeint_pbReset (i : Nat) (s : State E) (hi : i < s.cfg.chanM) (hs : s.segLen ≤ s.cfg.segCap) :
    pbSplice i (pbDeint i (pbReset i s)) = ((loadWindow i s).setLens (resetLens i s)).advance.advance.advance := by
  have hreset := pbReset_eq i s hi hs
  generalize pbReset i s = r at hreset ⊢
  have hsegment : deinterleaved r i = segmentOf s s.segLen i :=
    deinterleaved_eq_segmentOf i (by simp [hreset]) (by simp [hreset]) (by simp [hreset, State.sample_store_other])
  have hdeint := pbDeint_eq i r (by simpa [hreset] using hi) (by simpa [hreset] using hs)
  rw [hsegment] at hdeint
  generalize pbDeint i r = d at hdeint ⊢
  have hcfg : d.cfg = s.cfg := by simp [hdeint, hreset]
  have hhistory : ∀ a n, d.samples .hist a n = s.samples .hist a n := by
    simp [State.samples, hdeint, hreset, State.sample_store_other]
  rw [pbSplice_eq i d (hcfg ▸ hi), hhistory, hcfg, hdeint, hreset]
  simp only [State.advance_store, State.setLens_store, State.advance_cfg, State.setLens_cfg, State.store_cfg]
  rfl

/-! ### PB_CONV and PB_HUPD filter it -/

/-- PB_CONV's sums are the filter's output. -/
theorem convolved_loadWindow (i : Nat) (s : State E) :
    convolved (loadWindow i s) i = (channelFilter s s.segLen i).1 := by
  rw [channelFilter_output, convolved, loadWindow_cfg, loadWindow_segLen]
  refine List.map_congr_left fun n hn => convSum_congr (fun k _ => ?_) fun k hk => ?_
  · exact loadWindow_sample_other i s (by decide) (by decide) _
  · have hlt : n + 1 + k < (filterWindow s s.segLen i).length := by
      rw [List.mem_range] at hn
      rw [filterWindow_length]
      omega
    rw [loadWindow_spliced i s hlt, List.getD_eq_getElem _ _ hlt]

/-- The samples PB_HUPD keeps are the filter's new history. -/
theorem samples_loadWindow (i : Nat) (s : State E) :
    (loadWindow i s).samples .win (winRow s.cfg i + s.segLen) s.cfg.partLen = (channelFilter s s.segLen i).2 := by
  refine List.ext_getElem (by simp) fun k hk _ => ?_
  have hlt : s.segLen + k < (filterWindow s s.segLen i).length := by
    rw [State.samples_length] at hk
    rw [filterWindow_length]
    omega
  simp only [channelFilter_history, List.getElem_drop, State.samples_getElem]
  rw [Nat.add_assoc, ← loadWindow_spliced i s hlt, State.spliced, loadWindow_cfg]

/-- What the five operations write to memory. -/
def filterChannel (i : Nat) (s : State E) : State E :=
  ((loadWindow i s).store .wout (bufRow s.cfg i) (channelFilter s s.segLen i).1).store .hist (tapRow s.cfg i)
    (channelFilter s s.segLen i).2

theorem filterChannel_wout (i : Nat) (s : State E) :
    (filterChannel i s).samples .wout (bufRow s.cfg i) s.segLen = (channelFilter s s.segLen i).1 := by
  rw [filterChannel, State.samples_store_other _ _ _ _ _ (by decide), State.samples_store_same _ _ _ (by simp)]

theorem filterChannel_hist (i : Nat) (s : State E) :
    (filterChannel i s).samples .hist (tapRow s.cfg i) s.cfg.partLen = (channelFilter s s.segLen i).2 := by
  rw [filterChannel, State.samples_store_same _ _ _ (by simp)]

theorem filterChannel_wout_outside (i : Nat) (s : State E) {a : Nat} (ha : ¬ inRow (bufRow s.cfg i) s.segLen a) :
    (filterChannel i s).sample .wout a = s.sample .wout a := by
  rw [filterChannel, State.sample_store_other _ _ _ _ _ _ (by decide),
    State.sample_store_outside _ _ _ _ _ (by simp; omega), loadWindow_wout_outside i s ha]

theorem filterChannel_hist_outside (i : Nat) (s : State E) {a : Nat} (ha : ¬ inRow (tapRow s.cfg i) s.cfg.partLen a) :
    (filterChannel i s).sample .hist a = s.sample .hist a := by
  rw [filterChannel, State.sample_store_outside _ _ _ _ _ (by simp; omega),
    State.sample_store_other _ _ _ _ _ _ (by decide), loadWindow_sample_other i s (by decide) (by decide)]

/-- `t` is `s` but for the contents of `WIN`, `WOUT` and `HIST`. -/
def SameButBank (s t : State E) : Prop :=
  ∃ win wout hist, t = { s with mem := { s.mem with win := win, wout := wout, hist := hist } }

theorem SameButBank.refl (s : State E) : SameButBank s s := ⟨_, _, _, rfl⟩

theorem SameButBank.store {s t : State E} (h : SameButBank s t) {sp : SampleSpace}
    (hsp : sp = .win ∨ sp = .wout ∨ sp = .hist) (a : Nat) (vs : List E.Cx) : SameButBank s (t.store sp a vs) := by
  obtain ⟨win, wout, hist, rfl⟩ := h
  obtain rfl | rfl | rfl := hsp <;> exact ⟨_, _, _, rfl⟩

theorem filterChannel_sameButBank (i : Nat) (s : State E) : SameButBank s (filterChannel i s) := by
  unfold filterChannel loadWindow
  refine ((((((SameButBank.refl s).store ?_ _ _).store ?_ _ _).store ?_ _ _).store ?_ _ _).store ?_ _ _).store ?_ _ _
  all_goals decide

/-- PB_CONV and PB_HUPD, wherever PB_SPLICE left the latches and `UPC`. -/
theorem pbHupd_pbConv {i : Nat} {s w : State E} {l : Latches} (hi : i < s.cfg.chanM) (hs : s.segLen ≤ s.cfg.segCap)
    (hw : w = ((loadWindow i s).setLens l).advance.advance.advance) :
    ∃ z, pbHupd i (pbConv i w) = (((filterChannel i s).setLens l).setAcc z).advance.advance.advance.advance.advance := by
  have hcfg : w.cfg = s.cfg := by simp [hw]
  have hseg : w.segLen = s.segLen := by simp [hw]
  have hconvolved : convolved w i = (channelFilter s s.segLen i).1 := by
    rw [← convolved_loadWindow, hw]
    simp [convolved]
  have hconv := pbConv_eq i w (hcfg ▸ hi) (by rwa [hcfg, hseg])
  rw [hconvolved, hcfg] at hconv
  generalize pbConv i w = c at hconv ⊢
  have hcfg' : c.cfg = s.cfg := by simp [hconv, hcfg]
  have hseg' : c.segLen = s.segLen := by simp [hconv, hseg]
  have hkept : c.samples .win (winRow s.cfg i + s.segLen) s.cfg.partLen = (channelFilter s s.segLen i).2 := by
    rw [← samples_loadWindow, hconv, hw]
    simp [State.samples, State.sample_store_other]
  rw [pbHupd_eq i c (hcfg' ▸ hi) (by rwa [hcfg', hseg']), hcfg', hseg', hkept, hconv, hw]
  simp only [State.advance_store, State.setLens_store, State.setAcc_store, State.advance_setAcc, filterChannel]
  exact ⟨_, rfl⟩

theorem foldl_channelOps (i : Nat) (s : State E) :
    (channelOps i).foldl (fun t i => effect i t) s = pbHupd i (pbConv i (pbSplice i (pbDeint i (pbReset i s)))) := by
  simp only [channelOps, List.foldl_cons, List.foldl_nil, effect]

/-- Settles O31: in memory the five operations are `filterChannel`, read row by row. -/
theorem channelIsOverlapSave : Obligations.ChannelIsOverlapSave := by
  intro i s hi hs
  obtain ⟨z, hz⟩ := pbHupd_pbConv hi hs (pbSplice_pbDeint_pbReset i s hi hs)
  rw [execAll_eq_next, foldl_channelOps, hz]
  refine ⟨_, rfl, ?_, ?_, fun a ha => ?_, fun a ha => ?_, ?_, ?_⟩
  · simpa using filterChannel_wout i s
  · simpa using filterChannel_hist i s
  · simpa using filterChannel_wout_outside i s ha
  · simpa using filterChannel_hist_outside i s ha
  · obtain ⟨_, _, _, hbank⟩ := filterChannel_sameButBank i s
    rw [hbank]
    rfl
  · obtain ⟨_, _, _, hbank⟩ := filterChannel_sameButBank i s
    rw [hbank, State.advance_five]
    rfl

end Sys2Proof.Machine
end

