-- ==== Sys2Proof/Proofs/Validator.lean ====
section
/-! O21, O23, O24: VALIDATE where both length tests have passed. -/

namespace Sys2Proof.Machine

variable {E : Env}

/-! ### After both length tests (R121, R122) -/

section
variable {s : State E} (hin : s.inputLen % (s.cfg.q * s.cfg.mul) = 0)
  (hout : (s.olen 0).toNat % (s.cfg.p * s.cfg.mul) = 0)
include hin hout

theorem validate_of_inputOver (hover : s.cfg.chanM * s.cfg.segCap < s.inputLen) :
    validate s = s.raiseFatal .capacity (BitVec.ofNat 32 s.inputLen) := by
  simp [validate, inputAligned, outputAligned, hin, hout, hover]

theorem validate_of_outputOver (hcap : s.inputLen ≤ s.cfg.chanM * s.cfg.segCap) {l : Len}
    (hlong : firstOverlong s = some l) : validate s = s.raiseFatal .capacity (l.setWidth 32) := by
  simp [validate, inputAligned, outputAligned, hin, hout, hcap.not_gt, hlong]

theorem validate_of_fits (hcap : s.inputLen ≤ s.cfg.chanM * s.cfg.segCap)
    (hfit : ∀ c < s.cfg.chanM, (s.olen c).toNat ≤ s.cfg.outCap) : validate s = validation s := by
  simp [validate, inputAligned, outputAligned, hin, hout, hcap.not_gt, firstOverlong_none s hfit, validation,
    State.advance]

end

/-! ### The statements -/

/-- Settles O21: with every test passed VALIDATE leaves `validation s`. -/
theorem validatePasses : Obligations.ValidatePasses := by
  intro s hin hout hcap hfit
  exact congrArg _ (validate_of_fits hin hout hcap hfit)

/-- Settles O23: the input comes first, and then the channel that `firstOverlong` finds. -/
theorem validateCapacityFault : Obligations.ValidateCapacityFault := by
  intro s hl hin hout
  have hraise : ∀ w, validate s = s.raiseFatal .capacity w → exec .validate s = .next (s.faulted .capacity w) :=
    fun w h => congrArg _ (h.trans (s.raiseFatal_eq_faulted _ w hl))
  refine ⟨fun hover => hraise _ ?_, fun c hc hcap hover hfirst => hraise _ ?_⟩
  · rw [validate_of_inputOver hin hout hover, State.inputLen, BitVec.ofNat_toNat]
  · exact validate_of_outputOver hin hout hcap (firstOverlong_some s c hc hover hfirst)

/-- A VALIDATE that stays in BUSY with `VOK = 1` neither took a fault nor failed, so it passed (R123). -/
theorem validate_validated (s : State E) (hcfg : cfgWellFormed s.cfg = true) :
    (validate s).life = .busy → (validate s).vok = true → Validated (validate s) := by
  refine validate_cases (p := fun t => t.life = .busy → t.vok = true → Validated t) s
    (fun b n d _ hvok => ?_) (fun w hbusy _ => ?_) fun hin hout hcap hfit _ _ => ?_
  · cases hvok
  · simp at hbusy
  · exact validation_validated s hcfg hin hout hcap hfit

/-- Settles O24. -/
theorem validateGuarantees : Obligations.ValidateGuarantees := by
  rintro s t hcfg - hexec hbusy hvok
  cases hexec
  exact validate_validated s hcfg hbusy hvok

end Sys2Proof.Machine
end

