-- ==== Sys2Proof/Proofs/BankOperations.lean ====
section
/-! O25, O26, O27, O28, O30: the five operations of the partition bank, each a `MemWrite` or two into rows of its channel;
what it writes is read by the rule inside a row and the frame by the rule outside it. -/

namespace Sys2Proof.Machine

variable {E : Env}

/-- The channel check of R93 outside FAULT, for a channel there is not. -/
theorem withChannel_faulted {i : Nat} {s : State E} (done : State E) (hi : s.cfg.chanM ≤ i) (hl : s.life ≠ .fault) :
    withChannel i s done = s.faulted .chanRange (BitVec.ofNat 32 i) := by
  rw [withChannel_outside i s done hi, s.raiseFatal_eq_faulted _ _ hl]

/-- `MemRead` outside the row of a `MemWrite`, the row as the statements give it. -/
theorem State.sample_store_outRow (s : State E) (sp : SampleSpace) {base n a : Nat} {vs : List E.Cx}
    (hlen : vs.length = n) (ha : ¬ inRow base n a) : (s.store sp base vs).sample sp a = s.sample sp a :=
  s.sample_store_outside sp base a vs (by omega)

/-- Settles O25: both stores of `pbReset_eq`, the window's read past the store into `WOUT`. -/
theorem pbResetClearsChannel : Obligations.PbResetClearsChannel := by
  intro i s
  refine ⟨fun hi hs => ⟨pbReset i s, rfl, ?_⟩, fun hi hl => congrArg _ (withChannel_faulted _ hi hl)⟩
  rw [pbReset_eq i s hi hs]
  refine ⟨fun k hk => ?_, fun k hk => ?_, ?_, ?_, fun a ha => ?_, fun a ha => ?_, fun j hj => ⟨?_, ?_⟩, rfl, rfl, ?_⟩
  · simp [State.spliced, State.sample_store_other, State.sample_store_inside, hk]
  · simp [State.sample_store_inside, hk]
  · simp [State.winLen, Bank.read_write]
  · simp [State.woutLen, Bank.read_write]
  · simp only [State.advance_sample, State.setLens_sample]
    rw [State.sample_store_other _ _ _ _ _ _ (by decide), State.sample_store_outRow _ _ (by simp) ha]
  · simp only [State.advance_sample, State.setLens_sample]
    rw [State.sample_store_outRow _ _ (by simp) ha, State.sample_store_other _ _ _ _ _ _ (by decide)]
  · simp [State.winLen, Bank.read_write, hj]
  · simp [State.woutLen, Bank.read_write, hj]
  · simp only [State.store, State.setBank, State.setLens, State.advance]

/-- Settles O26: the store of `pbDeint_eq`, of the segment `deinterleaved`. -/
theorem pbDeintTakesReverseOrder : Obligations.PbDeintTakesReverseOrder := by
  intro i s
  refine ⟨fun hi hs => ⟨pbDeint i s, rfl, ?_⟩, fun hi hl => congrArg _ (withChannel_faulted _ hi hl)⟩
  rw [pbDeint_eq i s hi hs]
  refine ⟨fun k hk => ?_, fun a ha => ?_, rfl, rfl⟩
  · rw [State.advance_sample, State.sample_store_inside _ _ _ _ _ (by simpa using hk)]
    simp [deinterleaved, deintIndex]
  · exact State.sample_store_outRow _ _ (deinterleaved_length s i) ha

/-- Settles O27: the store of `pbSplice_eq`, of the history row. -/
theorem pbSplicePrependsHistory : Obligations.PbSplicePrependsHistory := by
  intro i s
  refine ⟨fun hi => ⟨pbSplice i s, rfl, ?_⟩, fun hi hl => congrArg _ (withChannel_faulted _ hi hl)⟩
  rw [pbSplice_eq i s hi]
  refine ⟨fun j hj => ?_, fun a ha => ?_, rfl, rfl⟩
  · simp [State.spliced, State.sample_store_inside, hj]
  · exact State.sample_store_outRow _ _ (State.samples_length ..) ha

/-- Settles O28: the store of `pbConv_eq`, each element a `convSum`. -/
theorem pbConvCorrelates : Obligations.PbConvCorrelates := by
  intro i s
  refine ⟨fun hi hs => ⟨pbConv i s, rfl, ?_⟩, fun hi hl => congrArg _ (withChannel_faulted _ hi hl)⟩
  rw [pbConv_eq i s hi hs]
  refine ⟨fun n hn => ?_, fun a ha => ?_, rfl, rfl⟩
  · rw [State.advance_sample, State.setAcc_sample, State.sample_store_inside _ _ _ _ _ (by simpa using hn)]
    simp [convolved, convSum]
  · exact State.sample_store_outRow _ _ (convolved_length s i) ha

/-- Settles O30: the store of `pbHupd_eq`, of the window's tail. -/
theorem pbHupdKeepsTail : Obligations.PbHupdKeepsTail := by
  intro i s
  refine ⟨fun hi hs => ⟨pbHupd i s, rfl, ?_⟩, fun hi hl => congrArg _ (withChannel_faulted _ hi hl)⟩
  rw [pbHupd_eq i s hi hs]
  refine ⟨fun j hj => ?_, fun a ha => ?_, rfl, rfl⟩
  · simp [State.spliced, State.sample_store_inside, hj, Nat.add_assoc]
  · exact State.sample_store_outRow _ _ (State.samples_length ..) ha

end Sys2Proof.Machine
end

