-- ==== Sys2Proof/Proofs/OverlapSave.lean ====
section
/-! O32, O33, O34, O36: laws of the overlap-save filter on lists. The output reads the window, history then segment, from
its second sample on; the history is the window without as many samples as the segment has. -/

namespace Sys2Proof.Machine

section
variable {num : NumDomain} {coef : Nat → num.Cx} {taps n : Nat} {hist seg A B : List num.Cx}

/-! ### The two parts of the filter's answer -/

/-- Output sample `n` over the window `w`. -/
def windowSum (num : NumDomain) (coef : Nat → num.Cx) (taps : Nat) (w : List num.Cx) (n : Nat) : num.Cx :=
  convSum num coef (fun t => w.getD t num.czero) taps n

theorem overlapSave_output :
    (overlapSave num coef taps hist seg).1 = (List.range seg.length).map (windowSum num coef taps (hist ++ seg)) := rfl

theorem overlapSave_history : (overlapSave num coef taps hist seg).2 = (hist ++ seg).drop seg.length := rfl

theorem overlapSave_output_getElem? (hn : n < seg.length) :
    (overlapSave num coef taps hist seg).1[n]? = some (windowSum num coef taps (hist ++ seg) n) := by
  simp [overlapSave_output, hn]

/-! ### Chunks (R137) -/

/-- An output sample does not see what follows the samples it reads. -/
theorem windowSum_append {v w : List num.Cx} (hlen : n + taps < v.length) :
    windowSum num coef taps (v ++ w) n = windowSum num coef taps v n :=
  convSum_congr (fun _ _ => rfl) fun k hk => List.getD_append _ _ _ _ (by omega)

/-- Dropping `a` samples of the window moves the outputs by `a`. -/
theorem windowSum_drop (w : List num.Cx) (a n : Nat) :
    windowSum num coef taps (w.drop a) n = windowSum num coef taps w (a + n) := by
  simp only [windowSum, convSum, List.getD_eq_getElem?_getD, List.getElem?_drop, Nat.add_assoc]

/-- The window of the second chunk is that of both without the first chunk's length. -/
theorem overlapSave_history_append :
    (overlapSave num coef taps hist A).2 ++ B = (hist ++ (A ++ B)).drop A.length := by
  rw [overlapSave_history, ← List.append_assoc, List.drop_append_of_le_length (l₁ := hist ++ A) (by simp)]

/-- Settles O32: an output of `A` reads nothing of `B`, and one of `B` reads the window `A.length` samples later. -/
theorem overlapSaveContinuity : Obligations.OverlapSaveContinuity := by
  intro num coef taps hist A B hlen
  refine ⟨by simp [overlapSave_history, hlen], Prod.ext ?_ ?_⟩
  · have hfirst : (overlapSave num coef taps hist A).1 =
        (List.range A.length).map (windowSum num coef taps (hist ++ (A ++ B))) := by
      refine List.map_congr_left fun n hn => ?_
      rw [List.mem_range] at hn
      rw [← List.append_assoc]
      exact (windowSum_append (by simp; omega)).symm
    have hsecond : (overlapSave num coef taps (overlapSave num coef taps hist A).2 B).1 =
        (List.range B.length).map fun n => windowSum num coef taps (hist ++ (A ++ B)) (A.length + n) := by
      rw [overlapSave_output, overlapSave_history_append]
      exact List.map_congr_left fun n _ => windowSum_drop _ _ _
    simp only [hfirst, hsecond, overlapSave_output, List.length_append, List.range_add, List.map_append, List.map_map]
    rfl
  · rw [overlapSave_history, overlapSave_history, overlapSave_history_append, List.drop_drop, List.length_append]

/-! ### The history is the tail of the stream (R136) -/

/-- The history after any segments, from any history. -/
theorem foldl_overlapSave_history (segments : List (List num.Cx)) (hist : List num.Cx) :
    segments.foldl (fun hist seg => (overlapSave num coef taps hist seg).2) hist =
      (hist ++ segments.flatten).drop segments.flatten.length := by
  induction segments generalizing hist with
  | nil => simp
  | cons seg segments ih =>
    rw [List.foldl_cons, ih, overlapSave_history_append, List.drop_drop, List.flatten_cons, List.length_append]

end

/-- Settles O33: the case of a silent start. -/
theorem historyIsStreamTail : Obligations.HistoryIsStreamTail :=
  fun _ _ _ segments => foldl_overlapSave_history segments _

/-! ### Silence and the impulse (R139, R140) -/

section
variable {num : NumDomain} {h w : Nat → num.Cx} {taps n : Nat}

theorem convSum_succ :
    convSum num h w (taps + 1) n = num.cadd (convSum num h w taps n) (num.cmul (h taps) (w (n + 1 + taps))) := by
  simp [convSum, List.range_succ]

/-- A sum over silence is silent. -/
theorem convSum_silent (hmul : ∀ k, num.cmul (h k) num.czero = num.czero)
    (hadd : num.cadd num.czero num.czero = num.czero) (hw : ∀ k < taps, w (n + 1 + k) = num.czero) :
    convSum num h w taps n = num.czero := by
  induction taps with
  | zero => rfl
  | succ taps ih => rw [convSum_succ, ih fun k hk => hw k (by omega), hw taps (by omega), hmul, hadd]

/-- Where `czero` is neutral, a sum over silence but for the sample that meets coefficient `k` is that product. -/
theorem convSum_impulse {k : Nat} (hmul : ∀ k, num.cmul (h k) num.czero = num.czero)
    (hzero : ∀ x, num.cadd num.czero x = x) (hzero' : ∀ x, num.cadd x num.czero = x) (hk : k < taps)
    (hw : ∀ j < taps, j ≠ k → w (n + 1 + j) = num.czero) :
    convSum num h w taps n = num.cmul (h k) (w (n + 1 + k)) := by
  induction taps with
  | zero => omega
  | succ taps ih =>
    rw [convSum_succ]
    obtain rfl | hlt : k = taps ∨ k < taps := by omega
    · rw [convSum_silent hmul (hzero _) fun j hj => hw j (by omega) (by omega), hzero]
    · rw [ih hlt fun j hj => hw j (by omega), hw taps (by omega) (by omega), hmul, hzero']

end

/-- Settles O34: the window is silent throughout. -/
theorem silenceInSilenceOut : Obligations.SilenceInSilenceOut := by
  intro num coef taps n hmul hadd
  refine Prod.ext ?_ (by simp [overlapSave_history])
  rw [overlapSave_output, List.replicate_append_replicate, List.eq_replicate_iff]
  refine ⟨by simp, fun x hx => ?_⟩
  obtain ⟨m, -, rfl⟩ := List.mem_map.1 hx
  exact convSum_silent hmul hadd fun k _ => by simp [List.getD_eq_getElem?_getD]

theorem numExact_cmul_czero (x : numExact.Cx) : numExact.cmul x numExact.czero = numExact.czero := by simp

theorem numExact_czero_cadd (x : numExact.Cx) : numExact.cadd numExact.czero x = x := by simp

theorem numExact_cadd_czero (x : numExact.Cx) : numExact.cadd x numExact.czero = x := by simp

/-- The window of the impulse scenario (R140): silence but for `a` at position `taps + n0`. -/
theorem impulseWindow_getD {α : Type} (z a : α) (taps n n0 t : Nat) (hn0 : n0 < n) :
    (List.replicate taps z ++ (List.replicate n z).set n0 a).getD t z = if t = taps + n0 then a else z := by
  obtain ht | ht := Nat.lt_or_ge t taps
  · rw [List.getD_append _ _ _ _ (by simpa using ht), List.getD_replicate _ ht, if_neg (by omega)]
  · rw [List.getD_append_right _ _ _ _ (by simpa using ht), List.length_replicate, List.getD_eq_getElem?_getD]
    by_cases himpulse : t = taps + n0
    · simp [himpulse, hn0]
    · rw [List.getElem?_set_ne (by omega), if_neg himpulse, List.getElem?_getD_replicate_default_eq]

/-- Settles O36: output `m` meets the impulse at the coefficient `taps - 1 - (m - n0)`, where there is one. -/
theorem impulseReproducesCoefficients : Obligations.ImpulseReproducesCoefficients := by
  intro coef a taps n n0 hn0
  have hwindow := fun t => impulseWindow_getD numExact.czero a taps n n0 t hn0
  have hmul := fun k => numExact_cmul_czero (coef k)
  refine ⟨fun d hd hdn => ?_, fun m hm hout => ?_⟩
  · rw [overlapSave_output_getElem? (by simpa using hdn), windowSum,
      convSum_impulse (k := taps - 1 - d) hmul numExact_czero_cadd numExact_cadd_czero (by omega)
        fun j _ hj => (hwindow _).trans (if_neg (by omega)), hwindow, if_pos (by omega)]
  · rw [overlapSave_output_getElem? (by simpa using hm), windowSum,
      convSum_silent hmul (numExact_czero_cadd _) fun k hk => (hwindow _).trans (if_neg (by omega))]

end Sys2Proof.Machine
end

