-- ==== Sys2Proof/Proofs/BankIndependence.lean ====
section
/-! O35: an operation of the partition bank on channel `i` writes the rows and latches of that channel alone
(`ChannelsOnly`), and what it writes depends on what is visible to that channel alone (`SameChannel`). -/

namespace Sys2Proof.Machine

variable {E : Env}

/-! ### The rows of a channel -/

/-- The elements that are the channel's own among those the bank writes (R61): its rows of `WIN`, `WOUT` and `HIST`. -/
def ownRow (c : Cfg) (i : Nat) : SampleSpace → Nat → Prop
  | .win => inRow (winRow c i) (c.partLen + c.segCap)
  | .wout => inRow (bufRow c i) c.segCap
  | .hist => inRow (tapRow c i) c.partLen
  | .coef | .inp | .out | .fbuf | .sout => fun _ => False

theorem inRow_mono {base n m a : Nat} (ha : inRow base n a) (hnm : n ≤ m) : inRow base m a := ⟨ha.1, by omega⟩

/-- A segment within its capacity lies in the channel's row of `WIN`. -/
theorem inRow_of_segRow {c : Cfg} {i n a : Nat} (ha : inRow (segRow c i) n a) (hn : n ≤ c.segCap) :
    inRow (winRow c i) (c.partLen + c.segCap) a := by
  unfold segRow at ha
  constructor <;> omega

/-- Rows of one pitch at different indices are disjoint. -/
theorem pitch_disjoint {i j p a : Nat} (hij : i ≠ j) (hi : inRow (i * p) p a) : ¬ inRow (j * p) p a := by
  rintro ⟨hlo, hhi⟩
  obtain ⟨hlo', hhi'⟩ := hi
  rw [← Nat.succ_mul] at hhi hhi'
  have h1 := Nat.lt_of_mul_lt_mul_right (hlo.trans_lt hhi')
  have h2 := Nat.lt_of_mul_lt_mul_right (hlo'.trans_lt hhi)
  omega

theorem ownRow_disjoint {c : Cfg} {i j a : Nat} {sp : SampleSpace} (hij : i ≠ j) (hi : ownRow c i sp a) :
    ¬ ownRow c j sp a := by
  cases sp
  case win => exact pitch_disjoint hij hi
  case wout => exact pitch_disjoint hij hi
  case hist => exact pitch_disjoint hij hi
  all_goals exact hi.elim

/-! ### What an operation on a channel leaves alone -/

/-- From `s` to `t` nothing changes but rows and latches of channels in `cs`, `ACC` and `UPC`. -/
structure ChannelsOnly (cs : Nat → Prop) (s t : State E) : Prop where
  samples : ∀ sp a, (∀ i, cs i → ¬ ownRow s.cfg i sp a) → t.sample sp a = s.sample sp a
  winLen : ∀ j, ¬ cs j → t.winLen j = s.winLen j
  woutLen : ∀ j, ¬ cs j → t.woutLen j = s.woutLen j
  olen : t.mem.olen = s.mem.olen
  fbufLen : t.lens.fbuf = s.lens.fbuf
  soutLen : t.lens.sout = s.lens.sout
  rest : ∃ mem lens acc upc, t = { s with mem := mem, lens := lens, acc := acc, upc := upc }

namespace ChannelsOnly

variable {cs : Nat → Prop} {i : Nat} {s t u : State E}

theorem refl (s : State E) : ChannelsOnly cs s s :=
  ⟨fun _ _ _ => rfl, fun _ _ => rfl, fun _ _ => rfl, rfl, rfl, rfl, _, _, _, _, rfl⟩

theorem cfg (h : ChannelsOnly cs s t) : t.cfg = s.cfg := by
  obtain ⟨_, _, _, _, rfl⟩ := h.rest
  rfl

theorem segLen (h : ChannelsOnly cs s t) : t.segLen = s.segLen := by
  obtain ⟨_, _, _, _, rfl⟩ := h.rest
  rfl

theorem trans (h : ChannelsOnly cs s t) (h' : ChannelsOnly cs t u) : ChannelsOnly cs s u where
  samples sp a ha := (h'.samples sp a (by rwa [h.cfg])).trans (h.samples sp a ha)
  winLen j hj := (h'.winLen j hj).trans (h.winLen j hj)
  woutLen j hj := (h'.woutLen j hj).trans (h.woutLen j hj)
  olen := h'.olen.trans h.olen
  fbufLen := h'.fbufLen.trans h.fbufLen
  soutLen := h'.soutLen.trans h.soutLen
  rest := by
    obtain ⟨_, _, _, _, rfl⟩ := h.rest
    obtain ⟨_, _, _, _, rfl⟩ := h'.rest
    exact ⟨_, _, _, _, rfl⟩

/-- A `MemWrite` inside a row of one of the channels. -/
theorem store (h : ChannelsOnly cs s t) (hi : cs i) (sp : SampleSpace) (base : Nat) {vs : List E.Cx}
    (hown : ∀ a, inRow base vs.length a → ownRow s.cfg i sp a) : ChannelsOnly cs s (t.store sp base vs) :=
  { h with
    samples := fun sq a ha => by
      rw [← h.samples sq a ha]
      by_cases hsq : sq = sp
      · subst hsq
        exact State.sample_store_outRow _ _ rfl fun hrow => ha i hi (hown a hrow)
      · exact State.sample_store_other _ _ _ _ _ _ hsq
    olen := by simpa using h.olen
    rest := by
      obtain ⟨_, _, _, _, rfl⟩ := h.rest
      exact ⟨_, _, _, _, rfl⟩ }

theorem advance (h : ChannelsOnly cs s t) : ChannelsOnly cs s t.advance :=
  { h with
    rest := by
      obtain ⟨_, _, _, _, rfl⟩ := h.rest
      exact ⟨_, _, _, _, rfl⟩ }

theorem setAcc (h : ChannelsOnly cs s t) (z : E.Cx) : ChannelsOnly cs s (t.setAcc z) :=
  { h with
    rest := by
      obtain ⟨_, _, _, _, rfl⟩ := h.rest
      exact ⟨_, _, _, _, rfl⟩ }

/-- New lengths in the latches of `WIN` and `WOUT` of one of the channels. -/
theorem setLens (h : ChannelsOnly cs s t) (hi : cs i) (n : Nat) :
    ChannelsOnly cs s (t.setLens { t.lens with win := t.lens.win.write i n, wout := t.lens.wout.write i n }) :=
  { h with
    winLen := fun j hj => by
      have hne : j ≠ i := fun heq => hj (heq ▸ hi)
      simpa [State.winLen, Bank.read_write, hne] using h.winLen j hj
    woutLen := fun j hj => by
      have hne : j ≠ i := fun heq => hj (heq ▸ hi)
      simpa [State.woutLen, Bank.read_write, hne] using h.woutLen j hj
    rest := by
      obtain ⟨_, _, _, _, rfl⟩ := h.rest
      exact ⟨_, _, _, _, rfl⟩ }

end ChannelsOnly

/-! ### What an operation on a channel depends on -/

/-- What an operation on channel `i` reads or writes is the same in `s` and `t`: the coefficients and the input, and the
rows and latches of the channel. -/
structure SameChannel (i : Nat) (s t : State E) : Prop where
  cfg : t.cfg = s.cfg
  segLen : t.segLen = s.segLen
  coef : ∀ a, t.sample .coef a = s.sample .coef a
  inp : ∀ a, t.sample .inp a = s.sample .inp a
  own : ∀ sp a, ownRow s.cfg i sp a → t.sample sp a = s.sample sp a
  winLen : t.winLen i = s.winLen i
  woutLen : t.woutLen i = s.woutLen i

/-- What is done on other channels leaves it the same. -/
theorem ChannelsOnly.sameChannel {cs : Nat → Prop} {i : Nat} {s t : State E} (h : ChannelsOnly cs s t) (hi : ¬ cs i) :
    SameChannel i s t where
  cfg := h.cfg
  segLen := h.segLen
  coef a := h.samples .coef a fun _ _ => id
  inp a := h.samples .inp a fun _ _ => id
  own sp a ha := h.samples sp a fun j hj => ownRow_disjoint (by rintro rfl; exact hi hj) ha
  winLen := h.winLen i hi
  woutLen := h.woutLen i hi

/-- A read after the same `MemWrite` in two states agrees wherever it agreed before. -/
theorem State.sample_store_congr {s t : State E} {sq : SampleSpace} {a : Nat} (h : t.sample sq a = s.sample sq a)
    (sp : SampleSpace) (base : Nat) (vs : List E.Cx) :
    (t.store sp base vs).sample sq a = (s.store sp base vs).sample sq a := by
  by_cases hsq : sq = sp
  · subst hsq
    simp only [State.sample, State.store_mem, Memory.setBank_bank_same, Bank.read_writeSeq] at h ⊢
    rw [h]
  · rwa [State.sample_store_other _ _ _ _ _ _ hsq, State.sample_store_other _ _ _ _ _ _ hsq]

namespace SameChannel

variable {i : Nat} {s t u : State E}

theorem store (h : SameChannel i s t) (sp : SampleSpace) (base : Nat) (vs : List E.Cx) :
    SameChannel i (s.store sp base vs) (t.store sp base vs) :=
  { h with
    coef := fun a => State.sample_store_congr (h.coef a) sp base vs
    inp := fun a => State.sample_store_congr (h.inp a) sp base vs
    own := fun sq a ha => State.sample_store_congr (h.own sq a ha) sp base vs }

theorem advance (h : SameChannel i s t) : SameChannel i s.advance t.advance := { h with }

theorem setAcc (h : SameChannel i s t) (y z : E.Cx) : SameChannel i (s.setAcc y) (t.setAcc z) := { h with }

theorem setLens (h : SameChannel i s t) (n : Nat) :
    SameChannel i (s.setLens { s.lens with win := s.lens.win.write i n, wout := s.lens.wout.write i n })
      (t.setLens { t.lens with win := t.lens.win.write i n, wout := t.lens.wout.write i n }) :=
  { h with
    winLen := by simp [State.winLen, Bank.read_write]
    woutLen := by simp [State.woutLen, Bank.read_write] }

theorem symm (h : SameChannel i s t) : SameChannel i t s where
  cfg := h.cfg.symm
  segLen := h.segLen.symm
  coef a := (h.coef a).symm
  inp a := (h.inp a).symm
  own sp a ha := (h.own sp a (h.cfg ▸ ha)).symm
  winLen := h.winLen.symm
  woutLen := h.woutLen.symm

theorem trans (h : SameChannel i s t) (h' : SameChannel i t u) : SameChannel i s u where
  cfg := h'.cfg.trans h.cfg
  segLen := h'.segLen.trans h.segLen
  coef a := (h'.coef a).trans (h.coef a)
  inp a := (h'.inp a).trans (h.inp a)
  own sp a ha := (h'.own sp a (h.cfg ▸ ha)).trans (h.own sp a ha)
  winLen := h'.winLen.trans h.winLen
  woutLen := h'.woutLen.trans h.woutLen

theorem samples_eq (h : SameChannel i s t) {sp : SampleSpace} {base n : Nat}
    (hown : ∀ k < n, ownRow s.cfg i sp (base + k)) : t.samples sp base n = s.samples sp base n :=
  List.map_congr_left fun k hk => h.own sp _ (hown k (List.mem_range.1 hk))

theorem convolved_eq (h : SameChannel i s t) (hs : s.segLen ≤ s.cfg.segCap) : convolved t i = convolved s i := by
  rw [convolved, convolved, h.cfg, h.segLen]
  refine List.map_congr_left fun n hn => convSum_congr (fun k _ => h.coef _) fun k hk => ?_
  rw [List.mem_range] at hn
  rw [State.spliced, State.spliced, h.cfg]
  exact h.own .win _ ⟨by omega, by omega⟩

end SameChannel

/-! ### The five operations -/

theorem bankOps_cases {p : (Nat → Instr) → Prop} {op : Nat → Instr} (hop : op ∈ bankOps) (hreset : p .pbReset)
    (hdeint : p .pbDeint) (hsplice : p .pbSplice) (hconv : p .pbConv) (hhupd : p .pbHupd) : p op := by
  simp only [bankOps, List.mem_cons, List.not_mem_nil, or_false] at hop
  obtain rfl | rfl | rfl | rfl | rfl := hop
  exacts [hreset, hdeint, hsplice, hconv, hhupd]

section
variable {op : Nat → Instr} {i : Nat} {s t : State E}

/-- The frame of the five operations. -/
theorem bankOp_channelsOnly {cs : Nat → Prop} (hop : op ∈ bankOps) (hc : cs i) (hi : i < s.cfg.chanM)
    (hs : s.segLen ≤ s.cfg.segCap) : ChannelsOnly cs s (effect (op i) s) := by
  have start : ChannelsOnly cs s s := .refl s
  refine bankOps_cases (p := fun op => ChannelsOnly cs s (effect (op i) s)) hop ?_ ?_ ?_ ?_ ?_
  · rw [effect, pbReset_eq i s hi hs]
    exact (((start.store hc .win _ fun a ha => inRow_mono ha (by simp; omega)).store hc .wout _ fun a ha =>
      inRow_mono ha (by simp; omega)).setLens hc _).advance
  · rw [effect, pbDeint_eq i s hi hs]
    exact (start.store hc .win _ fun a ha => inRow_of_segRow ha (by simpa using hs)).advance
  · rw [effect, pbSplice_eq i s hi]
    exact (start.store hc .win _ fun a ha => inRow_mono ha (by simp)).advance
  · rw [effect, pbConv_eq i s hi hs]
    exact ((start.store hc .wout _ fun a ha => inRow_mono ha (by simp; omega)).setAcc _).advance
  · rw [effect, pbHupd_eq i s hi hs]
    exact (start.store hc .hist _ fun a ha => inRow_mono ha (by simp)).advance

theorem bankOp_upc (hop : op ∈ bankOps) (hi : i < s.cfg.chanM) (hs : s.segLen ≤ s.cfg.segCap) :
    (effect (op i) s).upc = s.upc + 1 :=
  bankOps_cases (p := fun op => (effect (op i) s).upc = s.upc + 1) hop (congrArg State.upc (pbReset_eq i s hi hs))
    (congrArg State.upc (pbDeint_eq i s hi hs)) (congrArg State.upc (pbSplice_eq i s hi))
    (congrArg State.upc (pbConv_eq i s hi hs)) (congrArg State.upc (pbHupd_eq i s hi hs))

/-- States that are the same to channel `i` stay so when an operation on it runs in both. -/
theorem bankOp_sameChannel (hop : op ∈ bankOps) (h : SameChannel i s t) (hi : i < s.cfg.chanM)
    (hs : s.segLen ≤ s.cfg.segCap) : SameChannel i (effect (op i) s) (effect (op i) t) := by
  have hi' : i < t.cfg.chanM := h.cfg ▸ hi
  have hs' : t.segLen ≤ t.cfg.segCap := by rwa [h.cfg, h.segLen]
  refine bankOps_cases (p := fun op => SameChannel i (effect (op i) s) (effect (op i) t)) hop ?_ ?_ ?_ ?_ ?_
  · rw [effect, pbReset_eq i s hi hs, pbReset_eq i t hi' hs', h.cfg, h.segLen]
    exact (((h.store ..).store ..).setLens _).advance
  · rw [effect, pbDeint_eq i s hi hs, pbDeint_eq i t hi' hs', h.cfg]
    have heq : deinterleaved t i = deinterleaved s i := by simp only [deinterleaved, h.cfg, h.segLen, h.inp]
    rw [heq]
    exact (h.store ..).advance
  · rw [effect, pbSplice_eq i s hi, pbSplice_eq i t hi', h.cfg,
      h.samples_eq (sp := .hist) fun k hk => ⟨by omega, by omega⟩]
    exact (h.store ..).advance
  · rw [effect, pbConv_eq i s hi hs, pbConv_eq i t hi' hs', h.cfg, h.convolved_eq hs]
    exact ((h.store ..).setAcc ..).advance
  · rw [effect, pbHupd_eq i s hi hs, pbHupd_eq i t hi' hs', h.cfg, h.segLen,
      h.samples_eq (sp := .win) fun k hk => ⟨by omega, by omega⟩]
    exact (h.store ..).advance

end

/-! ### Both orders -/

section
variable {op op' : Nat → Instr} {i j : Nat} {s : State E} (hop : op ∈ bankOps) (hop' : op' ∈ bankOps)
  (hi : i < s.cfg.chanM) (hj : j < s.cfg.chanM) (hs : s.segLen ≤ s.cfg.segCap)
include hop hop' hi hj hs

theorem bankOps_channelsOnly {cs : Nat → Prop} (hci : cs i) (hcj : cs j) :
    ChannelsOnly cs s (effect (op' j) (effect (op i) s)) := by
  have h := bankOp_channelsOnly hop hci hi hs
  exact h.trans (bankOp_channelsOnly hop' hcj (by rwa [h.cfg]) (by rwa [h.cfg, h.segLen]))

theorem bankOps_upc : (effect (op' j) (effect (op i) s)).upc = s.upc + 1 + 1 := by
  have h := bankOp_channelsOnly (cs := (· = i)) hop rfl hi hs
  rw [bankOp_upc hop' (by rwa [h.cfg]) (by rwa [h.cfg, h.segLen]), bankOp_upc hop hi hs]

/-- To channel `i` it is the same whether an operation on another channel comes after its own or before. -/
theorem bankOps_sameChannel (hij : i ≠ j) :
    SameChannel i (effect (op' j) (effect (op i) s)) (effect (op i) (effect (op' j) s)) := by
  have h := bankOp_channelsOnly (cs := (· = i)) hop rfl hi hs
  have hafter : ChannelsOnly (· = j) (effect (op i) s) (effect (op' j) (effect (op i) s)) :=
    bankOp_channelsOnly hop' rfl (by rwa [h.cfg]) (by rwa [h.cfg, h.segLen])
  have hbefore : ChannelsOnly (· = j) s (effect (op' j) s) := bankOp_channelsOnly hop' rfl hj hs
  exact (hafter.sameChannel hij).symm.trans (bankOp_sameChannel hop (hbefore.sameChannel hij) hi hs)

end

/-- Two states that differ from a third in the same channels alone, and are the same to each of these channels, agree. -/
theorem ChannelsOnly.agree {cs : Nat → Prop} {s t u : State E} (ht : ChannelsOnly cs s t) (hu : ChannelsOnly cs s u)
    (hsame : ∀ c, cs c → SameChannel c t u) :
    (∀ sp a, t.sample sp a = u.sample sp a) ∧ ∀ c, t.winLen c = u.winLen c ∧ t.woutLen c = u.woutLen c := by
  refine ⟨fun sp a => ?_, fun c => ?_⟩
  · by_cases hown : ∃ c, cs c ∧ ownRow s.cfg c sp a
    · obtain ⟨c, hc, hrow⟩ := hown
      exact ((hsame c hc).own sp a (ht.cfg ▸ hrow)).symm
    · have hout : ∀ c, cs c → ¬ ownRow s.cfg c sp a := fun c hc hrow => hown ⟨c, hc, hrow⟩
      rw [ht.samples sp a hout, hu.samples sp a hout]
  · by_cases hc : cs c
    · exact ⟨(hsame c hc).winLen.symm, (hsame c hc).woutLen.symm⟩
    · rw [ht.winLen c hc, hu.winLen c hc, ht.woutLen c hc, hu.woutLen c hc]
      exact ⟨rfl, rfl⟩

/-- Settles O35: both orders differ from `s` in the two channels alone, and to each of these they are the same. -/
theorem bankChannelsCommute : Obligations.BankChannelsCommute := by
  intro op hop op' hop' i j s hij hi hj hs
  refine ⟨effect (op' j) (effect (op i) s), effect (op i) (effect (op' j) s), execAll_eq_next _ s,
    execAll_eq_next _ s, ?_⟩
  have ht := bankOps_channelsOnly (cs := fun c => c = i ∨ c = j) hop hop' hi hj hs (.inl rfl) (.inr rfl)
  have hu := bankOps_channelsOnly (cs := fun c => c = i ∨ c = j) hop' hop hj hi hs (.inr rfl) (.inl rfl)
  have hupc := (bankOps_upc hop hop' hi hj hs).trans (bankOps_upc hop' hop hj hi hs).symm
  have hsamei := bankOps_sameChannel hop hop' hi hj hs hij
  have hsamej := (bankOps_sameChannel hop' hop hj hi hs hij.symm).symm
  generalize effect (op' j) (effect (op i) s) = t, effect (op i) (effect (op' j) s) = u at *
  obtain ⟨hsamples, hlens⟩ := ht.agree hu (by rintro c (rfl | rfl) <;> assumption)
  refine ⟨hsamples, fun c => ?_, fun c => ⟨(hlens c).1, (hlens c).2, ?_⟩, ?_, ?_⟩
  · rw [State.olen, State.olen, ht.olen, hu.olen]
  · rw [State.soutLen, State.soutLen, ht.soutLen, hu.soutLen]
  · rw [State.fbufLen, State.fbufLen, ht.fbufLen, hu.fbufLen]
  · obtain ⟨_, _, _, _, rfl⟩ := ht.rest
    obtain ⟨_, _, _, _, rfl⟩ := hu.rest
    dsimp only at hupc
    rw [hupc]

end Sys2Proof.Machine
end

