-- ==== Sys2Proof/Proofs/SpectralStage.lean ====
section
/-! O37 to O40: the three operations of the spectral stage. SS_ILV is one `MemWrite`, SS_DLV one for each channel; SS_FFT
is a fold over the groups of `FBUF`, each of which it finds as it was before the fold. -/

namespace Sys2Proof.Machine

variable {E : Env}

/-! ### The groups of `FBUF` (R152) -/

/-- A group that has been transformed holds the transform of what it held. -/
theorem read_transformGroup_inside {m : Nat} (f : Bank E.Cx) (k : Nat) (b : Fin m) :
    (transformGroup m f k).read (E.freeSample .fbuf) (k * m + b.val) =
      E.fft m (fun c => f.read (E.freeSample .fbuf) (k * m + c.val)) b := by
  rw [transformGroup, Bank.read_writeSeq_inside _ _ _ _ _ (by simp), List.getElem_ofFn]

theorem read_transformGroup_outside {m : Nat} (f : Bank E.Cx) {k a : Nat} (ha : ¬ inRow (k * m) m a) :
    (transformGroup m f k).read (E.freeSample .fbuf) a = f.read (E.freeSample .fbuf) a :=
  Bank.read_writeSeq_outside _ _ _ _ _ (by rw [List.length_ofFn]; omega)

/-- The groups before `n` lie before element `m * n`. -/
theorem not_inRow_of_groups_le {m n k a : Nat} (hk : k < n) (ha : m * n ≤ a) : ¬ inRow (k * m) m a := by
  rintro ⟨-, hhi⟩
  rw [← Nat.succ_mul, Nat.mul_comm] at hhi
  exact (hhi.trans_le ((Nat.mul_le_mul_left m hk).trans ha)).false

theorem read_foldl_transformGroup_outside {m : Nat} (f : Bank E.Cx) {ks : List Nat} {a : Nat}
    (ha : ∀ k ∈ ks, ¬ inRow (k * m) m a) :
    (ks.foldl (transformGroup m) f).read (E.freeSample .fbuf) a = f.read (E.freeSample .fbuf) a := by
  induction ks generalizing f with
  | nil => rfl
  | cons k ks ih =>
    rw [List.foldl_cons, ih _ fun i hi => ha i (List.mem_cons_of_mem k hi),
      read_transformGroup_outside f (ha k List.mem_cons_self)]

/-- Each of a list of different groups is transformed once, from what it held before all of them. -/
theorem read_foldl_transformGroup_inside {m : Nat} (f : Bank E.Cx) {ks : List Nat} (hnodup : ks.Nodup) {k : Nat}
    (hk : k ∈ ks) (b : Fin m) :
    (ks.foldl (transformGroup m) f).read (E.freeSample .fbuf) (k * m + b.val) =
      E.fft m (fun c => f.read (E.freeSample .fbuf) (k * m + c.val)) b := by
  have hin (c : Fin m) : inRow (k * m) m (k * m + c.val) := ⟨Nat.le_add_right .., Nat.add_lt_add_left c.isLt _⟩
  induction ks generalizing f with
  | nil => cases hk
  | cons i ks ih =>
    obtain ⟨hi, hks⟩ := List.nodup_cons.1 hnodup
    rw [List.foldl_cons]
    obtain rfl | hmem := List.mem_cons.1 hk
    · rw [read_foldl_transformGroup_outside _ fun j hj => pitch_disjoint (ne_of_mem_of_not_mem hj hi).symm (hin b),
        read_transformGroup_inside]
    · rw [ih _ hks hmem]
      simp only [read_transformGroup_outside f (pitch_disjoint (ne_of_mem_of_not_mem hmem hi) (hin _))]

theorem transformed_read_inside (s : State E) {k : Nat} (hk : k < s.segLen) (b : Fin s.cfg.chanM) :
    (transformed s).read (E.freeSample .fbuf) (k * s.cfg.chanM + b.val) =
      E.fft s.cfg.chanM (fun c => s.sample .fbuf (k * s.cfg.chanM + c.val)) b :=
  read_foldl_transformGroup_inside _ List.nodup_range (List.mem_range.2 hk) b

theorem transformed_read_outside (s : State E) {a : Nat} (ha : s.cfg.chanM * s.segLen ≤ a) :
    (transformed s).read (E.freeSample .fbuf) a = s.sample .fbuf a :=
  read_foldl_transformGroup_outside _ fun _ hk => not_inRow_of_groups_le (List.mem_range.1 hk) ha

/-! ### The readings -/

theorem State.sample_setBank_same (s : State E) (sp : SampleSpace) (b : Bank E.Cx) (a : Nat) :
    (s.setBank sp b).sample sp a = b.read (E.freeSample sp) a := by
  simp [State.sample]

/-- `MemRead` of a sample space after several `MemWrite`s at a pitch no row is longer than. -/
theorem State.sample_storeRows_pitch (s : State E) (sp : SampleSpace) {row : Nat → List E.Cx} {pitch n c k : Nat}
    (hlen : ∀ i < n, (row i).length ≤ pitch) (hc : c < n) (hk : k < (row c).length) :
    (s.storeRows sp ((List.range n).map fun i => (i * pitch, row i))).sample sp (c * pitch + k) = (row c)[k] :=
  (s.sample_setBank_same sp _ _).trans (Bank.read_writeRows_pitch _ row pitch n _ c k hlen hc hk)

/-! ### The statements -/

/-- Settles O37: the store of `ssIlv_eq`, of the sequence `interleaved`. -/
theorem ssIlvInterleaves : Obligations.SsIlvInterleaves := by
  intro s hs
  refine ⟨ssIlv s, rfl, ?_⟩
  rw [ssIlv_eq s hs]
  refine ⟨fun k c hk hc => ?_, ?_, fun a ha => ?_, rfl, rfl, rfl⟩
  · obtain ⟨hlt, helem⟩ := List.getElem?_eq_some_iff.1 (interleaved_getElem? s k c hk hc)
    rw [← Nat.zero_add (k * s.cfg.chanM + c), State.advance_sample, State.setLens_sample,
      State.sample_store_inside _ _ _ _ _ hlt, helem]
  · simp [State.fbufLen, Bank.read_write]
  · refine State.sample_store_outside _ _ _ _ _ (.inr ?_)
    rwa [Nat.zero_add, interleaved_length, Nat.mul_comm]

/-- Settles O38: the bank of `ssFft_eq`, read group by group. -/
theorem ssFftTransformsGroups : Obligations.SsFftTransformsGroups := by
  intro s hs
  refine ⟨ssFft s, rfl, ?_⟩
  rw [ssFft_eq s hs]
  refine ⟨fun k b hk => ?_, fun a ha => ?_, rfl, rfl⟩
  · exact (s.sample_setBank_same ..).trans (transformed_read_inside s hk b)
  · exact (s.sample_setBank_same ..).trans (transformed_read_outside s ha)

/-- Settles O39: the rows of `ssDlv_eq`, none longer than the pitch `SEG_CAP`. -/
theorem ssDlvDeinterleaves : Obligations.SsDlvDeinterleaves := by
  intro s hs
  refine ⟨ssDlv s, rfl, ?_⟩
  rw [ssDlv_eq s hs]
  refine ⟨fun k c hk hc => ?_, fun c hc => ?_, fun c hc => ?_, fun a ha => ?_, rfl, rfl, rfl⟩
  · refine (State.sample_storeRows_pitch s .sout (fun i _ => ?_) hc (by simpa using hk)).trans ?_
    · simpa using hs
    · simp [deliveredRow]
  · exact Bank.read_writeSeq_replicate _ _ _ hc
  · exact Bank.read_writeSeq_outside _ _ _ _ _ (.inr (by simpa using hc))
  · refine State.sample_storeRows_outside s .sout a _ (List.forall_mem_map.2 fun c hc => ?_)
    have hrow := ha c (List.mem_range.1 hc)
    rw [deliveredRow_length]
    omega

/-- Settles O40: the three operations in order, each reading what the one before it left. -/
theorem spectralStageIsOneTransform : Obligations.SpectralStageIsOneTransform := by
  intro s hs
  obtain ⟨t₁, h₁, hilv, -, -, hmem₁, hlens₁, hframe₁⟩ := ssIlvInterleaves s hs
  have hcfg₁ : t₁.cfg = s.cfg := by rw [hframe₁]; rfl
  have hseg₁ : t₁.segLen = s.segLen := by rw [hframe₁]; rfl
  obtain ⟨t₂, h₂, hfft, -, hmem₂, hframe₂⟩ := ssFftTransformsGroups t₁ (by rwa [hcfg₁, hseg₁])
  have hcfg₂ : t₂.cfg = s.cfg := by rw [hframe₂, ← hcfg₁]; rfl
  have hseg₂ : t₂.segLen = s.segLen := by rw [hframe₂, ← hseg₁]; rfl
  have hlens₂ : t₂.lens = t₁.lens := by rw [hframe₂]
  obtain ⟨t₃, h₃, hdlv, -, -, -, hmem₃, hlens₃, hframe₃⟩ := ssDlvDeinterleaves t₂ (by rwa [hcfg₂, hseg₂])
  rw [hcfg₁, hseg₁] at hfft
  rw [hcfg₂, hseg₂] at hdlv
  refine ⟨t₃, by simp only [spectralOps, execAll, h₁, h₂, h₃], fun k b hk => ?_, ?_, ?_, ?_⟩
  · rw [hdlv k b.val hk b.isLt, hfft k b hk]
    exact congrArg (Config.fft s.cfg.chanM · b) (funext fun c => hilv k c.val hk c.isLt)
  · rw [hmem₃, hmem₂, hmem₁]
  · rw [hlens₃, hlens₂, hlens₁]
  · rw [hframe₃, hframe₂, hframe₁]
    simp [BitVec.add_assoc]

end Sys2Proof.Machine
end

