-- ==== Sys2Proof/Proofs/Orchestration.lean ====
section
/-! O6, O41, O42, O43: the entries of the micro-program, and ROTATE as issued, RESAMP and RET as single operations. -/

namespace Sys2Proof.Machine

variable {E : Env}

/-! ### The entries of the micro-program (R171) -/

/-- Entry `k` of channel `i` is the first word of its class function with the channel added. -/
theorem uprog_channel_add {m i k : Nat} (hi : i < m) (hk : k < 5) :
    uprog m (1 + 5 * i + k) = some (BitVec.ofNat 32 (0x20000000 + k * 0x01000000) + BitVec.ofNat 32 i) := by
  rw [Nat.add_assoc, uprog_channel hi hk, BitVec.ofNat_add]

/-- Entry `k` of the last five, counted from `5*M + 1`. -/
theorem uprog_last (m k : Nat) :
    uprog m (5 * m + (k + 1)) = [0x30000000, 0x31000000, 0x32000000, 0x40000000, 0x41000000][k]? := by
  rw [← uprog_afterChannels]
  congr 1
  omega

theorem uprog_beyond {m u : Nat} (hu : 5 * m + 5 < u) : uprog m u = none := by
  obtain ⟨k, rfl⟩ : ∃ k, u = 5 * m + (k + 5 + 1) := ⟨u - (5 * m + 6), by omega⟩
  exact (uprog_last m (k + 5)).trans (List.getElem?_eq_none (by simp))

/-- Settles O6: entry 0, the five entries of each channel, the last five, and none after them. -/
theorem microProgramEntries : Obligations.MicroProgramEntries := by
  intro m _
  refine ⟨rfl, fun i hi => ?_, uprog_last m 0, uprog_last m 1, uprog_last m 2, uprog_last m 3, uprog_last m 4,
    fun u => uprog_beyond⟩
  have entry := fun k hk => uprog_channel_add (k := k) hi hk
  exact ⟨entry 0 (by decide), entry 1 (by decide), entry 2 (by decide), entry 3 (by decide), entry 4 (by decide)⟩

/-! ### ROTATE as issued, and RET -/

/-- ROTATE in IDLE (R170). -/
theorem rotate_idle (s : State E) (hl : s.life = .idle) : rotate s = { s with life := .busy, upc := 0 } := by
  simp [rotate, whenIdle, hl]

/-- Settles O41: by the life-cycle state, a fault outside IDLE being the entry of R208. -/
theorem rotateStartsMicroProgram : Obligations.RotateStartsMicroProgram := by
  intro s
  refine ⟨fun hl => congrArg _ (rotate_idle s hl), fun hl => ?_, fun hl => ?_, fun hl => ?_⟩
  · rw [exec_eq_next_effect, ← s.raiseFatal_eq_faulted _ _ (by simp [hl])]
    simp [effect, rotate, whenIdle, hl]
  · rw [exec_eq_next_effect, ← s.raiseFatal_eq_faulted _ _ (by simp [hl])]
    simp [effect, rotate, whenIdle, hl]
  · simp [exec_eq_next_effect, effect, rotate, whenIdle, hl]

/-- Settles O43. -/
theorem retReturnsToIdle : Obligations.RetReturnsToIdle := fun _ => rfl

/-! ### RESAMP -/

/-- A read after rows written in order, no two of which share an element: in a row what the row holds there. -/
theorem Bank.read_writeRows_inside {α : Type} (free : Nat → Nat → α) {rows : List (Nat × List α)} (b : Bank α)
    (hdisjoint : rows.Pairwise fun r q => ∀ a, inRow r.1 r.2.length a → ¬ inRow q.1 q.2.length a)
    {row : Nat × List α} (hrow : row ∈ rows) {k : Nat} (hk : k < row.2.length) :
    (b.writeRows rows).read free (row.1 + k) = row.2[k] := by
  induction rows generalizing b with
  | nil => cases hrow
  | cons r rows ih =>
    obtain ⟨hhead, htail⟩ := List.pairwise_cons.1 hdisjoint
    change ((b.writeSeq r.1 r.2).writeRows rows).read free (row.1 + k) = row.2[k]
    obtain rfl | hmem := List.mem_cons.1 hrow
    · rw [Bank.read_writeRows_outside, Bank.read_writeSeq_inside _ _ _ _ _ hk]
      intro q hq
      have hout := hhead q hq (row.1 + k) ⟨by omega, by omega⟩
      omega
    · exact ih _ htail hmem

/-- What RESAMP stores in `OUT`: for each channel, at its row, contents of its output length (R176). -/
def outputRows (c : Cfg) (len : Fin c.chanM → Nat) (out : (i : Fin c.chanM) → Fin (len i) → E.Cx) :
    List (Nat × List E.Cx) :=
  List.ofFn fun i => (outRow c i.val, List.ofFn (out i))

section
variable {c : Cfg} {len : Fin c.chanM → Nat} {out : (i : Fin c.chanM) → Fin (len i) → E.Cx}

/-- Rows within `OUT_CAP` do not meet. -/
theorem outputRows_disjoint (hlen : ∀ i, len i ≤ c.outCap) :
    (outputRows c len out).Pairwise fun r q => ∀ a, inRow r.1 r.2.length a → ¬ inRow q.1 q.2.length a := by
  refine List.pairwise_ofFn.2 fun i j hij a hi hj => ?_
  rw [List.length_ofFn] at hi hj
  exact pitch_disjoint (by omega) (inRow_mono hi (hlen i)) (inRow_mono hj (hlen j))

theorem State.sample_outputRows_inside (s : State E) (hlen : ∀ i, len i ≤ c.outCap) (i : Fin c.chanM)
    (k : Fin (len i)) : (s.storeRows .out (outputRows c len out)).sample .out (outRow c i.val + k.val) = out i k := by
  have hmem : (outRow c i.val, List.ofFn (out i)) ∈ outputRows c len out := List.mem_ofFn.2 ⟨i, rfl⟩
  refine (s.sample_setBank_same ..).trans ?_
  rw [Bank.read_writeRows_inside _ _ (outputRows_disjoint hlen) hmem (by simp), List.getElem_ofFn]

theorem State.sample_outputRows_outside (s : State E) {a : Nat} (ha : ∀ i, ¬ inRow (outRow c i.val) (len i) a) :
    (s.storeRows .out (outputRows c len out)).sample .out a = s.sample .out a := by
  refine s.sample_storeRows_outside _ _ _ (List.forall_mem_ofFn_iff.2 fun i => ?_)
  have hout := ha i
  rw [List.length_ofFn]
  omega

end

theorem fitsReturn_iff (r : Int) : fitsReturn r = true ↔ -2 ^ 31 ≤ r ∧ r ≤ 2 ^ 31 - 1 := by simp [fitsReturn]

theorem toInt_ofInt_of_fitsReturn {r : Int} (h : fitsReturn r = true) : (BitVec.ofInt 32 r).toInt = r := by
  obtain ⟨hlo, hhi⟩ := (fitsReturn_iff r).1 h
  exact BitVec.toInt_ofInt_eq_self (by decide) hlo (by omega)

theorem resampleStore_of_fits (s : State E) {a : ResampleAnswer E} (h : fitsReturn a.result = true) :
    resampleStore s a = ((s.storeRows .out a.rows).setResult a.rs (BitVec.ofInt 32 a.result)).advance := by
  simp [resampleStore, h]

theorem resampleStore_of_not_fits (s : State E) {a : ResampleAnswer E} (h : fitsReturn a.result = false) :
    resampleStore s a = s.raiseFatal .retRange (BitVec.ofInt 32 a.result) := by
  simp [resampleStore, h]

/-- Settles O42: by the range test, the rows being those of `outputRows`. -/
theorem resampFollowsItsRule : Obligations.ResampFollowsItsRule := by
  intro s hl hs hfit
  refine ⟨resamp s, rfl, ?_⟩
  rw [resamp_eq s hs hfit]
  split_ifs with hrange
  · have hr : fitsReturn (resampleCall s).result = true := (fitsReturn_iff _).2 hrange
    rw [resampleStore_of_fits s hr]
    refine ⟨fun c k => ?_, fun a ha => ?_, toInt_ofInt_of_fitsReturn hr, rfl, rfl⟩
    · exact s.sample_outputRows_inside (fun c => hfit c.val c.isLt) c k
    · exact s.sample_outputRows_outside fun c => ha c.val c.isLt
  · have hr : fitsReturn (resampleCall s).result = false := by
      simpa using mt (fitsReturn_iff (resampleCall s).result).1 hrange
    rw [resampleStore_of_not_fits s hr]
    exact s.raiseFatal_eq_faulted _ _ hl

end Sys2Proof.Machine
end

