-- ==== Sys2Proof/Proofs/RotateTermination.lean ====
section
/-! O45, and the rules for runs of steps with nothing from the host. A micro-operation that leaves the block in BUSY
leaves `UPC` higher, and `UPC` is bounded (R172). -/

namespace Sys2Proof.Machine

variable {E : Env}

/-! ### Runs of steps -/

theorem runSteps_succ {n : Nat} {s t : State} (h : step s = .next t) : runSteps (n + 1) s = runSteps n t := by
  simp [runSteps, h]

theorem runSteps_add {m : Nat} (n : Nat) {s t : State} (h : runSteps m s = .next t) :
    runSteps (m + n) s = runSteps n t := by
  induction m generalizing s with
  | zero =>
    cases h
    rw [Nat.zero_add]
  | succ m ih =>
    cases hstep : step s with
    | next u =>
      rw [runSteps_succ hstep] at h
      rw [Nat.add_right_comm, runSteps_succ hstep, ih h]
    | fault | refused => simp [runSteps, hstep] at h

/-- Outside BUSY, with nothing from the host, nothing happens (R219). -/
theorem runSteps_rest (n : Nat) {s : State} (hl : s.life ≠ .busy) (hinbox : s.inbox = []) :
    runSteps n s = .next s := by
  induction n with
  | zero => rfl
  | succ n ih =>
    have hrest : step s = .next s := step_of_done (by rw [fetch, hinbox]; exact sequencerTurn_not_busy hl)
    rw [runSteps_succ hrest, ih]

/-- In BUSY, with nothing from the host, a step is the effect of the entry at `UPC` (R170). -/
theorem step_of_readEntry {s : State} {i : Instr} (hb : s.life = .busy) (hinbox : s.inbox = [])
    (hentry : readEntry s.cfg.chanM s.upc.toNat = some (.op i)) : step s = .next (effect i s) := by
  obtain ⟨w, hw, hd⟩ := Option.map_eq_some_iff.1 hentry
  obtain ⟨hrun, -⟩ := stepRunsMicroOperation s w i hb hw hd
  rw [hrun hinbox, exec_eq_next_effect]

/-! ### No operation takes an access from the host -/

theorem withChannel_inbox {i : Nat} {s done : State E} (h : done.inbox = s.inbox) :
    (withChannel i s done).inbox = s.inbox :=
  withChannel_cases (p := fun t => t.inbox = s.inbox) i s done (by simp) h

theorem withSegment_inbox {sp : SampleSpace} {s done : State E} (h : done.inbox = s.inbox) :
    (withSegment sp s done).inbox = s.inbox :=
  withSegment_cases (p := fun t => t.inbox = s.inbox) sp s done (by simp) fun _ => h

theorem whenIdle_inbox {w : Word} {s done : State E} (h : done.inbox = s.inbox) :
    (whenIdle w s done).inbox = s.inbox :=
  whenIdle_cases (p := fun t => t.inbox = s.inbox) w s done (fun _ => rfl) (fun _ => by simp) (fun _ => by simp)
    fun _ => h

theorem resampleStore_inbox (s : State E) (a : ResampleAnswer E) : (resampleStore s a).inbox = s.inbox := by
  cases h : fitsReturn a.result
  · simp [resampleStore_of_not_fits s h]
  · simp [resampleStore_of_fits s h]

theorem effect_inbox (i : Instr) (s : State E) : (effect i s).inbox = s.inbox := by
  cases i with
  | nop => exact nop_cases (p := fun t => t.inbox = s.inbox) s rfl (by simp)
  | construct => exact construct_cases (p := fun t => t.inbox = s.inbox) s (by simp) fun _ _ => rfl
  | rotate | destroy => exact whenIdle_inbox rfl
  | validate => exact validate_cases (p := fun t => t.inbox = s.inbox) s (by simp) (by simp) fun _ _ _ _ => rfl
  | pbReset | pbDeint | pbConv | pbHupd => exact withChannel_inbox (withSegment_inbox (by simp))
  | pbSplice => exact withChannel_inbox rfl
  | ssIlv | ssFft | ssDlv => exact withSegment_inbox (by simp)
  | resamp =>
    refine withSegment_inbox ?_
    split
    · exact State.raiseFatal_inbox ..
    · exact resampleStore_inbox ..
  | ret => rfl

/-! ### `UPC` rises until RET or a fault -/

/-- The ROTATE ends in `t`, or `t` is further in the micro-program than `s`. -/
def EndsOrRises (s t : State E) : Prop :=
  t.life = .idle ∨ t.life = .fault ∨ (t.life = .busy ∧ s.upc.toNat < t.upc.toNat)

theorem EndsOrRises.raiseFatal (s : State E) (c : FatalCode) (w : Word) : EndsOrRises s (s.raiseFatal c w) :=
  .inr (.inl (s.raiseFatal_life c w))

theorem Sound.effect_endsOrRises {s : State E} (h : Sound s) (hb : s.life = .busy) {i : Instr}
    (hu : s.upc.toNat = indexOf s.cfg.chanM i) (hhost : i.isHostCommand = false)
    (hch : ∀ c, i.channel? = some c → c < s.cfg.chanM) : EndsOrRises s (effect i s) := by
  obtain ⟨-, -, hm⟩ := chanM_of_wellFormed (h.configured (.inr hb))
  have hsucc := fun hlt => upc_succ_toNat (u := s.upc) hm hlt
  by_cases hv : i = .validate
  · subst hv
    have hzero : s.upc.toNat = 0 := hu
    refine validate_cases s (fun b n d => .inr (.inr ⟨hb, ?_⟩)) (fun w => .raiseFatal ..)
      fun _ _ _ _ => .inr (.inr ⟨hb, ?_⟩)
    · rw [hzero]
      exact (Nat.succ_pos _).trans_eq (retIndex_toNat hm).symm
    · exact (Nat.lt_succ_self _).trans_eq (hsucc (hzero ▸ Nat.succ_pos _)).symm
  by_cases hr : i = .ret
  · subst hr
    exact .inl rfl
  obtain ⟨hpast, hbefore⟩ := hu ▸ indexOf_between hhost hch hv hr
  obtain ⟨w, heq⟩ | ⟨t, hworks, heq⟩ := effect_works i s (h.validated hb hpast hbefore) hhost hch hv hr
  · exact heq ▸ .raiseFatal ..
  · refine heq ▸ .inr (.inr ⟨hworks.life.trans hb, ?_⟩)
    rw [State.advance_upc, hworks.upc, hsucc hbefore]
    exact Nat.lt_succ_self _

/-- A step of a ROTATE with nothing from the host ends it or rises, and keeps what the next step needs. -/
theorem Sound.step_endsOrRises {s : State} (h : Sound s) (hb : s.life = .busy) (hinbox : s.inbox = []) :
    ∃ t, step s = .next t ∧ Sound t ∧ t.inbox = [] ∧ t.cfg = s.cfg ∧ EndsOrRises s t := by
  obtain ⟨w, i, hw, hd, hu, hhost, hch⟩ := h.entry hb
  have hstep : step s = .next (effect i s) := step_of_readEntry hb hinbox (by rw [readEntry, hw, Option.map_some, hd])
  have hcfg : (effect i s).cfg = s.cfg := by simp only [State.cfg, effect_regs]
  exact ⟨_, hstep, stepKeepsSound s _ h hstep, (effect_inbox i s).trans hinbox, hcfg,
    h.effect_endsOrRises hb hu hhost hch⟩

/-- With `n` entries still ahead of `UPC` the ROTATE ends within `n` steps. -/
theorem Sound.rotate_ends {n : Nat} {s : State} (h : Sound s) (hb : s.life = .busy) (hinbox : s.inbox = [])
    (hn : retIndex s.cfg.chanM + 1 ≤ s.upc.toNat + n) :
    ∃ k t, k ≤ n ∧ runSteps k s = .next t ∧ (t.life = .idle ∨ t.life = .fault) := by
  induction n generalizing s with
  | zero =>
    have hrange := h.upcInRange hb
    omega
  | succ n ih =>
    obtain ⟨t, hstep, ht, htinbox, hcfg, hidle | hfault | ⟨htb, hrises⟩⟩ := h.step_endsOrRises hb hinbox
    · exact ⟨1, t, by omega, runSteps_succ hstep, .inl hidle⟩
    · exact ⟨1, t, by omega, runSteps_succ hstep, .inr hfault⟩
    · obtain ⟨k, u, hk, hrun, hend⟩ := ih ht htb htinbox (by rw [hcfg]; omega)
      exact ⟨k + 1, u, by omega, (runSteps_succ hstep).trans hrun, hend⟩

/-- Settles O45: `5*M + 6` entries are ahead of any `UPC`. -/
theorem rotateTerminates : Obligations.RotateTerminates :=
  fun _ h hb hinbox => h.rotate_ends hb hinbox (Nat.le_add_left ..)

end Sys2Proof.Machine
end

