-- ==== Sys2Proof/Proofs/RotateFunction.lean ====
section
/-! O46: ROTATE, command and micro-operations, is the function of R174. Where VALIDATE passes, the entries up to SS_DLV
run in order (`runSteps_ops`); those of the partition bank filter channel by channel (`Filtered`), the spectral stage is
O40, and what RESAMP then finds is, but for the working buffers, what the function gives the Resampler
(`SameButWorking`). -/

namespace Sys2Proof.Machine

variable {E : Env}

/-! ### The entries in order -/

/-- The operations of the micro-program that raise no fault after VALIDATE: `PBANK; SPECTRAL` (R98). -/
def filterOps (m : Nat) : List Instr := pbankOps m ++ spectralOps

theorem pbankOps_succ (m : Nat) : pbankOps (m + 1) = pbankOps m ++ channelOps m := by
  simp [pbankOps, List.range_succ, List.flatMap_append]

theorem pbankOps_length (m : Nat) : (pbankOps m).length = 5 * m := by
  induction m with
  | zero => rfl
  | succ m ih =>
    rw [pbankOps_succ, List.length_append, ih]
    rfl

theorem filterOps_length (m : Nat) : (filterOps m).length = 5 * m + 3 := by
  rw [filterOps, List.length_append, pbankOps_length]
  rfl

/-- They stand from index 1 on (O7). -/
theorem readEntry_filterOps {m k : Nat} (hm : m ≤ 65536) (hk : k < (filterOps m).length) :
    readEntry m (1 + k) = some (.op (filterOps m)[k]) := by
  have hlen := filterOps_length m
  have hreads : (List.range (5 * m + 6)).map (readEntry m) =
      reads ([Instr.validate] ++ pbankOps m ++ spectralOps ++ [Instr.resamp, Instr.ret]) := microProgramReads m hm
  rw [List.append_assoc [Instr.validate], ← filterOps, List.append_assoc, List.singleton_append] at hreads
  rw [Nat.add_comm]
  refine Option.some_inj.1 ?_
  calc some (readEntry m (k + 1)) = ((List.range (5 * m + 6)).map (readEntry m))[k + 1]? := by
        rw [List.getElem?_map, List.getElem?_range (by omega), Option.map_some]
    _ = (reads (filterOps m ++ [.resamp, .ret]))[k]? := by rw [hreads]; rfl
    _ = some (some (.op (filterOps m)[k])) := by
        rw [reads, List.getElem?_map, List.getElem?_append_left hk, List.getElem?_eq_getElem hk, Option.map_some]

theorem readEntry_resamp (m : Nat) : readEntry m (5 * m + 4) = some (.op .resamp) := by
  have hdecode : decode 0x40000000 = .op .resamp := by decide
  exact (congrArg (·.map decode) (uprog_last m 3)).trans (congrArg some hdecode)

theorem readEntry_ret (m : Nat) : readEntry m (retIndex m) = some (.op .ret) := by
  have hdecode : decode 0x41000000 = .op .ret := by decide
  exact (congrArg (·.map decode) (uprog_last m 4)).trans (congrArg some hdecode)

/-- `t` is where an operation that works on buffers leaves `s` for the next entry. -/
def Proceeds (s t : State E) : Prop :=
  ∃ mem lens acc, t = { s with mem := mem, lens := lens, acc := acc, upc := s.upc + 1 }

theorem bankOp_proceeds {op : Nat → Instr} {i : Nat} {s : State E} (hop : op ∈ bankOps) (hi : i < s.cfg.chanM)
    (hs : s.segLen ≤ s.cfg.segCap) : Proceeds s (effect (op i) s) := by
  obtain ⟨mem, lens, acc, upc, hrest⟩ := (bankOp_channelsOnly (cs := (· = i)) hop rfl hi hs).rest
  obtain rfl : s.upc + 1 = upc := (bankOp_upc hop hi hs).symm.trans (congrArg State.upc hrest)
  exact ⟨mem, lens, acc, hrest⟩

theorem spectralOp_proceeds {i : Instr} {s : State E} (hi : i ∈ spectralOps) (hs : s.segLen ≤ s.cfg.segCap) :
    Proceeds s (effect i s) := by
  simp only [spectralOps, List.mem_cons, List.not_mem_nil, or_false] at hi
  obtain rfl | rfl | rfl := hi
  · exact ⟨_, _, s.acc, ssIlv_eq s hs⟩
  · exact ⟨_, s.lens, s.acc, ssFft_eq s hs⟩
  · exact ⟨_, _, s.acc, ssDlv_eq s hs⟩

/-- Each of them proceeds from segments within the capacity. -/
theorem filterOps_proceeds {i : Instr} {s : State E} (hi : i ∈ filterOps s.cfg.chanM) (hs : s.segLen ≤ s.cfg.segCap) :
    Proceeds s (effect i s) := by
  obtain hbank | hspectral := List.mem_append.1 hi
  · obtain ⟨c, hc, hi⟩ := List.mem_flatMap.1 hbank
    have hmap : i ∈ bankOps.map (· c) := hi
    obtain ⟨op, hop, rfl⟩ := List.mem_map.1 hmap
    exact bankOp_proceeds hop (List.mem_range.1 hc) hs
  · exact spectralOp_proceeds hspectral hs

/-- The state that operations in order leave. -/
def effects (is : List Instr) (s : State E) : State E := is.foldl (fun t i => effect i t) s

theorem effects_append (is js : List Instr) (s : State E) : effects (is ++ js) s = effects js (effects is s) :=
  List.foldl_append

/-- Entries that stand from `UPC` on and proceed are run one in each step. -/
theorem runSteps_ops {is : List Instr} {s : State} (hb : s.life = .busy) (hinbox : s.inbox = [])
    (hs : s.segLen ≤ s.cfg.segCap) (hmem : ∀ i ∈ is, i ∈ filterOps s.cfg.chanM)
    (hentry : ∀ (k : Nat) (hk : k < is.length), readEntry s.cfg.chanM (s.upc.toNat + k) = some (.op is[k]))
    (hupc : s.upc.toNat + is.length < 2 ^ 32) :
    runSteps is.length s = .next (effects is s) ∧ (effects is s).upc.toNat = s.upc.toNat + is.length := by
  induction is generalizing s with
  | nil => exact ⟨rfl, rfl⟩
  | cons i is ih =>
    have hstep : step s = .next (effect i s) := step_of_readEntry hb hinbox (hentry 0 (Nat.succ_pos _))
    obtain ⟨mem, lens, acc, hnext⟩ := filterOps_proceeds (hmem i List.mem_cons_self) hs
    have hsucc : (s.upc + 1).toNat = s.upc.toNat + 1 := by
      rw [List.length_cons] at hupc
      bv_omega
    rw [List.length_cons, runSteps_succ hstep, effects, List.foldl_cons, hnext]
    obtain ⟨hrun, hend⟩ := ih (s := { s with mem := mem, lens := lens, acc := acc, upc := s.upc + 1 }) hb hinbox hs
      (fun j hj => hmem j (List.mem_cons_of_mem i hj))
      (fun k hk => by
        rw [hsucc, Nat.add_right_comm, Nat.add_assoc]
        exact hentry (k + 1) (Nat.succ_lt_succ hk))
      (by rw [hsucc, Nat.add_right_comm, Nat.add_assoc]; exact hupc)
    refine ⟨hrun, hend.trans ?_⟩
    rw [hsucc, Nat.add_right_comm, Nat.add_assoc]

/-! ### The partition bank filters every channel -/

/-- The new history rows of the channels below `m`, for segments of `n` samples (R174). -/
def historyRows (s : State E) (n m : Nat) : List (Nat × List E.Cx) :=
  (List.range m).map fun i => (tapRow s.cfg i, (channelFilter s n i).2)

theorem writeRows_historyRows_succ (s : State E) (n m : Nat) (b : Bank E.Cx) :
    b.writeRows (historyRows s n (m + 1)) =
      (b.writeRows (historyRows s n m)).writeSeq (tapRow s.cfg m) (channelFilter s n m).2 := by
  rw [historyRows, List.range_succ, List.map_append, Bank.writeRows, List.foldl_append]
  rfl

/-- `t` is `s` with the channels below `m` filtered. -/
structure Filtered (m : Nat) (s t : State E) : Prop where
  outputs : ∀ i < m, t.samples .wout (bufRow s.cfg i) s.segLen = (channelFilter s s.segLen i).1
  frame : ∃ win wout lens acc upc, t =
    { s with
      mem := { s.mem with win := win, wout := wout, hist := s.mem.hist.writeRows (historyRows s s.segLen m) }
      lens := lens
      acc := acc
      upc := upc }

theorem channelFilter_congr {s t : State E} {n i : Nat} (hcfg : t.cfg = s.cfg)
    (hcoef : ∀ a, t.sample .coef a = s.sample .coef a) (hinp : ∀ a, t.sample .inp a = s.sample .inp a)
    (hhist : t.samples .hist (tapRow s.cfg i) s.cfg.partLen = s.samples .hist (tapRow s.cfg i) s.cfg.partLen) :
    channelFilter t n i = channelFilter s n i := by
  simp only [channelFilter, segmentOf, hcfg, hcoef, hinp, hhist]

/-- The history rows written for the channels below `m` end before the row of channel `m`. -/
theorem Filtered.samples_hist {m : Nat} {s t : State E} (h : Filtered m s t) :
    t.samples .hist (tapRow s.cfg m) s.cfg.partLen = s.samples .hist (tapRow s.cfg m) s.cfg.partLen := by
  obtain ⟨_, _, _, _, _, rfl⟩ := h.frame
  refine List.map_congr_left fun k _ => Bank.read_writeRows_outside _ _ s.mem.hist _ ?_
  refine List.forall_mem_map.2 fun i hi => .inr ?_
  rw [channelFilter_history_length]
  calc tapRow s.cfg i + s.cfg.partLen = (i + 1) * s.cfg.partLen := (Nat.succ_mul ..).symm
    _ ≤ m * s.cfg.partLen := Nat.mul_le_mul_right _ (List.mem_range.1 hi)
    _ ≤ tapRow s.cfg m + k := Nat.le_add_right ..

theorem Filtered.cfg {m : Nat} {s t : State E} (h : Filtered m s t) : t.cfg = s.cfg := by
  obtain ⟨_, _, _, _, _, rfl⟩ := h.frame
  rfl

theorem Filtered.segLen {m : Nat} {s t : State E} (h : Filtered m s t) : t.segLen = s.segLen := by
  obtain ⟨_, _, _, _, _, rfl⟩ := h.frame
  rfl

/-- Channel `m`, still to come, is filtered as from `s`. -/
theorem Filtered.channelFilter_eq {m : Nat} {s t : State E} (h : Filtered m s t) :
    channelFilter t t.segLen m = channelFilter s s.segLen m := by
  have hhist := h.samples_hist
  obtain ⟨_, _, _, _, _, rfl⟩ := h.frame
  exact channelFilter_congr rfl (fun _ => rfl) (fun _ => rfl) hhist

theorem filterChannel_hist_bank (i : Nat) (s : State E) : (filterChannel i s).mem.bank .hist =
    (s.mem.bank .hist).writeSeq (tapRow s.cfg i) (channelFilter s s.segLen i).2 := by
  simp [filterChannel, loadWindow, Memory.setBank_bank_other]

/-- What the five operations of a channel leave, with the history as one `MemWrite`. -/
theorem filterChannel_eq (i : Nat) (s : State E) : ∃ win wout, filterChannel i s =
    { s with mem := { s.mem with win := win, wout := wout,
                                 hist := s.mem.hist.writeSeq (tapRow s.cfg i) (channelFilter s s.segLen i).2 } } := by
  obtain ⟨win, wout, hist, hbank⟩ := filterChannel_sameButBank i s
  obtain rfl : (s.mem.bank .hist).writeSeq (tapRow s.cfg i) (channelFilter s s.segLen i).2 = hist := by
    rw [← filterChannel_hist_bank, hbank]
    rfl
  exact ⟨win, wout, hbank⟩

theorem effects_channelOps {i : Nat} {s : State E} (hi : i < s.cfg.chanM) (hs : s.segLen ≤ s.cfg.segCap) :
    ∃ lens acc upc, effects (channelOps i) s = { filterChannel i s with lens := lens, acc := acc, upc := upc } := by
  obtain ⟨z, hz⟩ := pbHupd_pbConv hi hs (pbSplice_pbDeint_pbReset i s hi hs)
  refine ⟨resetLens i s, z, (filterChannel i s).upc + 5, ?_⟩
  rw [effects, foldl_channelOps, hz, State.advance_five]
  generalize filterChannel i s = t
  rfl

theorem effects_channelOps_wout {i : Nat} {s : State E} (hi : i < s.cfg.chanM) (hs : s.segLen ≤ s.cfg.segCap)
    (a n : Nat) : (effects (channelOps i) s).samples .wout a n = (filterChannel i s).samples .wout a n := by
  obtain ⟨_, _, _, hchannel⟩ := effects_channelOps hi hs
  rw [hchannel]
  generalize filterChannel i s = t
  rfl

theorem filtered_zero (s : State E) : Filtered 0 s s :=
  ⟨fun i hi => absurd hi (Nat.not_lt_zero i), _, _, _, _, _, rfl⟩

/-- The rows of `WOUT` of other channels stay, and that of channel `m` takes its filter's output. -/
theorem Filtered.outputs_filterChannel {m : Nat} {s t : State E} (h : Filtered m s t) (hs : s.segLen ≤ s.cfg.segCap) :
    ∀ i < m + 1, (filterChannel m t).samples .wout (bufRow s.cfg i) s.segLen = (channelFilter s s.segLen i).1 := by
  intro i hi
  obtain hlt | rfl := Nat.lt_succ_iff_lt_or_eq.1 hi
  · rw [← h.outputs i hlt]
    refine List.map_congr_left fun k hk => filterChannel_wout_outside m t ?_
    rw [List.mem_range] at hk
    have hrow : inRow (bufRow s.cfg i) s.cfg.segCap (bufRow s.cfg i + k) := ⟨by omega, by omega⟩
    rw [h.cfg, h.segLen]
    exact fun hrow' => pitch_disjoint hlt.ne hrow (inRow_mono hrow' hs)
  · rw [← h.channelFilter_eq, ← h.cfg, ← h.segLen, filterChannel_wout]

theorem Filtered.channelOps {m : Nat} {s t : State E} (h : Filtered m s t) (hm : m < s.cfg.chanM)
    (hs : s.segLen ≤ s.cfg.segCap) : Filtered (m + 1) s (effects (channelOps m) t) := by
  have hm' : m < t.cfg.chanM := h.cfg ▸ hm
  have hs' : t.segLen ≤ t.cfg.segCap := by rwa [h.cfg, h.segLen]
  refine ⟨fun i hi => ?_, ?_⟩
  · rw [effects_channelOps_wout hm' hs']
    exact h.outputs_filterChannel hs i hi
  · obtain ⟨_, _, _, hchannel⟩ := effects_channelOps hm' hs'
    obtain ⟨_, _, hbank⟩ := filterChannel_eq m t
    rw [hchannel, hbank, h.channelFilter_eq, h.cfg]
    obtain ⟨_, _, _, _, _, rfl⟩ := h.frame
    rw [writeRows_historyRows_succ]
    exact ⟨_, _, _, _, _, rfl⟩

/-- The partition bank filters every channel (R174). -/
theorem filtered_pbankOps {m : Nat} {s : State E} (hm : m ≤ s.cfg.chanM) (hs : s.segLen ≤ s.cfg.segCap) :
    Filtered m s (effects (pbankOps m) s) := by
  induction m with
  | zero => exact filtered_zero s
  | succ m ih =>
    rw [pbankOps_succ, effects_append]
    exact (ih (Nat.le_of_succ_le hm)).channelOps hm hs

/-! ### What the host cannot see -/

/-- `t` is `s` but for the working buffers, their lengths and `ACC` (R52). -/
def SameButWorking (s t : State E) : Prop :=
  ∃ win wout fbuf sout lens acc, t =
    { s with mem := { s.mem with win := win, wout := wout, fbuf := fbuf, sout := sout }, lens := lens, acc := acc }

theorem SameButWorking.sameToHost {s t : State E} (h : SameButWorking s t) : SameToHost t s := by
  obtain ⟨_, _, _, _, _, _, rfl⟩ := h
  exact ⟨rfl, fun _ => rfl, rfl, rfl, fun _ => rfl, fun _ => rfl, fun _ => rfl, fun _ => rfl, fun _ => rfl, rfl, rfl⟩

theorem SameButWorking.refl (s : State E) : SameButWorking s s := ⟨_, _, _, _, _, _, rfl⟩

theorem SameButWorking.ret {s t : State E} (h : SameButWorking s t) : SameButWorking (ret s) (ret t) := by
  obtain ⟨_, _, _, _, _, _, rfl⟩ := h
  exact ⟨_, _, _, _, _, _, rfl⟩

/-- The sequencer goes by fields that are the same in both. -/
theorem SameButWorking.step {s t : State} (h : SameButWorking s t) (hb : s.life = .busy) (hinbox : s.inbox = [])
    {i : Instr} (hentry : readEntry s.cfg.chanM s.upc.toNat = some (.op i)) : step t = .next (effect i t) := by
  obtain ⟨_, _, _, _, _, _, rfl⟩ := h
  exact step_of_readEntry hb hinbox hentry

theorem SameButWorking.inbox {s t : State E} (h : SameButWorking s t) : t.inbox = s.inbox := by
  obtain ⟨_, _, _, _, _, _, rfl⟩ := h
  rfl

theorem SameButWorking.segLen {s t : State E} (h : SameButWorking s t) : t.segLen = s.segLen := by
  obtain ⟨_, _, _, _, _, _, rfl⟩ := h
  rfl

theorem SameButWorking.life {s t : State E} (h : SameButWorking s t) : t.life = s.life := by
  obtain ⟨_, _, _, _, _, _, rfl⟩ := h
  rfl

theorem SameButWorking.raiseFatal {s t : State E} (h : SameButWorking s t) (hl : s.life ≠ .fault) (c : FatalCode)
    (w : Word) : SameButWorking (s.raiseFatal c w) (t.raiseFatal c w) := by
  rw [s.raiseFatal_eq c w hl, t.raiseFatal_eq c w (by rwa [h.life])]
  obtain ⟨_, _, _, _, _, _, rfl⟩ := h
  exact ⟨_, _, _, _, _, _, rfl⟩

theorem SameButWorking.resampleStore {s t : State E} (h : SameButWorking s t) (hl : s.life ≠ .fault)
    (a : ResampleAnswer E) : SameButWorking (resampleStore s a) (resampleStore t a) := by
  cases hr : fitsReturn a.result
  · rw [resampleStore_of_not_fits s hr, resampleStore_of_not_fits t hr]
    exact h.raiseFatal hl _ _
  · rw [resampleStore_of_fits s hr, resampleStore_of_fits t hr]
    obtain ⟨_, _, _, _, _, _, rfl⟩ := h
    exact ⟨_, _, _, _, _, _, rfl⟩

/-- The Resampler's answer to given spectral vectors (R176). -/
def resampleOf (s : State E) (inputs : Fin s.cfg.chanM → List E.Cx) : ResampleAnswer E :=
  let r := E.resampler s.cfg s.rs inputs (fun c => (s.olen c.val).toNat)
    (fun c k => s.sample .out (outRow s.cfg c.val + k.val))
  { rs := r.1, rows := outputRows s.cfg _ r.2.1, result := r.2.2 }

theorem resampleCall_eq (s : State E) :
    resampleCall s = resampleOf s fun c => s.samples .sout (bufRow s.cfg c.val) s.segLen := rfl

/-! ### VALIDATE -/

/-- The state in which ROTATE leaves an IDLE block to the sequencer (R170). -/
def started (s : State E) : State E := { s with life := .busy, upc := 0 }

/-- The state in which a VALIDATE that passes leaves it, with segments of `n` samples (R121). -/
def validatedAt (s : State E) (n : Nat) : State E :=
  { s with life := .busy, vok := true, diagCtl := 0, seg := BitVec.ofNat 32 n, upc := 1 }

theorem validate_of_inputMisaligned {s : State E} (hin : s.inputLen % (s.cfg.q * s.cfg.mul) ≠ 0) :
    validate s = s.failLength .input s.inputLen (s.cfg.q * s.cfg.mul) (retIndex s.cfg.chanM) := by
  simp [validate, inputAligned, hin]

theorem validate_of_outputMisaligned {s : State E} (hin : s.inputLen % (s.cfg.q * s.cfg.mul) = 0)
    (hout : (s.olen 0).toNat % (s.cfg.p * s.cfg.mul) ≠ 0) :
    validate s = s.failLength .output (s.olen 0).toNat (s.cfg.p * s.cfg.mul) (retIndex s.cfg.chanM) := by
  simp [validate, inputAligned, outputAligned, hin, hout]

/-- VALIDATE of a ROTATE just started fails, faults or passes exactly where the function of R174 does. -/
theorem validate_started_cases (s : State E) :
    (∃ b l d, validate (started s) = (started s).failLength b l d (retIndex s.cfg.chanM) ∧
      rotateOnce s = s.failLength b l d (retIndex s.cfg.chanM)) ∨
    (∃ w, validate (started s) = (started s).raiseFatal .capacity w ∧
      rotateOnce s = { s with upc := 0 }.raiseFatal .capacity w) ∨
    (validate (started s) = validatedAt s (s.inputLen / s.cfg.chanM) ∧
      rotateOnce s = rotateValidated s (s.inputLen / s.cfg.chanM)) := by
  by_cases hin : s.inputLen % (s.cfg.q * s.cfg.mul) = 0
  case neg => exact .inl ⟨_, _, _, validate_of_inputMisaligned (s := started s) hin, if_pos hin⟩
  by_cases hout : (s.olen 0).toNat % (s.cfg.p * s.cfg.mul) = 0
  case neg =>
    exact .inl ⟨_, _, _, validate_of_outputMisaligned (s := started s) hin hout,
      (if_neg (not_not.2 hin)).trans (if_pos hout)⟩
  rw [rotateOnce, if_neg (not_not.2 hin), if_neg (not_not.2 hout)]
  by_cases hcap : s.cfg.chanM * s.cfg.segCap < s.inputLen
  case pos => exact .inr (.inl ⟨_, validate_of_inputOver (s := started s) hin hout hcap, if_pos hcap⟩)
  rw [if_neg hcap]
  cases hlong : firstOverlong s with
  | some l =>
    exact .inr (.inl ⟨_, validate_of_outputOver (s := started s) hin hout (Nat.not_lt.1 hcap) hlong, rfl⟩)
  | none =>
    have hfit := (firstOverlong_eq_none_iff s).1 hlong
    exact .inr (.inr ⟨validate_of_fits (s := started s) hin hout (Nat.not_lt.1 hcap) hfit, rfl⟩)

/-! ### From VALIDATE to RESAMP -/

/-- The stage of O40 as one update of memory. -/
theorem effects_spectralOps (s : State) (hs : s.segLen ≤ s.cfg.segCap) :
    (∃ fbuf sout lens upc, effects spectralOps s =
      { s with mem := { s.mem with fbuf := fbuf, sout := sout }, lens := lens, upc := upc }) ∧
    ∀ (k : Nat) (b : Fin s.cfg.chanM), k < s.segLen → (effects spectralOps s).sample .sout (bufRow s.cfg b.val + k) =
      Config.fft s.cfg.chanM (fun c => s.sample .wout (bufRow s.cfg c.val + k)) b := by
  obtain ⟨t, hexec, hrows, hmem, -, hframe⟩ := spectralStageIsOneTransform s hs
  have heq : effects spectralOps s = t := Host.Outcome.next.inj ((execAll_eq_next spectralOps s).symm.trans hexec)
  rw [heq]
  refine ⟨⟨t.mem.fbuf, t.mem.sout, t.lens, s.upc + 3, ?_⟩, hrows⟩
  rw [← hmem]
  exact hframe

theorem Filtered.sample_wout {m i k : Nat} {s t : State E} (h : Filtered m s t) (hi : i < m) (hk : k < s.segLen) :
    t.sample .wout (bufRow s.cfg i + k) = (channelFilter s s.segLen i).1.getD k E.num.czero := by
  rw [← h.outputs i hi, List.getD_eq_getElem _ _ (by simpa using hk), State.samples_getElem]

/-- After `PBANK; SPECTRAL` the spectral vectors stand in `SOUT`, the new histories in `HIST`, and nothing else that the
host can see has changed but `UPC` (R174). -/
theorem effects_filterOps (s : State) (hs : s.segLen ≤ s.cfg.segCap) :
    (∀ b : Fin s.cfg.chanM, (effects (filterOps s.cfg.chanM) s).samples .sout (bufRow s.cfg b.val) s.segLen =
      spectralRow s s.segLen b) ∧
    SameButWorking { s.storeRows .hist (historyRows s s.segLen s.cfg.chanM) with
      upc := (effects (filterOps s.cfg.chanM) s).upc } (effects (filterOps s.cfg.chanM) s) := by
  have hbank := filtered_pbankOps le_rfl hs
  rw [filterOps, effects_append]
  generalize effects (pbankOps s.cfg.chanM) s = t at hbank ⊢
  obtain ⟨⟨_, _, _, _, hframe⟩, hrows⟩ := effects_spectralOps t (by rwa [hbank.cfg, hbank.segLen])
  rw [hbank.cfg, hbank.segLen] at hrows
  refine ⟨fun b => List.map_congr_left fun k hk => ?_, ?_⟩
  · rw [List.mem_range] at hk
    rw [hrows k b hk]
    exact congrArg (Config.fft s.cfg.chanM · b) (funext fun c => hbank.sample_wout c.isLt hk)
  · rw [hframe]
    obtain ⟨_, _, _, _, _, rfl⟩ := hbank.frame
    exact ⟨_, _, _, _, _, _, rfl⟩

/-- `s` with VALIDATE's writes and the new histories, at the entry of RESAMP. -/
def withHistories (s : State E) (n : Nat) : State E :=
  { s with vok := true, diagCtl := 0, seg := BitVec.ofNat 32 n,
           upc := BitVec.ofNat 32 (5 * s.cfg.chanM + 4) }.storeRows .hist (historyRows s n s.cfg.chanM)

/-- The state RESAMP finds, but for the working buffers. -/
def beforeResample (s : State E) (n : Nat) : State E := { withHistories s n with life := .busy }

/-- The Resampler's answer to the spectral vectors of the function of R174. -/
def rotateAnswer (s : State E) (n : Nat) : ResampleAnswer E := resampleOf s (spectralRow s n)

/-- What RESAMP leaves, but for the working buffers. -/
def afterResample (s : State E) (n : Nat) : State E := resampleStore (beforeResample s n) (rotateAnswer s n)

theorem rotateValidated_eq (s : State E) (n : Nat) : rotateValidated s n =
    if fitsReturn (rotateAnswer s n).result = false then
      (withHistories s n).raiseFatal .retRange (BitVec.ofInt 32 (rotateAnswer s n).result)
    else
      { ((withHistories s n).storeRows .out (rotateAnswer s n).rows).setResult (rotateAnswer s n).rs
          (BitVec.ofInt 32 (rotateAnswer s n).result) with upc := BitVec.ofNat 32 (retIndex s.cfg.chanM) } := rfl

/-- The result fits: RESAMP goes on to RET, and RET completes the function of R174. -/
theorem afterResample_of_fits {s : State E} {n : Nat} (hl : s.life = .idle)
    (hr : fitsReturn (rotateAnswer s n).result = true) :
    (afterResample s n).life = .busy ∧ (afterResample s n).upc = BitVec.ofNat 32 (retIndex s.cfg.chanM) ∧
      ret (afterResample s n) = rotateValidated s n := by
  have hupc : BitVec.ofNat 32 (5 * s.cfg.chanM + 4) + 1 = BitVec.ofNat 32 (retIndex s.cfg.chanM) :=
    (BitVec.ofNat_add (5 * s.cfg.chanM + 4) 1).symm
  rw [rotateValidated_eq, if_neg (by simp [hr]), afterResample, resampleStore_of_fits _ hr, ret, ← hl, ← hupc]
  exact ⟨rfl, rfl, rfl⟩

/-- It does not: the ROTATE ends in the fault of R176. -/
theorem afterResample_of_not_fits {s : State E} {n : Nat} (hl : s.life = .idle)
    (hr : fitsReturn (rotateAnswer s n).result = false) :
    (afterResample s n).life = .fault ∧ afterResample s n = rotateValidated s n := by
  have hl' : (withHistories s n).life ≠ .fault := by simp [withHistories, hl]
  rw [rotateValidated_eq, if_pos hr, afterResample, resampleStore_of_not_fits _ hr, State.raiseFatal_eq _ _ _ hl',
    State.raiseFatal_eq _ _ _ (by simp [beforeResample])]
  exact ⟨rfl, rfl⟩

section
variable {s : State} {n : Nat} (hvalid : Validated (validatedAt s n)) (hn : (validatedAt s n).segLen = n)
include hvalid hn

/-- RESAMP gives the Resampler what the function of R174 does. -/
theorem resamp_of_sameButWorking {t : State} (h : SameButWorking (beforeResample s n) t)
    (hsout : ∀ b : Fin s.cfg.chanM, t.samples .sout (bufRow s.cfg b.val) n = spectralRow s n b) :
    resamp t = resampleStore t (rotateAnswer s n) := by
  have hseg : t.segLen = n := h.segLen.trans hn
  obtain ⟨_, _, _, _, _, _, rfl⟩ := h
  rw [resamp_eq, resampleCall_eq, hseg]
  · exact congrArg (fun inputs => resampleStore _ (resampleOf s inputs)) (funext hsout)
  · exact hvalid.segFits
  · exact hvalid.outputsFit

/-- From a VALIDATE that has passed, `5*M + 3` steps run `PBANK; SPECTRAL` (R98, R171). -/
theorem runSteps_filterOps (hm : s.cfg.chanM ≤ 65536) (hinbox : s.inbox = []) :
    ∃ t, runSteps (5 * s.cfg.chanM + 3) (validatedAt s n) = .next t ∧ SameButWorking (beforeResample s n) t ∧
      ∀ b : Fin s.cfg.chanM, t.samples .sout (bufRow s.cfg b.val) n = spectralRow s n b := by
  have hlen := filterOps_length s.cfg.chanM
  have hone : (validatedAt s n).upc.toNat = 1 := rfl
  obtain ⟨hrun, hupc⟩ := runSteps_ops (is := filterOps s.cfg.chanM) (s := validatedAt s n) rfl hinbox hvalid.segFits
    (fun _ => id) (fun k hk => readEntry_filterOps hm hk) (by omega)
  have hupc' : (effects (filterOps s.cfg.chanM) (validatedAt s n)).upc = BitVec.ofNat 32 (5 * s.cfg.chanM + 4) := by
    apply BitVec.eq_of_toNat_eq
    rw [hupc, hone, hlen, BitVec.toNat_ofNat]
    omega
  obtain ⟨hsout, hsame⟩ := effects_filterOps (validatedAt s n) hvalid.segFits
  rw [hn] at hsout hsame
  refine ⟨_, hlen ▸ hrun, ?_, hsout⟩
  unfold beforeResample withHistories
  rw [← hupc']
  exact hsame

/-- RESAMP is the next step. -/
theorem runSteps_validatedAt (hm : s.cfg.chanM ≤ 65536) (hinbox : s.inbox = []) :
    ∃ t, runSteps (5 * s.cfg.chanM + 4) (validatedAt s n) = .next t ∧ SameButWorking (afterResample s n) t := by
  obtain ⟨t, hrun, hsame, hsout⟩ := runSteps_filterOps hvalid hn hm hinbox
  have hupc : (beforeResample s n).upc.toNat = 5 * s.cfg.chanM + 4 := Nat.mod_eq_of_lt (by omega)
  have hstep : step t = .next (resamp t) := hsame.step (i := .resamp) rfl hinbox (hupc ▸ readEntry_resamp _)
  refine ⟨_, (runSteps_add 1 hrun).trans (runSteps_succ hstep), ?_⟩
  rw [resamp_of_sameButWorking hvalid hn hsame hsout]
  exact hsame.resampleStore (by simp [beforeResample]) _

end

theorem afterResample_inbox (s : State E) (n : Nat) : (afterResample s n).inbox = s.inbox := resampleStore_inbox ..

theorem afterResample_cfg (s : State E) (n : Nat) : (afterResample s n).cfg = s.cfg := by
  cases hr : fitsReturn (rotateAnswer s n).result
  · rw [afterResample, resampleStore_of_not_fits _ hr]
    exact State.raiseFatal_cfg ..
  · rw [afterResample, resampleStore_of_fits _ hr]
    rfl

/-! ### The whole run -/

/-- A ROTATE that VALIDATE lets pass. -/
theorem runSteps_rotateValidated {s : State} {n : Nat} (hl : s.life = .idle) (hinbox : s.inbox = [])
    (hm : s.cfg.chanM ≤ 65536) (hvalid : Validated (validatedAt s n)) (hn : (validatedAt s n).segLen = n) :
    ∃ t, runSteps (5 * s.cfg.chanM + 5) (validatedAt s n) = .next t ∧ SameButWorking (rotateValidated s n) t := by
  obtain ⟨t, hrun, hsame⟩ := runSteps_validatedAt hvalid hn hm hinbox
  have hin : (afterResample s n).inbox = [] := (afterResample_inbox s n).trans hinbox
  cases hr : fitsReturn (rotateAnswer s n).result
  · obtain ⟨hfault, heq⟩ := afterResample_of_not_fits hl hr
    have hrest : runSteps 1 t = .next t :=
      runSteps_rest 1 (by rw [hsame.life, hfault]; decide) (hsame.inbox.trans hin)
    exact ⟨t, (runSteps_add 1 hrun).trans hrest, heq ▸ hsame⟩
  · obtain ⟨hbusy, hupc, heq⟩ := afterResample_of_fits hl hr
    have hentry : readEntry (afterResample s n).cfg.chanM (afterResample s n).upc.toNat = some (.op .ret) := by
      rw [hupc, afterResample_cfg, retIndex_toNat hm, readEntry_ret]
    exact ⟨_, (runSteps_add 1 hrun).trans (runSteps_succ (hsame.step hbusy hin hentry)), heq ▸ hsame.ret⟩

/-- A ROTATE that VALIDATE fails: RET is the next step and the last (R203). -/
theorem runSteps_failed {s : State} (hl : s.life = .idle) (hinbox : s.inbox = []) (hm : s.cfg.chanM ≤ 65536)
    (b : Bound) (l d : Nat) :
    runSteps (5 * s.cfg.chanM + 5) ((started s).failLength b l d (retIndex s.cfg.chanM)) =
      .next (s.failLength b l d (retIndex s.cfg.chanM)) := by
  have hentry : readEntry s.cfg.chanM (BitVec.ofNat 32 (retIndex s.cfg.chanM)).toNat = some (.op .ret) := by
    rw [retIndex_toNat hm, readEntry_ret]
  have hstep := step_of_readEntry (s := (started s).failLength b l d (retIndex s.cfg.chanM)) rfl hinbox hentry
  have hret : effect .ret ((started s).failLength b l d (retIndex s.cfg.chanM)) =
      s.failLength b l d (retIndex s.cfg.chanM) := by
    rw [effect, ret, ← hl]
    rfl
  rw [runSteps_succ hstep, hret]
  exact runSteps_rest _ (by simp [hl]) hinbox

theorem started_raiseFatal {s : State E} (hl : s.life = .idle) (c : FatalCode) (w : Word) :
    (started s).raiseFatal c w = { s with upc := 0 }.raiseFatal c w := by
  rw [State.raiseFatal_eq _ _ _ (by simp [started]), State.raiseFatal_eq _ _ _ (by simp [hl])]
  rfl

/-- A ROTATE just started runs to the function of R174, in the failing, faulting and passing cases. -/
theorem runSteps_started {s : State} (hcfg : cfgWellFormed s.cfg = true) (hl : s.life = .idle)
    (hinbox : s.inbox = []) :
    ∃ t, runSteps (5 * s.cfg.chanM + 6) (started s) = .next t ∧ SameButWorking (rotateOnce s) t := by
  obtain ⟨hpos, -, hm⟩ := chanM_of_wellFormed hcfg
  have hstep : step (started s) = .next (validate (started s)) :=
    step_of_readEntry (s := started s) (i := .validate) rfl hinbox (readEntry_zero s.cfg.chanM)
  rw [runSteps_succ hstep]
  obtain ⟨b, l, d, hfail, honce⟩ | ⟨w, hfault, honce⟩ | ⟨hpass, honce⟩ := validate_started_cases s
  case inl =>
    rw [hfail, honce]
    exact ⟨_, runSteps_failed hl hinbox hm b l d, .refl _⟩
  case inr.inl =>
    rw [hfault, honce, started_raiseFatal hl]
    exact ⟨_, runSteps_rest _ (by simp) (by simpa using hinbox), .refl _⟩
  case inr.inr =>
    have hvalid : Validated (validatedAt s (s.inputLen / s.cfg.chanM)) := by
      have h := validate_validated (started s) hcfg
      rw [hpass] at h
      exact h rfl rfl
    have hn : (validatedAt s (s.inputLen / s.cfg.chanM)).segLen = s.inputLen / s.cfg.chanM :=
      (Nat.div_eq_of_eq_mul_right hpos hvalid.inputLen).symm
    rw [hpass, honce]
    exact runSteps_rotateValidated hl hinbox hm hvalid hn

/-- Settles O46: the command starts the ROTATE, and the run of `runSteps_started` follows. -/
theorem rotateIsOneFunction : Obligations.RotateIsOneFunction := by
  intro s h hl hinbox
  have hdecode : decode 0x02000000 = .op .rotate := by decide
  have hempty : ({ s with inbox := [] } : State) = s := by rw [← hinbox]
  have hstep := stepRunsHostCommand { s with inbox := [.writeWord .csr 0x12 0x02000000] } _ _ [] rfl hdecode rfl
  have hstart : exec .rotate { s with inbox := [] } = .next (started s) := by
    rw [hempty]
    exact congrArg _ (rotate_idle s hl)
  obtain ⟨t, hrun, hsame⟩ := runSteps_started (h.configured (.inl hl)) hl hinbox
  exact ⟨t, (runSteps_succ (hstep.trans hstart)).trans hrun, hsame.sameToHost⟩

end Sys2Proof.Machine
end

