-- ==== Sys2Proof/Proofs/LifeCycle.lean ====
section
/-! O15, O16, O19, O20: the life-cycle commands. Each has one equation per life-cycle state; the table of R193 is these
equations, with the word recorded in BUSY being the one that spells the command. -/

namespace Sys2Proof.Machine

variable {E : Env}

/-! ### NOP -/

theorem nop_not_busy {s : State E} (hl : s.life ≠ .busy) : nop s = s := by
  unfold nop
  split
  case h_4 hbusy => exact absurd hbusy hl
  all_goals rfl

theorem nop_busy {s : State E} (hl : s.life = .busy) : nop s = s.faulted .reentry 0 := by
  simp [nop, hl, s.raiseFatal_eq_faulted]

/-- Settles O16. -/
theorem nopFollowsItsRule : Obligations.NopFollowsItsRule := by
  refine fun s => ⟨fun hl => congrArg _ (nop_not_busy ?_), fun hl => congrArg _ (nop_busy hl)⟩
  rcases hl with hl | hl | hl <;> simp [hl]

/-! ### CONSTRUCT -/

theorem construct_misconfigured {s : State E} {n : Nat} (hl : s.life = .unconfigured)
    (hn : cfgFailing s.cfg = some n) : construct s = s.faulted .cfg (BitVec.ofNat 32 n) := by
  simp [construct, hl, hn, s.raiseFatal_eq_faulted]

theorem construct_idle {s : State E} (hl : s.life = .idle) : construct s = s.faulted .state 0x01000000 := by
  simp [construct, hl, s.raiseFatal_eq_faulted]

theorem construct_busy {s : State E} (hl : s.life = .busy) : construct s = s.faulted .reentry 0x01000000 := by
  simp [construct, hl, s.raiseFatal_eq_faulted]

/-- Settles O19: state by state. -/
theorem constructRefusals : Obligations.ConstructRefusals := fun _ =>
  ⟨fun _ hl hn => congrArg _ (construct_misconfigured hl hn), fun hl => congrArg _ (construct_idle hl),
    fun hl => congrArg _ (construct_busy hl), fun hl => congrArg _ (effect_fault (i := .construct) rfl hl)⟩

/-! ### The commands that run in IDLE only -/

theorem whenIdle_idle {s : State E} (w : Word) (done : State E) (hl : s.life = .idle) : whenIdle w s done = done := by
  simp [whenIdle, hl]

theorem whenIdle_unconfigured {s : State E} (w : Word) (done : State E) (hl : s.life = .unconfigured) :
    whenIdle w s done = s.faulted .state w := by
  simp [whenIdle, hl, s.raiseFatal_eq_faulted]

theorem whenIdle_busy {s : State E} (w : Word) (done : State E) (hl : s.life = .busy) :
    whenIdle w s done = s.faulted .reentry w := by
  simp [whenIdle, hl, s.raiseFatal_eq_faulted]

/-! ### DESTROY -/

/-- DESTROY leaves the registers 0x00 to 0x07 and 0x11 as a reset does. -/
theorem destruction_csrRead_zero (s : State E) {n : Nat} (hn : n ≤ 0x07 ∨ n = 0x11) :
    (destruction s).csrRead n = 0 := by
  rw [← resetOver_csrRead (E := E) n]
  obtain hn | rfl := hn
  · interval_cases n <;> rfl
  · rfl

/-- The configuration registers keep their values. -/
theorem destruction_csrRead_config (s : State E) {n : Nat} (hlow : 0x08 ≤ n) (hhigh : n ≤ 0x10) :
    (destruction s).csrRead n = s.csrRead n := by
  interval_cases n <;> rfl

/-- The contents go as they do at a reset. -/
theorem destruction_sample (s : State E) (sp : SampleSpace) (a : Nat) :
    (destruction s).sample sp a = E.freeSample sp ((s.mem.bank sp).epoch + 1) a := hardReset_sample s sp a

/-- Settles O20: in IDLE DESTROY leaves `destruction s`, read register by register and space by space. -/
theorem destroyFollowsItsRule : Obligations.DestroyFollowsItsRule := by
  refine fun s => ⟨fun hl => ?_, fun hl => congrArg _ (whenIdle_unconfigured _ _ hl),
    fun hl => congrArg _ (whenIdle_busy _ _ hl), fun hl => congrArg _ (effect_fault (i := .destroy) rfl hl)⟩
  exact ⟨destruction s, congrArg _ (whenIdle_idle _ _ hl), fun _ => destruction_csrRead_zero s,
    fun _ => destruction_csrRead_config s, destruction_sample s, fun _ => rfl, fun _ => ⟨rfl, rfl, rfl⟩, rfl, rfl⟩

/-! ### The table of R193 -/

/-- In BUSY every host command takes `F_REENTRY` with the word that spells it. -/
theorem effect_busy {i : Instr} {s : State E} (hhost : i.isHostCommand = true) (hl : s.life = .busy) :
    effect i s = s.faulted .reentry (encode i) := by
  cases i with
  | nop => exact nop_busy hl
  | construct => exact construct_busy hl
  | rotate | destroy => exact whenIdle_busy _ _ hl
  | _ => cases hhost

theorem refuseCommand_busy {s : State E} (w : Word) (hl : s.life = .busy) :
    refuseCommand s w = s.faulted .reentry w := by
  simp [refuseCommand, hl, s.raiseFatal_eq_faulted]

theorem refuseCommand_unconfigured_or_idle {s : State E} (w : Word) (hl : s.life = .unconfigured ∨ s.life = .idle) :
    refuseCommand s w = s.faulted .illegal w := by
  obtain hl | hl := hl <;> simp [refuseCommand, hl, s.raiseFatal_eq_faulted]

/-- In BUSY every word takes `F_REENTRY`, one that runs as well as one the port refuses. -/
theorem hostWriteWord_outcome_busy {s : State} (w : Word) (hl : s.life = .busy) :
    (hostWriteWord s .csr 0x12 w).outcome = .next (s.faulted .reentry w) := by
  refine hostWriteWord_cases (p := fun f => f.outcome = .next (s.faulted .reentry w)) s .csr 0x12 w ?_ ?_ ?_ ?_
  · intro i _ _ hd hhost
    obtain ⟨rfl, -⟩ := encodeOfDecode w i hd
    exact (exec_eq_next_effect i s).trans (congrArg _ (effect_busy hhost hl))
  · exact fun _ _ _ => congrArg _ (refuseCommand_busy w hl)
  · exact fun _ hne => absurd rfl hne
  · exact fun hsp => nomatch hsp

/-- The host commands are the operations of class 0 (R90, R95). -/
theorem class_opcodeOf_eq_zero_iff (i : Instr) : (opcodeOf i).extractLsb' 4 4 = 0 ↔ i.isHostCommand = true := by
  cases i <;> simp [opcodeOf, Instr.isHostCommand]

/-- A word of another class, or an `ILLEGAL` one, is no host command (R94, R95). -/
theorem not_isHostCommand_of_refused {w : Word} {i : Instr}
    (hw : w.extractLsb' 28 4 ≠ 0 ∨ ∃ why, decode w = .illegal why) (hd : decode w = .op i) : i.isHostCommand = false := by
  obtain hclass | ⟨why, hwhy⟩ := hw
  · obtain ⟨hopc, -⟩ := (decode_eq_op_iff w i).1 hd
    rw [class_eq, hopc, ne_eq, class_opcodeOf_eq_zero_iff] at hclass
    exact eq_false_of_ne_true hclass
  · simp [hwhy] at hd

theorem issueCommand_refused (s : State E) {w : Word} (hw : ∀ i, decode w = .op i → i.isHostCommand = false) :
    issueCommand s w = .done (refuseCommand s w) := by
  cases hd : decode w with
  | op i => simp [issueCommand, hd, hw i hd]
  | illegal why => simp [issueCommand, hd]

theorem wellFormed_of_isHostCommand {i : Instr} (hhost : i.isHostCommand = true) : i.wellFormed = true := by
  cases i with
  | nop | construct | rotate | destroy => rfl
  | _ => cases hhost

/-- Settles O15: FAULT and BUSY treat every word alike; elsewhere a word is refused, or spells the command it runs,
whose own rule has the fault. -/
theorem commandByLifeCycleState : Obligations.CommandByLifeCycleState := by
  intro s w rest hinbox q
  have hstep : step s = (hostWriteWord q .csr 0x12 w).outcome := by rw [step_eq_outcome, fetch, hinbox]
  have hrun : ∀ i, i.isHostCommand = true → w = encode i → step s = exec i q := by
    rintro i hhost rfl
    exact stepRunsHostCommand s _ i rest hinbox (decodeOfEncode i (wellFormed_of_isHostCommand hhost)) hhost
  refine ⟨fun hl => hstep.trans (hostWriteWord_outcome_fault .csr 0x12 w hl),
    fun hl => hstep.trans (hostWriteWord_outcome_busy w hl), fun hl => ⟨fun hw => ?_, fun hw => ?_⟩,
    fun hl => ⟨hrun .construct rfl, ?_⟩, fun hl => ⟨fun hw => ?_, hrun .rotate rfl, hrun .destroy rfl⟩⟩
  · rw [← refuseCommand_unconfigured_or_idle (s := q) w hl]
    exact hstep.trans (congrArg Fetch.outcome (issueCommand_refused q fun _ => not_isHostCommand_of_refused hw))
  · have hnotBusy : q.life ≠ .busy := by rcases hl with hl | hl <;> simp [q, hl]
    exact (hrun .nop rfl hw).trans (congrArg _ (nop_not_busy hnotBusy))
  · rintro (rfl | rfl)
    · exact (hrun .rotate rfl rfl).trans (congrArg _ (whenIdle_unconfigured (s := q) _ _ hl))
    · exact (hrun .destroy rfl rfl).trans (congrArg _ (whenIdle_unconfigured (s := q) _ _ hl))
  · subst hw
    exact (hrun .construct rfl rfl).trans (congrArg _ (construct_idle (s := q) hl))

end Sys2Proof.Machine
end

