-- ==== Sys2Proof/Proofs/FailedRotate.lean ====
section
/-! O10, O22, O44: outside BUSY a step without an access does nothing, and a ROTATE that VALIDATE fails is over with
RET, the step after it (R203), having written nothing but its report (R205). -/

namespace Sys2Proof.Machine

variable {E : Env}

/-! ### Steps without work -/

/-- Settles O10: the sequencer has nothing to do outside BUSY, and a host done waiting is no access. -/
theorem stepWithoutWorkChangesNothing : Obligations.StepWithoutWorkChangesNothing := by
  refine fun s hl => ⟨fun hinbox => ?_, ?_⟩
  · exact step_of_done (by rw [fetch, hinbox]; exact sequencerTurn_not_busy hl)
  rintro rest (hinbox | hinbox)
  · exact step_of_done (by rw [fetch, hinbox]; exact sequencerTurn_not_busy (s := { s with inbox := rest }) hl)
  · exact step_of_done (by rw [fetch, hinbox]; exact if_neg hl)

/-! ### VALIDATE on a misaligned length -/

/-- Settles O22: both rules enter the failure of R203, with the length latched whole. -/
theorem validateFailsOnMisalignedLength : Obligations.ValidateFailsOnMisalignedLength := by
  refine fun s => ⟨fun hin => ?_, fun hin hout => ?_⟩ <;> rw [← BitVec.ofNat_toNat]
  · exact congrArg _ (validate_of_inputMisaligned hin)
  · exact congrArg _ (validate_of_outputMisaligned hin hout)

/-- Whichever length is misaligned, VALIDATE fails with some report (R201). -/
theorem validate_of_misaligned {s : State E}
    (h : s.inputLen % (s.cfg.q * s.cfg.mul) ≠ 0 ∨ (s.olen 0).toNat % (s.cfg.p * s.cfg.mul) ≠ 0) :
    ∃ b n d, validate s = s.failLength b n d (retIndex s.cfg.chanM) := by
  by_cases hin : s.inputLen % (s.cfg.q * s.cfg.mul) = 0
  · exact ⟨_, _, _, validate_of_outputMisaligned hin (h.resolve_left (not_not.2 hin))⟩
  · exact ⟨_, _, _, validate_of_inputMisaligned hin⟩

/-- A failure leaves the return code `-1` and a valid report (R203). -/
theorem failLength_reports (s : State E) (b : Bound) (n d u : Nat) :
    (s.failLength b n d u).returnCode = -1 ∧ (s.failLength b n d u).diagCtl.getLsbD 0 = true := by
  cases b <;> exact ⟨rfl, by simp⟩

/-! ### The three steps of a ROTATE that fails -/

/-- The command, in IDLE, leaves the block to the sequencer (R170). -/
theorem step_rotateCommand {s : State} {rest : List HostEvent} (hl : s.life = .idle)
    (hinbox : s.inbox = .writeWord .csr 0x12 0x02000000 :: rest) :
    step s = .next (started { s with inbox := rest }) := by
  obtain ⟨-, hdecode, -⟩ := specWordsDecode
  exact (stepRunsHostCommand s _ _ rest hinbox hdecode rfl).trans (congrArg _ (rotate_idle { s with inbox := rest } hl))

/-- The sequencer begins with VALIDATE (R171). -/
theorem step_started {s : State} (hinbox : s.inbox = []) : step (started s) = .next (validate (started s)) :=
  step_of_readEntry (s := started s) (i := .validate) rfl hinbox (readEntry_zero s.cfg.chanM)

/-- At the last index of the micro-program it runs RET (R171, R172). -/
theorem step_retEntry {s : State} (hb : s.life = .busy) (hinbox : s.inbox = []) (hm : s.cfg.chanM ≤ 65536)
    (hupc : s.upc = BitVec.ofNat 32 (retIndex s.cfg.chanM)) : step s = .next (ret s) :=
  step_of_readEntry (i := .ret) hb hinbox (by rw [hupc, retIndex_toNat hm, readEntry_ret])

/-- RET undoes the command's write of `LIFE`, as the failure has undone its write of `UPC`. -/
theorem ret_failLength_started {s : State E} (hl : s.life = .idle) (b : Bound) (n d u : Nat) :
    ret ((started s).failLength b n d u) = s.failLength b n d u := by
  rw [ret, ← hl]
  rfl

/-- Settles O44: the command, VALIDATE and RET, the failure being all that is left of them. -/
theorem failedRotateMutatesNothing : Obligations.FailedRotateMutatesNothing := by
  intro s hl hm hinbox hmis
  let q : State := { s with inbox := [] }
  obtain ⟨b, n, d, hfail⟩ := validate_of_misaligned (s := started q) hmis
  have hcommand : step s = .next (started q) := step_rotateCommand hl hinbox
  have hvalidate : step (started q) = .next ((started q).failLength b n d (retIndex q.cfg.chanM)) :=
    (step_started rfl).trans (congrArg _ hfail)
  have hret : step ((started q).failLength b n d (retIndex q.cfg.chanM)) =
      .next (q.failLength b n d (retIndex q.cfg.chanM)) :=
    (step_retEntry (s := (started q).failLength b n d _) rfl rfl hm rfl).trans
      (congrArg _ (ret_failLength_started (s := q) hl ..))
  have hrun : runSteps 3 s = .next (q.failLength b n d (retIndex q.cfg.chanM)) := by
    rw [runSteps_succ hcommand, runSteps_succ hvalidate, runSteps_succ hret, runSteps]
  obtain ⟨hcode, hvalid⟩ := failLength_reports q b n d (retIndex q.cfg.chanM)
  exact ⟨_, hrun, hcode, hvalid, rfl⟩

end Sys2Proof.Machine
end
